-- ==== Sys2Proof/Word.lean ====
section
/-! DEFINITION. The word types of the block: bytes, the 16-bit remote identifier, the 24-bit transmit word, the 64-bit
view of a command record, and slot indices (spec/00_scope.md R7, R9). -/

namespace Sys2Proof

/-- One byte of a record or of a timer control register. -/
abbrev Byte := BitVec 8

/-- A remote identifier (R7: `RID_BITS` = 16). -/
abbrev RemoteId := BitVec 16

/-- A transmit word: the format of `BUF` and `ENCW` (R7: `BUF_BITS` = 24). -/
abbrev TxWord := BitVec 24

/-- A command record seen as one number, the byte at offset `k` in bits `8k+7 .. 8k` (R85). -/
abbrev RecordWord := BitVec 64

/-- A slot index; its successor is modulo 16 (R63). -/
abbrev SlotIndex := BitVec 4

end Sys2Proof
end

