-- ==== Sys2Proof/Syntax.lean ====
section
/-! DEFINITION. The command record, the operands, and `Instr`: one constructor for each row of spec/opcode_table.json
(R2: the "instructions" of this block are its command records and its named operations). -/

namespace Sys2Proof

/-- One of the two queues (R38): `iq` is inbound (host to device), `oq` outbound. -/
inductive QueueId where
  | iq
  | oq
  deriving DecidableEq, Repr

/-- A command record (R85): 8 bytes, `rid` at offsets 2 and 3, `pad` at offsets 5 to 7 (offset 5 in its low byte). -/
structure Record where
  tag  : Byte
  kind : Byte
  rid  : RemoteId
  key  : Byte
  pad  : BitVec 24
  deriving DecidableEq, Repr

/-- One action of the transport at a service point (R200): enqueue a record received from the host, or serve a host
poll from the outbound queue. -/
inductive TransportAction where
  | enqueue (r : Record)
  | serve
  deriving DecidableEq, Repr

/-- The three agents that take steps (R15). -/
inductive Agent where
  | main
  | irq
  | tmr
  deriving DecidableEq, Repr, Inhabited

/-- What the timer's other owner writes in one move (R248): the whole timer. -/
structure OwnerWrite where
  tctl : Byte
  tien : Byte
  tifr : Byte
  cnt  : Nat
  cmpa : Nat
  cmpb : Nat
  cmpc : Nat
  deriving DecidableEq, Repr

/-- One choice of the schedule (R224): a step of an agent, or a move of the timer's other owner (R248). -/
inductive Move where
  | agent (a : Agent)
  | owner (w : OwnerWrite)
  deriving DecidableEq, Repr, Inhabited

/-- The instructions: one constructor for each row of the opcode table, in the table's order. The idle callback of
`TRANSMIT`, `TRANSMIT_HW` and `POLL` is present or absent; when present it is `XPORT_SERVICE` (R154, X4). -/
inductive Instr where
  /-- `SWITCH`, R192 -/
  | switch (tag : Byte) (rid : RemoteId) (key : Byte) (pad : BitVec 24)
  /-- `SWITCH_LEGACY`, R193 -/
  | switchLegacy (tag : Byte) (rid : RemoteId) (key : Byte) (pad : BitVec 24)
  /-- `UNKNOWN`, R194: a record of any other kind -/
  | unknown (tag kind : Byte) (rid : RemoteId) (key : Byte) (pad : BitVec 24)
  /-- `READY`, R195: the record the device emits at start-up -/
  | ready
  /-- `ERR_UNKNOWN`, R194: the error-marked reply the device emits -/
  | errUnknown (tag : Byte) (rid : RemoteId) (key : Byte) (pad : BitVec 24)
  /-- `SYM1`, R95, R124: the engine's opcode 1 -/
  | sym1
  /-- `SYM0`, R95, R124: the engine's opcode 0 -/
  | sym0
  /-- `TXW`, R93: the transmit word of `rid` and the 7 significant key bits -/
  | txw (rid : RemoteId) (key : BitVec 7)
  /-- `ENCODE`, R110 -/
  | encode (rid : RemoteId) (key : Byte)
  /-- `TICK`, R120 -/
  | tick
  /-- `ARM`, R123 -/
  | arm
  /-- `ISR_P`, R124: the body of the primary handler -/
  | isrP
  /-- `ISR_S`, R125: the body of the secondary handler -/
  | isrS
  /-- `STOP`, R126 -/
  | stop
  /-- `TRANSMIT`, R150 -/
  | transmit (rid : RemoteId) (key : Byte) (useHw idle : Bool)
  /-- `ACQUIRE`, R151 -/
  | acquire
  /-- `TRANSMIT_HW`, R152 -/
  | transmitHw (rid : RemoteId) (key : Byte) (idle : Bool)
  /-- `POLL`, R153 -/
  | poll (idle : Bool)
  /-- `RELEASE`, R158 -/
  | release
  /-- `TRANSMIT_LEGACY`, R160 -/
  | transmitLegacy (rid : RemoteId) (key : Byte)
  /-- `Q_WRITE`, R176 -/
  | qWrite (q : QueueId) (r : Record)
  /-- `Q_READ`, R177 -/
  | qRead (q : QueueId)
  /-- `MAIN_LOOP`, R197 -/
  | mainLoop
  /-- `DISPATCH`, R191 -/
  | dispatch
  /-- `BOOT_READY`, R195 -/
  | bootReady
  /-- `XPORT_SERVICE`, R200 -/
  | xportService
  /-- `HOST_VERIFY`, R201 -/
  | hostVerify (sent reply : Record)
  /-- `IRQ_ENTRY`, R221 -/
  | irqEntry
  deriving DecidableEq, Repr

end Sys2Proof
end

