-- ==== Sys2Proof/Config.lean ====
section
/-! DEFINITION. The parameters of spec/00_scope.md R7 with their constraints as proofs (93_implementation_defined.md X12:
"the model's parameter structure carries the constraints as proofs"), the spec's default instantiation, and the free
values: constants with no body, of which nothing can be proved but what holds for every value. -/

namespace Sys2Proof

/-- The parameters of R7. Those R7 marks fixed (`REC_BYTES`, `QCAP`, `BUF_BITS`, `NSNAP`) are no fields. -/
structure Config where
  /-- `W`: width of `CNT`, `CMPA`, `CMPB`, `CMPC` in bits -/
  w : Nat
  /-- `T_START`, in timer ticks -/
  tStart : Nat
  /-- `T_FULL`, in timer ticks -/
  tFull : Nat
  /-- `T_HALF`, in timer ticks -/
  tHalf : Nat
  /-- `TICK_NS`: informative, read by no step (R271) -/
  tickNs : Nat
  /-- `CFG_TCTL` -/
  cfgTctl : Byte
  /-- `PIN_INIT` -/
  pinInit : Bool
  /-- `PIN_REST` -/
  pinRest : Bool
  /-- `N_REPEAT` -/
  nRepeat : Nat
  /-- `N_REPEAT_LEGACY` -/
  nRepeatLegacy : Nat
  /-- `HW_TIMER_AVAILABLE` -/
  hwTimerAvailable : Bool
  /-- `REPORT_TAG` -/
  reportTag : Byte
  kindSwitch : Byte
  kindSwitchLegacy : Byte
  kindReady : Byte
  kindErrUnknown : Byte
  /-- `RDY_RID` -/
  rdyRid : RemoteId
  /-- `RDY_KEY` -/
  rdyKey : Byte
  /-- `TL_START`, in nanoseconds -/
  tlStart : Nat
  /-- `TL_FULL`, in nanoseconds -/
  tlFull : Nat
  /-- `TL_HALF`, in nanoseconds -/
  tlHalf : Nat
  /-- `HOST_RETRY_DELAY` -/
  hostRetryDelay : Nat
  two_le_w : 2 ≤ w
  tStart_pos : 0 < tStart
  tStart_lt_inert : tStart < 2 ^ w - 1
  tFull_lt_inert : tFull < 2 ^ w - 1
  tHalf_pos : 0 < tHalf
  tHalf_lt_tFull : tHalf < tFull
  tBit_lt_inert : 2 * tHalf < 2 ^ w - 1
  tickNs_pos : 0 < tickNs
  cfgTctl_ctc : cfgTctl.getLsbD 7 = true
  cfgTctl_cs : cfgTctl.extractLsb' 0 4 ≠ 0#4
  pinInit_ne_pinRest : pinInit ≠ pinRest
  nRepeat_pos : 1 ≤ nRepeat
  nRepeat_le : nRepeat ≤ 255
  nRepeatLegacy_pos : 1 ≤ nRepeatLegacy
  nRepeatLegacy_le : nRepeatLegacy ≤ 255
  tlStart_pos : 0 < tlStart
  tlFull_pos : 0 < tlFull
  tlHalf_pos : 0 < tlHalf
  switch_ne_legacy : kindSwitch ≠ kindSwitchLegacy
  switch_ne_ready : kindSwitch ≠ kindReady
  switch_ne_err : kindSwitch ≠ kindErrUnknown
  legacy_ne_ready : kindSwitchLegacy ≠ kindReady
  legacy_ne_err : kindSwitchLegacy ≠ kindErrUnknown
  ready_ne_err : kindReady ≠ kindErrUnknown
  switch_ne_77 : kindSwitch ≠ 0x77#8
  legacy_ne_77 : kindSwitchLegacy ≠ 0x77#8
  ready_ne_77 : kindReady ≠ 0x77#8
  err_ne_77 : kindErrUnknown ≠ 0x77#8
  deriving DecidableEq, Repr

/-- `CMP_INERT`, the inert value of a compare register: `2^W - 1` (R7, D7). -/
def Config.inert (c : Config) : Nat := 2 ^ c.w - 1

/-- FREE VALUE: one less than `TL_START` at reset; the spec gives no default (R162, D21). -/
opaque Config.freeTlStart : Nat

/-- FREE VALUE: one less than `TL_FULL` at reset (R162, D21). -/
opaque Config.freeTlFull : Nat

/-- FREE VALUE: one less than `TL_HALF` at reset (R162, D21). -/
opaque Config.freeTlHalf : Nat

/-- FREE VALUE: `HOST_RETRY_DELAY` at reset; the spec gives no default (R202, D34). -/
opaque Config.freeHostRetryDelay : Nat

/-- FREE VALUE: the `n`-th choice that no `agenda` fixes: an agent ("Any enabled step may be next", R224) or a move of the
timer's other owner, who "is free to do anything else with the timer" while it is not borrowed (R248; log 8). -/
opaque Config.schedule : Nat → Move

/-- FREE VALUE: what the transport does at the `n`-th service point that no `xport` entry fixes (R200, U9). -/
opaque Config.transport : Nat → List TransportAction

/-- The spec's default instantiation (R7). PRESUMED where the spec itself says "from general knowledge" (the kinds, the
tag, the sentinel, the pin levels); a DESIGN CHOICE of the model to put it into the reset state. -/
def Config.default : Config where
  w := 8
  tStart := 250
  tFull := 150
  tHalf := 60
  tickNs := 2000
  cfgTctl := 0x81#8
  pinInit := true
  pinRest := false
  nRepeat := 128
  nRepeatLegacy := 180
  hwTimerAvailable := true
  reportTag := 0x4C#8
  kindSwitch := 0x01#8
  kindSwitchLegacy := 0x02#8
  kindReady := 0x10#8
  kindErrUnknown := 0x81#8
  rdyRid := 0xABCD#16
  rdyKey := 0xEF#8
  tlStart := Config.freeTlStart + 1
  tlFull := Config.freeTlFull + 1
  tlHalf := Config.freeTlHalf + 1
  hostRetryDelay := Config.freeHostRetryDelay
  two_le_w := by decide
  tStart_pos := by decide
  tStart_lt_inert := by decide
  tFull_lt_inert := by decide
  tHalf_pos := by decide
  tHalf_lt_tFull := by decide
  tBit_lt_inert := by decide
  tickNs_pos := by decide
  cfgTctl_ctc := by decide
  cfgTctl_cs := by decide
  pinInit_ne_pinRest := by decide
  nRepeat_pos := by decide
  nRepeat_le := by decide
  nRepeatLegacy_pos := by decide
  nRepeatLegacy_le := by decide
  tlStart_pos := Nat.succ_pos _
  tlFull_pos := Nat.succ_pos _
  tlHalf_pos := Nat.succ_pos _
  switch_ne_legacy := by decide
  switch_ne_ready := by decide
  switch_ne_err := by decide
  legacy_ne_ready := by decide
  legacy_ne_err := by decide
  ready_ne_err := by decide
  switch_ne_77 := by decide
  legacy_ne_77 := by decide
  ready_ne_77 := by decide
  err_ne_77 := by decide

end Sys2Proof
end

