-- ==== Sys2Proof/WellFormed.lean ====
section
/-! DEFINITION. Which terms of `Instr` are instructions under given parameters. The only syntactic condition of the
spec: `UNKNOWN` is the row of the kinds that are no switch kind (R91). Every other operand may have any value
(R88, R89, R99, R200). -/

namespace Sys2Proof

/-- A kind byte the device decodes as `UNKNOWN` (R91): neither of the two switch kinds. -/
def Config.isUnknownKind (c : Config) (kind : Byte) : Bool :=
  kind != c.kindSwitch && kind != c.kindSwitchLegacy

/-- The instruction can be met under the parameters `c`. -/
def Instr.wellFormed (c : Config) : Instr → Bool
  | .switch _ _ _ _ => true
  | .switchLegacy _ _ _ _ => true
  | .unknown _ kind _ _ _ => c.isUnknownKind kind
  | .ready => true
  | .errUnknown _ _ _ _ => true
  | .sym1 => true
  | .sym0 => true
  | .txw _ _ => true
  | .encode _ _ => true
  | .tick => true
  | .arm => true
  | .isrP => true
  | .isrS => true
  | .stop => true
  | .transmit _ _ _ _ => true
  | .acquire => true
  | .transmitHw _ _ _ => true
  | .poll _ => true
  | .release => true
  | .transmitLegacy _ _ => true
  | .qWrite _ _ => true
  | .qRead _ => true
  | .mainLoop => true
  | .dispatch => true
  | .bootReady => true
  | .xportService => true
  | .hostVerify _ _ => true
  | .irqEntry => true

end Sys2Proof
end

