-- ==== Sys2Proof/Decode.lean ====
section
/-! DEFINITION. The bytes of a record (R65, R85), the transmit word (R93, R110), the decoders and the encoder.

There are three places where an encoding is read, each with its own decoder, total on any bits:
the fetched command record, of which only `kind` is read (R91); the engine's opcode, `BUF[0]` at a primary event (R95);
and a record the device emits (R92), which no command decoder reads. The `TXW` row is a data format (R93). -/

namespace Sys2Proof

/-! ## The bytes of a record -/

/-- The 64-bit view of a record (R85): `tag` in bits 7:0, `kind` 15:8, `rid` 31:16, `key` 39:32, `pad` 63:40. -/
def Record.toWord (r : Record) : RecordWord := r.pad ++ r.key ++ r.rid ++ r.kind ++ r.tag

/-- The record of 64 bits (R85); `rid` takes its low byte from offset 2 and its high byte from offset 3 (R65, R88). -/
def Record.ofWord (w : RecordWord) : Record where
  tag := w.extractLsb' 0 8
  kind := w.extractLsb' 8 8
  rid := w.extractLsb' 16 16
  key := w.extractLsb' 32 8
  pad := w.extractLsb' 40 24

/-- The byte at offset `k` of a record, `k` in 0..7 (R85). -/
def Record.byte (r : Record) (k : Nat) : Byte := r.toWord.extractLsb' (8 * k) 8

/-- The record of the 8 bytes `b 0` to `b 7`, offset 0 first (R12, R85). -/
def Record.ofBytes (b : Nat → Byte) : Record :=
  Record.ofWord (b 7 ++ b 6 ++ b 5 ++ b 4 ++ b 3 ++ b 2 ++ b 1 ++ b 0)

/-! ## The transmit word -/

/-- 24-bit reversal (R10): bit `i` of the result is bit `23 - i` of `v`. -/
def rev24 (v : TxWord) : TxWord := v.reverse

/-- The word before reversal (R110): `rid` in bits 23:8, the key in bits 7:1, the terminator 1 in bit 0. -/
def preWord (rid : RemoteId) (key : BitVec 7) : TxWord := rid ++ key ++ 1#1

/-- The transmit word of `rid` and the 7 significant key bits (R93): `rev24(rid ‖ key ‖ 1)`. -/
def txWord (rid : RemoteId) (key : BitVec 7) : TxWord := rev24 (preWord rid key)

/-- The significant key bits `key[6:0]` (R89, R111: `key[7]` does not reach the output). -/
def keyBits (key : Byte) : BitVec 7 := key.extractLsb' 0 7

/-! ## Records the device makes -/

/-- The ready record (R195): `REPORT_TAG`, `KIND_READY`, the sentinel, `pad` zero. -/
def Config.readyRecord (c : Config) : Record := ⟨c.reportTag, c.kindReady, c.rdyRid, c.rdyKey, 0#24⟩

/-! ## The decoders -/

/-- The command decoder (R91): reads only `kind`, total on any 8 bytes. -/
def decodeCommand (c : Config) (r : Record) : Instr :=
  if r.kind = c.kindSwitch then .switch r.tag r.rid r.key r.pad
  else if r.kind = c.kindSwitchLegacy then .switchLegacy r.tag r.rid r.key r.pad
  else .unknown r.tag r.kind r.rid r.key r.pad

/-- The engine's decoder (R95): bit 0 of the buffer selects the symbol. -/
def decodeSymbol (b : TxWord) : Instr := if b.getLsbD 0 then .sym1 else .sym0

/-- The reading of a word as a `TXW` (R93): none where bit 23 is not the terminator 1. -/
def decodeTxWord (w : TxWord) : Option Instr :=
  if w.getLsbD 23 then
    some (.txw ((rev24 w).extractLsb' 8 16) ((rev24 w).extractLsb' 1 7))
  else none

/-- The reading of a record as one the device originates (R92): the ready record, or a record of kind
`KIND_ERR_UNKNOWN`; none for every other record (an echo is the command it echoes). -/
def decodeEmitted (c : Config) (r : Record) : Option Instr :=
  if r = c.readyRecord then some .ready
  else if r.kind = c.kindErrUnknown then some (.errUnknown r.tag r.rid r.key r.pad)
  else none

/-! ## The encoder -/

/-- The bits of an encoded instruction: a 64-bit record, or a 24-bit buffer or transmit word. -/
inductive Encoded where
  | record (w : RecordWord)
  | symbol (b : TxWord)
  | word (w : TxWord)
  deriving DecidableEq, Repr

/-- The bits of an instruction under the parameters `c`, from the rows' formats (R85, R91, R93, R95): none for the
named operations, which have no encoding. A symbol fixes bit 0 only; the bits above it are written 0. -/
def encode (c : Config) : Instr → Option Encoded
  | .switch tag rid key pad => some (.record (Record.mk tag c.kindSwitch rid key pad).toWord)
  | .switchLegacy tag rid key pad => some (.record (Record.mk tag c.kindSwitchLegacy rid key pad).toWord)
  | .unknown tag kind rid key pad => some (.record (Record.mk tag kind rid key pad).toWord)
  | .ready => some (.record c.readyRecord.toWord)
  | .errUnknown tag rid key pad => some (.record (Record.mk tag c.kindErrUnknown rid key pad).toWord)
  | .sym1 => some (.symbol 1#24)
  | .sym0 => some (.symbol 0#24)
  | .txw rid key => some (.word (txWord rid key))
  | .encode _ _ => none
  | .tick => none
  | .arm => none
  | .isrP => none
  | .isrS => none
  | .stop => none
  | .transmit _ _ _ _ => none
  | .acquire => none
  | .transmitHw _ _ _ => none
  | .poll _ => none
  | .release => none
  | .transmitLegacy _ _ => none
  | .qWrite _ _ => none
  | .qRead _ => none
  | .mainLoop => none
  | .dispatch => none
  | .bootReady => none
  | .xportService => none
  | .hostVerify _ _ => none
  | .irqEntry => none

/-! ## Formats -/

/-- The format column of the opcode table. -/
inductive Format where
  | record
  | symbol
  | word
  | operation
  deriving DecidableEq, Repr

/-- The format of the encoded bits. -/
def Encoded.format : Encoded → Format
  | .record _ => .record
  | .symbol _ => .symbol
  | .word _ => .word

/-! ## Table words -/

/-- What the bits of a table row are read as. Rows of format REC are 64-bit records, a row given 9 to 16 or 25 to 64
bits being one with zeros above; rows of format BUF and TXW are 24-bit words, a row given 1 to 8 or 17 to 24 bits being
one with zeros above. None for a number of bits no row has or for bits above `nbits`. -/
def tableWord (nbits w : Nat) : Option (Record ⊕ TxWord) :=
  if nbits = 0 ∨ 64 < nbits ∨ 2 ^ nbits ≤ w then none
  else if nbits ≤ 8 ∨ (16 < nbits ∧ nbits ≤ 24) then some (.inr (BitVec.ofNat 24 w))
  else some (.inl (Record.ofWord (BitVec.ofNat 64 w)))

/-- The row of a record of the table: a record the device emits is its own row (`READY`, `ERR_UNKNOWN`), every other
record is a command (R91, R92). -/
def decodeTableRecord (c : Config) (r : Record) : Instr := (decodeEmitted c r).getD (decodeCommand c r)

/-- The row of a 24-bit word of the table: a word with the terminator in bit 23 is a whole `TXW`, every other word is
a symbol by its bit 0. -/
def decodeTableBuffer (b : TxWord) : Instr := (decodeTxWord b).getD (decodeSymbol b)

/-- The instruction the decoder reads from a table row's bits, under the default parameters (the table's own). -/
def decodeTableWord (nbits w : Nat) : Option Instr :=
  match tableWord nbits w with
  | none => none
  | some (.inl r) => some (decodeTableRecord Config.default r)
  | some (.inr b) => some (decodeTableBuffer b)

end Sys2Proof
end

