-- ==== Sys2Proof/Machine/State.lean ====
section
/-! DEFINITION. The state of the block (spec/10_state.md), as plain data; the reasons a step can stop; the state after
reset (spec/70_reset_and_hazards.md R245). Fields that are the model's own, not the spec's, say so. -/

namespace Sys2Proof.Machine

open Sys2Proof

/-! ## Faults and refusals -/

/-- The faults. There are none: "No operation of this hardware raises a synchronous exception, traps, or aborts" (R210).
Nothing raises one, so the type has no constructor; safe. -/
inductive Fault
  deriving DecidableEq, Repr

/-- The refusals. -/
inductive Refusal where
  /-- Raised by `exec` only, for an instruction that has no meaning yet; safe. -/
  | notModelled (mnemonic : String)
  /-- Raised by `ownerWrite`: the timer's other owner writes the timer while `OWN = 1`, a move premise
  `IDLE_NO_ENGINE_IRQ` does not give it (R248, X5: "refuse"). No instruction raises it; safe. -/
  | ownerWroteBorrowedTimer
  /-- Raised by `ownerWrite`: the timer's other owner enables an engine interrupt while `OWN = 0`, a move premise
  `IDLE_NO_ENGINE_IRQ` does not give it (R248, X6: "refuse"). No instruction raises it; safe. -/
  | ownerEnabledEngineIrq
  deriving DecidableEq, Repr

/-! ## The parts of the state -/

/-- `ES` (R22). -/
inductive EngineState where
  | idle
  | running
  | stopped
  deriving DecidableEq, Repr

/-- `PH` (R26). -/
inductive Phase where
  | idle
  | acq
  | arm
  | wait
  | stop
  | rel
  | legacy
  deriving DecidableEq, Repr

/-- `SNAP` (R30, R102), in order; the compare values are below `2^W`. -/
structure Snapshot where
  tctl : Byte
  tien : Byte
  cmpa : Nat
  cmpb : Nat
  cmpc : Nat
  deriving DecidableEq, Repr

/-- A queue store (R60): pairs of an offset `8 * slot + k` and the byte there, in one canonical form (`Memory.wf`). -/
abbrev Memory := List Host.Cell

/-- What an unlisted byte of a queue store reads as. DESIGN CHOICE (log 6): the spec leaves the reset contents
unspecified (R38) and lets no rule read them (R181). -/
def Memory.unlisted : Byte := 0#8

/-- Bytes in one queue store: 16 slots of 8 bytes (R60). -/
def Memory.size : Nat := 128

/-- The canonical form: offsets strictly rising and inside the store, no entry equal to what an unlisted byte reads as. -/
abbrev Memory.wf (m : Memory) : Prop :=
  m.Pairwise (fun a b => a.1 < b.1) ∧ ∀ c ∈ m, c.1 < Memory.size ∧ c.2 ≠ Memory.unlisted

/-- One queue (R175): its store and its two indices. -/
structure Queue where
  mem  : Memory
  head : SlotIndex
  tail : SlotIndex
  deriving DecidableEq, Repr

/-- A primitive statement of MAIN's pseudocode that is no named operation (R150, R152, R158, R160, R192, R197). -/
inductive Prim where
  /-- `PH <- p` -/
  | phase (p : Phase)
  /-- `REP <- 0` -/
  | repZero
  /-- `REP <- REP + 1` -/
  | repInc
  /-- `while REP < N_REPEAT do ...; PH <- PH_REL; RELEASE` of R152, at its test -/
  | hwLoop (idle : Bool)
  /-- the critical section of R158 -/
  | releaseRegs
  /-- `while REP < N_REPEAT_LEGACY do ...; PIN <- PIN_REST` of R160, at its test -/
  | legacyLoop (rid : RemoteId) (key : Byte)
  /-- `PIN <- PIN_INIT` -/
  | driveInit
  /-- `PIN <- PIN_REST` -/
  | driveRest
  /-- `PIN <- not PIN` -/
  | invert
  /-- `delay(ns)` -/
  | delay (ns : Nat)
  /-- `ok <- Q_WRITE(OQ, CUR)` of R192 and R193 -/
  | reply
  /-- `m <- Q_READ(IQ)` of R197, with the test of `m` -/
  | fetch
  /-- `CUR <- r` of R197 -/
  | latch (r : Record)
  /-- `RDY_SENT <- 1` of R195 -/
  | readySent
  /-- the head of `loop forever` of R197 -/
  | loop
  deriving DecidableEq, Repr

/-- One item of MAIN's continuation: a named operation to run, or a primitive statement. -/
inductive Task where
  | op (i : Instr)
  | prim (p : Prim)
  deriving DecidableEq, Repr

/-- The result an operation returns (R110, R176, R177, R201). -/
inductive Result where
  | none
  | word (w : TxWord)
  | stored (ok : Bool)
  | taken (r : Option Record)
  | accepted (ok : Bool)
  deriving DecidableEq, Repr

/-- A closed segment of the pin trace (R13): its level, the timer ticks in it, and the nanoseconds of busy-wait in it. -/
structure Segment where
  level : Bool
  ticks : Nat
  ns    : Nat
  deriving DecidableEq, Repr

/-- The observables beside the pin trace (R13). -/
inductive Obs where
  /-- the boolean result of a `Q_WRITE` -/
  | wrote (q : QueueId) (ok : Bool)
  /-- a record the transport read from the outbound queue -/
  | served (r : Record)
  deriving DecidableEq, Repr

/-- The state of the machine. -/
structure State where
  /-- the parameters (R7): the model's field, written by no step (log 1) -/
  cfg : Config
  /-- `BUF` (R20) -/
  buf : TxWord
  /-- `PIN` (R21) -/
  pin : Bool
  /-- `ES` (R22) -/
  es : EngineState
  /-- `OWN` (R23) -/
  own : Bool
  /-- `ENCW` (R24) -/
  encw : TxWord
  /-- `REP` (R25) -/
  rep : BitVec 8
  /-- `PH` (R26) -/
  ph : Phase
  /-- `HWSEL` (R27) -/
  hwsel : Bool
  /-- `CUR` (R28) -/
  cur : Record
  /-- `RDY_SENT` (R29) -/
  rdySent : Bool
  /-- `SNAP` (R30) -/
  snap : Snapshot
  /-- `CNT` (R31), below `2^W` -/
  cnt : Nat
  /-- `TCTL` (R32) -/
  tctl : Byte
  /-- `TIEN` (R33) -/
  tien : Byte
  /-- `TIFR` (R34) -/
  tifr : Byte
  /-- `CMPA` (R35), below `2^W` -/
  cmpa : Nat
  /-- `CMPB` (R35), below `2^W` -/
  cmpb : Nat
  /-- `CMPC` (R35), below `2^W` -/
  cmpc : Nat
  /-- `GIE` (R36) -/
  gie : Bool
  /-- `INH` (R37) -/
  inh : Bool
  /-- `IQ` (R38, R39) -/
  iq : Queue
  /-- `OQ` (R38, R39) -/
  oq : Queue
  /-- the model's: MAIN's continuation, the next statement first (log 11) -/
  todo : List Task
  /-- the model's: the choices of the schedule fixed in advance, the next first (log 8) -/
  agenda : List Move
  /-- the model's: how many choices were taken from `Config.schedule` (log 8) -/
  drawn : Nat
  /-- the model's: the transport's actions at the next service points, as far as fixed in advance (log 10) -/
  xport : List (List TransportAction)
  /-- the model's: how many service points took their actions from `Config.transport` (log 10) -/
  served : Nat
  /-- the model's: the last result returned (log 15) -/
  ret : Result
  /-- the model's: the closed segments of the pin trace, newest first (R13, log 16) -/
  trace : List Segment
  /-- the model's: the timer ticks in the present segment, whose level is `pin` (log 16) -/
  segTicks : Nat
  /-- the model's: the nanoseconds of busy-wait in the present segment (log 16) -/
  segNs : Nat
  /-- the model's: the other observables of R13, newest first (log 15) -/
  obs : List Obs
  deriving DecidableEq, Repr

/-! ## Reset -/

/-- A queue at reset: empty, its store unspecified (R245). -/
def Queue.reset : Queue := ⟨[], 0#4, 0#4⟩

/-- The state from which `MAIN_LOOP` starts (R245, R247). The elements R245 lists as unspecified hold the values logs 4
to 6 name (DESIGN CHOICE); the parameters are the spec's defaults (logs 1 to 3). -/
def State.reset : State where
  cfg := Config.default
  buf := 0#24
  pin := Config.default.pinRest
  es := .idle
  own := false
  encw := 0#24
  rep := 0#8
  ph := .idle
  hwsel := false
  cur := ⟨0#8, 0#8, 0#16, 0#8, 0#24⟩
  rdySent := false
  snap := ⟨0#8, 0#8, 0, 0, 0⟩
  cnt := 0
  tctl := 0#8
  tien := 0#8
  tifr := 0#8
  cmpa := 0
  cmpb := 0
  cmpc := 0
  gie := true
  inh := false
  iq := Queue.reset
  oq := Queue.reset
  todo := [.op .mainLoop]
  agenda := []
  drawn := 0
  xport := []
  served := 0
  ret := .none
  trace := []
  segTicks := 0
  segNs := 0
  obs := []

end Sys2Proof.Machine
end

