-- ==== Sys2Proof/Machine/Flags.lean ====
section
/-! DEFINITION. The flags and the derived conditions (R40): the fields of `TCTL`, `TIEN`, `TIFR` (R32 to R34), the queue
conditions, `done`, and when an interrupt entry is enabled (R221). -/

namespace Sys2Proof.Machine

open Sys2Proof

/-! ## Fields of the timer's control registers -/

/-- `TCTL.CS` (R32): the clock select; 0 stops the counter. -/
def clockSelect (tctl : Byte) : BitVec 4 := tctl.extractLsb' 0 4

/-- `TCTL.CS != 0`: the counter is clocked (R32, R120). -/
def State.clocked (s : State) : Bool := clockSelect s.tctl != 0#4

/-- `TCTL.CTC` (R32): a match with `CMPA` clears the counter. -/
def State.ctc (s : State) : Bool := s.tctl.getLsbD 7

/-- `TIEN.IEA` (R33). -/
def State.iea (s : State) : Bool := s.tien.getLsbD 0

/-- `TIEN.IEB` (R33). -/
def State.ieb (s : State) : Bool := s.tien.getLsbD 1

/-- `TIFR.IFA` (R34). -/
def State.ifa (s : State) : Bool := s.tifr.getLsbD 0

/-- `TIFR.IFB` (R34). -/
def State.ifb (s : State) : Bool := s.tifr.getLsbD 1

/-- Neither engine interrupt is enabled in a `TIEN` (R33, R248). -/
def enginesOff (tien : Byte) : Bool := !tien.getLsbD 0 && !tien.getLsbD 1

/-- `TIFR` after a tick in which the counter did or did not reach `CMPA` and `CMPB` (R120): a flag is set, never
cleared; the other bits stay. -/
def setFlags (tifr : Byte) (a b : Bool) : Byte :=
  tifr ||| (if a then 0x01#8 else 0#8) ||| (if b then 0x02#8 else 0#8)

/-- `TIFR.IFA <- 0` (R34). -/
def clearIfa (tifr : Byte) : Byte := tifr &&& 0xFE#8

/-- `TIFR.IFB <- 0` (R34). -/
def clearIfb (tifr : Byte) : Byte := tifr &&& 0xFD#8

/-- `TIFR.IFA <- 0 ; TIFR.IFB <- 0` (R123, R126, R158); a plain clear (R73). -/
def clearFlags (tifr : Byte) : Byte := clearIfb (clearIfa tifr)

/-! ## Queue conditions -/

/-- `empty(Q)` (R40): the indices are equal. -/
def Queue.empty (q : Queue) : Bool := q.head == q.tail

/-- `full(Q)` (R40): advancing `HEAD` would meet `TAIL`. -/
def Queue.full (q : Queue) : Bool := q.head + 1#4 == q.tail

/-! ## The engine's end condition and the interrupt -/

/-- `done` (R40): the buffer is zero. -/
def State.done (s : State) : Bool := s.buf == 0#24

/-- The primary source is pending and enabled (R220). -/
def State.primaryReady (s : State) : Bool := s.ifa && s.iea

/-- The secondary source is pending and enabled (R220). -/
def State.secondaryReady (s : State) : Bool := s.ifb && s.ieb

/-- An interrupt entry is enabled (R221). -/
def State.irqEnabled (s : State) : Bool := s.gie && !s.inh && (s.primaryReady || s.secondaryReady)

end Sys2Proof.Machine
end

