-- ==== Sys2Proof/Machine/Operands.lean ====
section
/-! DEFINITION. The operand forms: the on-wire bits of a command, the records the device builds, the statements of one
legacy frame, and the statements a transport action stands for. -/

namespace Sys2Proof.Machine

open Sys2Proof

/-- The `k`-th bit in on-wire order, `k` in 1..23 (R160, R161): `rid[15]` to `rid[0]`, then `key[6]` to `key[0]`. -/
def wireBit (rid : RemoteId) (key : Byte) (k : Nat) : Bool :=
  if k ≤ 16 then rid.getLsbD (16 - k) else key.getLsbD (23 - k)

/-- The 23 significant bits in on-wire order (R66, R96). -/
def wireBits (rid : RemoteId) (key : Byte) : List Bool := (List.range 23).map fun j => wireBit rid key (j + 1)

/-- A record in the notation `{kind, rid, key}` (R12, R101: `RAW kind, rid, key`): `tag = REPORT_TAG`, `pad = 0`. -/
def rawRecord (c : Config) (kind : Byte) (rid : RemoteId) (key : Byte) : Record := ⟨c.reportTag, kind, rid, key, 0#24⟩

/-- The error-marked copy of a record (R194): the kind replaced, every other byte as it was. -/
def errorCopy (c : Config) (r : Record) : Record := { r with kind := c.kindErrUnknown }

/-- The statements of one bit of a legacy frame (R160). DESIGN CHOICE (log 12): `b <- ...` and `if b == 1` are no steps of
MAIN. -/
def legacyBitTasks (c : Config) (b : Bool) : List Task :=
  if b then [.prim .invert, .prim (.delay c.tlFull)]
  else [.prim .invert, .prim (.delay c.tlHalf), .prim .invert, .prim (.delay c.tlHalf)]

/-- The statements of one legacy frame up to `REP <- REP + 1` (R160). DESIGN CHOICE (log 12): the tests of `for k in 1..23`
are no steps of MAIN, and the test of `while` lays out the statements of all 23 bits. -/
def legacyFrameTasks (c : Config) (rid : RemoteId) (key : Byte) : List Task :=
  [.prim .driveInit, .prim (.delay c.tlStart)]
    ++ (wireBits rid key).flatMap (legacyBitTasks c)
    ++ [.prim .repInc]

/-- The statements of one hardware-timed frame (R152), back to the loop's test. -/
def hwFrameTasks (idle : Bool) : List Task :=
  [.prim (.phase .arm), .op .arm, .prim .repInc, .prim (.phase .wait), .op (.poll idle),
   .prim (.phase .stop), .op .stop, .prim (.hwLoop idle)]

/-- The queue operation of a transport action (R200). -/
def TransportAction.task : TransportAction → Task
  | .enqueue r => .op (.qWrite .iq r)
  | .serve => .op (.qRead .oq)

end Sys2Proof.Machine
end

