-- ==== Sys2Proof/Machine/Ops.lean ====
section
/-! DEFINITION. The named operations the meanings are written over: bytes and slots of the queue stores, the queues, the
pin, the critical section, MAIN's continuation, the engine's symbol, and taking and leaving the interrupt. -/

namespace Sys2Proof.Machine

open Sys2Proof

/-! ## Bytes of a queue store -/

/-- The byte at an offset of a store. -/
def Memory.read : Memory → Nat → Byte
  | [], _ => Memory.unlisted
  | (k, v) :: rest, a => if k = a then v else Memory.read rest a

/-- A store with the byte at one offset replaced, in canonical form. -/
def Memory.write : Memory → Nat → Byte → Memory
  | [], a, b => if b = Memory.unlisted then [] else [(a, b)]
  | (k, v) :: rest, a, b =>
    if a < k then (if b = Memory.unlisted then (k, v) :: rest else (a, b) :: (k, v) :: rest)
    else if a = k then (if b = Memory.unlisted then rest else (a, b) :: rest)
    else (k, v) :: Memory.write rest a b

/-- The offset of byte `k` of a slot (log 25). -/
def slotOffset (slot : SlotIndex) (k : Nat) : Nat := 8 * slot.toNat + k

/-- `MemRead(Q, s)` on the queue's store (R61). -/
def memRead (m : Memory) (slot : SlotIndex) : Record := Record.ofBytes fun k => m.read (slotOffset slot k)

/-- `MemWrite(Q, s, r)` on the queue's store (R62): all 8 bytes, offsets 0 to 7. -/
def memWrite (m : Memory) (slot : SlotIndex) (r : Record) : Memory :=
  (List.range 8).foldl (fun m k => m.write (slotOffset slot k) (r.byte k)) m

/-! ## Queues -/

/-- `Q_WRITE` (R176): the queue after it and its result. A full queue is left as it is. -/
def Queue.write (q : Queue) (r : Record) : Queue × Bool :=
  if q.full then (q, false) else ({ q with mem := memWrite q.mem q.head r, head := q.head + 1#4 }, true)

/-- `Q_READ` (R177): the queue after it and its result. The slot is not cleared. -/
def Queue.read (q : Queue) : Queue × Option Record :=
  if q.empty then (q, none) else ({ q with tail := q.tail + 1#4 }, some (memRead q.mem q.tail))

/-- One of the two queues. -/
def State.queue (s : State) : QueueId → Queue
  | .iq => s.iq
  | .oq => s.oq

/-- Replaces one of the two queues. -/
def State.setQueue (s : State) (q : QueueId) (v : Queue) : State :=
  { s with iq := (match q with | .iq => v | .oq => s.iq), oq := (match q with | .iq => s.oq | .oq => v) }

/-- `Q_WRITE(Q, r)` on the state: the queue, the result, and the result as an observable (R13, R176). -/
def enqueue (q : QueueId) (r : Record) (s : State) : State :=
  { s.setQueue q ((s.queue q).write r).1 with
    ret := .stored ((s.queue q).write r).2
    obs := .wrote q ((s.queue q).write r).2 :: s.obs }

/-- The observable of a `Q_READ` (R13): the records read from the outbound queue. -/
def readObs : QueueId → Option Record → List Obs
  | .oq, some r => [.served r]
  | .oq, none => []
  | .iq, _ => []

/-- `Q_READ(Q)` on the state (R177). -/
def dequeue (q : QueueId) (s : State) : State :=
  { s.setQueue q (s.queue q).read.1 with
    ret := .taken (s.queue q).read.2
    obs := readObs q (s.queue q).read.2 ++ s.obs }

/-! ## The pin -/

/-- `PIN <- l` (R13, R73): a change of level closes the present segment and starts one. -/
def drivePin (l : Bool) (s : State) : State :=
  { s with
    pin := l
    trace := if l = s.pin then s.trace else ⟨s.pin, s.segTicks, s.segNs⟩ :: s.trace
    segTicks := if l = s.pin then s.segTicks else 0
    segNs := if l = s.pin then s.segNs else 0 }

/-! ## The critical section, and MAIN's continuation -/

/-- `critical { body }` (R11): `GIE` is saved, cleared for the body, restored. -/
def critical (body : State → State) (s : State) : State :=
  { body { s with gie := false } with gie := s.gie }

/-- MAIN runs these statements next, then those it had still to run. -/
def State.push (s : State) (ts : List Task) : State := { s with todo := ts ++ s.todo }

/-! ## The engine -/

/-- The body of the primary handler on a buffer whose bit 0 is `b` (R124): (a) the pin is inverted, (b) the interval of
the symbol is programmed, (c) the buffer is shifted right by one. -/
def emitSymbol (b : Bool) (s : State) : State :=
  { drivePin (!s.pin) s with
    cmpa := if b then s.cfg.tFull else 2 * s.cfg.tHalf
    cmpb := if b then s.cfg.inert else s.cfg.tHalf
    buf := s.buf >>> 1 }

/-- The body of the primary handler (R124): the symbol is the one `BUF[0]` selects. -/
def primaryBody (s : State) : State := emitSymbol (s.buf.getLsbD 0) s

/-- The body of the secondary handler (R125). -/
def secondaryBody (s : State) : State := drivePin (!s.pin) s

/-! ## Taking and leaving the interrupt -/

/-- What every interrupt entry does first (R221): `GIE <- 0 ; INH <- 1`. Nothing else is saved: the handler uses no
state of MAIN. -/
def irqEnter (s : State) : State := { s with gie := false, inh := true }

/-- The return (R222): `INH <- 0 ; GIE <- 1`; MAIN goes on where it was. -/
def irqReturn (s : State) : State := { s with inh := false, gie := true }

/-- The entry that serves the primary source, up to its body (R221). -/
def enterPrimary (s : State) : State := { irqEnter s with tifr := clearIfa s.tifr }

/-- The entry that serves the secondary source, up to its body (R221). -/
def enterSecondary (s : State) : State := { irqEnter s with tifr := clearIfb s.tifr }

/-- One interrupt, entry to return, of a state where one is enabled (R221 to R223): the primary source first. -/
def serveIrq (s : State) : State :=
  if s.primaryReady then irqReturn (primaryBody (enterPrimary s))
  else irqReturn (secondaryBody (enterSecondary s))

/-! ## The timer -/

/-- The counter one up, modulo `2^W` (R120). -/
def State.nextCount (s : State) : Nat := (s.cnt + 1) % 2 ^ s.cfg.w

/-- `TICK` of a clocked timer (R120); the tick passes in the present segment of the pin trace (R13). -/
def countTick (s : State) : State :=
  { s with
    cnt := if s.nextCount = s.cmpa ∧ s.ctc = true then 0 else s.nextCount
    tifr := setFlags s.tifr (s.nextCount == s.cmpa) (s.nextCount == s.cmpb)
    segTicks := s.segTicks + 1 }

/-- A value as a `W`-bit register holds it. -/
def State.truncW (s : State) (v : Nat) : Nat := v % 2 ^ s.cfg.w

end Sys2Proof.Machine
end

