-- ==== Sys2Proof/Machine/CommandQueue.lean ====
section
/-! DEFINITION. The CommandQueue (spec/43_command_queue.md): `Q_WRITE`, `Q_READ`, each one atomic step (R71). -/

namespace Sys2Proof.Machine

open Sys2Proof

/-- `Q_WRITE(Q, r)` (R176): false iff the queue is full, and then nothing is written. -/
def execQWrite (q : QueueId) (r : Record) (s : State) : Host.Outcome State Fault Refusal := .next (enqueue q r s)

/-- `Q_READ(Q)` (R177): none iff the queue is empty, and then nothing changes. -/
def execQRead (q : QueueId) (s : State) : Host.Outcome State Fault Refusal := .next (dequeue q s)

end Sys2Proof.Machine
end

