-- ==== Sys2Proof/Machine/Encoder.lean ====
section
/-! DEFINITION. The ProtocolEncoder (spec/40_encoder.md): `ENCODE`, and the `TXW` data format. -/

namespace Sys2Proof.Machine

open Sys2Proof

/-- The encoder's result (R110): the transmit word of `rid` and `key[6:0]`; `key[7]` is discarded (R111). -/
def encodeWord (rid : RemoteId) (key : Byte) : TxWord := txWord rid (keyBits key)

/-- `ENCODE(rid, key)` (R110): returns the word; "State written: none". -/
def execEncode (rid : RemoteId) (key : Byte) (s : State) : Host.Outcome State Fault Refusal :=
  .next { s with ret := .word (encodeWord rid key) }

/-- `TXW` (R93), "data format, not an instruction": the word is latched where the spec holds the encoder's output until
`ARM` loads it, in `ENCW` (R24). DESIGN CHOICE (log 18). -/
def execTxw (rid : RemoteId) (key : BitVec 7) (s : State) : Host.Outcome State Fault Refusal :=
  .next { s with encw := txWord rid key }

end Sys2Proof.Machine
end

