-- ==== Sys2Proof/Machine/Controller.lean ====
section
/-! DEFINITION. The TransmissionController (spec/42_transmission_controller.md): `TRANSMIT`, `ACQUIRE`, `TRANSMIT_HW`,
`POLL`, `RELEASE`, `TRANSMIT_LEGACY`, and the primitive statements of their pseudocode.

An operation of several statements runs its first one and leaves the rest on MAIN's continuation, so that ticks and
interrupts may fall between any two of them (R224; log 11). -/

namespace Sys2Proof.Machine

open Sys2Proof

/-- `TRANSMIT` (R150): latches the argument and takes the hardware path iff it is asked for and available. -/
def execTransmit (rid : RemoteId) (key : Byte) (useHw idle : Bool) (s : State) : Host.Outcome State Fault Refusal :=
  .next
    ({ s with hwsel := useHw }.push
      [.op (if useHw && s.cfg.hwTimerAvailable then .transmitHw rid key idle else .transmitLegacy rid key),
       .prim (.phase .idle)])

/-- The five snapshot registers as they stand (R30). -/
def State.timerRegs (s : State) : Snapshot := ⟨s.tctl, s.tien, s.cmpa, s.cmpb, s.cmpc⟩

/-- The writes of `ACQUIRE`'s critical section (R151). -/
def acquireBody (s : State) : State := { s with snap := s.timerRegs, own := true }

/-- `ACQUIRE` (R151). -/
def execAcquire (s : State) : Host.Outcome State Fault Refusal := .next (critical acquireBody s)

/-- `TRANSMIT_HW` (R152): `ENCW <- ENCODE(rid, key)`, then the timer is acquired, `REP` cleared and the loop entered. -/
def execTransmitHw (rid : RemoteId) (key : Byte) (idle : Bool) (s : State) : Host.Outcome State Fault Refusal :=
  .next
    ({ s with encw := encodeWord rid key }.push
      [.prim (.phase .acq), .op .acquire, .prim .repZero, .prim (.hwLoop idle)])

/-- The test of `while REP < N_REPEAT` (R152): another frame, or `PH <- PH_REL ; RELEASE`. -/
def hwLoopStep (idle : Bool) (s : State) : State :=
  if s.rep.toNat < s.cfg.nRepeat then s.push (hwFrameTasks idle)
  else s.push [.prim (.phase .rel), .op .release]

/-- What follows a read of `BUF` that is not zero (R153): the callback if there is one, then the next read. -/
def pollAgain (idle : Bool) : List Task :=
  (if idle then [.op .xportService] else []) ++ [.op (.poll idle)]

/-- `POLL` (R153): one atomic read of `BUF` and its test. -/
def execPoll (idle : Bool) (s : State) : Host.Outcome State Fault Refusal :=
  .next (if s.done then s else s.push (pollAgain idle))

/-- The writes of `RELEASE`'s critical section (R158). -/
def releaseBody (s : State) : State :=
  { s with
    tctl := s.snap.tctl
    tien := s.snap.tien
    tifr := clearFlags s.tifr
    cmpa := s.snap.cmpa
    cmpb := s.snap.cmpb
    cmpc := s.snap.cmpc
    own := false
    es := .idle }

/-- `RELEASE` (R158): `PIN <- PIN_REST`; then the critical section. -/
def execRelease (s : State) : Host.Outcome State Fault Refusal :=
  .next ((drivePin s.cfg.pinRest s).push [.prim .releaseRegs])

/-- `TRANSMIT_LEGACY` (R160): `PH <- PH_LEGACY`, then `REP <- 0`, then the loop. -/
def execTransmitLegacy (rid : RemoteId) (key : Byte) (s : State) : Host.Outcome State Fault Refusal :=
  .next ({ s with ph := .legacy }.push [.prim .repZero, .prim (.legacyLoop rid key)])

/-- The test of `while REP < N_REPEAT_LEGACY` (R160): another frame, or `PIN <- PIN_REST`. -/
def legacyLoopStep (rid : RemoteId) (key : Byte) (s : State) : State :=
  if s.rep.toNat < s.cfg.nRepeatLegacy then
    s.push (legacyFrameTasks s.cfg rid key ++ [.prim (.legacyLoop rid key)])
  else s.push [.prim .driveRest]

/-- `delay(ns)` (R160, R224): a busy wait that lets the time pass. -/
def delayStep (ns : Nat) (s : State) : State := { s with segNs := s.segNs + ns }

end Sys2Proof.Machine
end

