-- ==== Sys2Proof/Machine/Engine.lean ====
section
/-! DEFINITION. The PulseTimingEngine (spec/41_pulse_engine.md): `TICK`, `ARM`, `ISR_P`, `ISR_S`, `STOP`, and the two
symbols. -/

namespace Sys2Proof.Machine

open Sys2Proof

/-- `TICK` (R120): enabled iff `TCTL.CS != 0`; with the clock stopped `CNT` and the flags keep their values. -/
def execTick (s : State) : Host.Outcome State Fault Refusal := .next (if s.clocked then countTick s else s)

/-- The writes of `ARM`'s critical section (R123). -/
def armBody (s : State) : State :=
  { drivePin s.cfg.pinInit s with
    cnt := 0
    cmpa := s.cfg.tStart
    cmpb := s.cfg.inert
    cmpc := s.cfg.inert
    tifr := clearFlags s.tifr
    buf := s.encw
    tien := 0x03#8
    tctl := s.cfg.cfgTctl
    es := .running }

/-- `ARM` (R123). -/
def execArm (s : State) : Host.Outcome State Fault Refusal := .next (critical armBody s)

/-- `ISR_P` (R124): the body of the primary handler; `IFA` is cleared by the entry (R221). -/
def execIsrP (s : State) : Host.Outcome State Fault Refusal := .next (primaryBody s)

/-- `ISR_S` (R125): the body of the secondary handler; `IFB` is cleared by the entry (R221). -/
def execIsrS (s : State) : Host.Outcome State Fault Refusal := .next (secondaryBody s)

/-- `SYM1` (R95, R124): one long pulse; the primary handler's branch for `BUF[0] = 1`. -/
def execSym1 (s : State) : Host.Outcome State Fault Refusal := .next (emitSymbol true s)

/-- `SYM0` (R95, R124): two short pulses, the second made by `ISR_S`; the branch for `BUF[0] = 0`. -/
def execSym0 (s : State) : Host.Outcome State Fault Refusal := .next (emitSymbol false s)

/-- The writes of `STOP`'s critical section (R126). -/
def stopBody (s : State) : State :=
  { s with
    tien := 0x00#8
    cmpa := s.cfg.inert
    cmpb := s.cfg.inert
    cmpc := s.cfg.inert
    tifr := clearFlags s.tifr
    buf := 0#24
    es := .stopped }

/-- `STOP` (R126). -/
def execStop (s : State) : Host.Outcome State Fault Refusal := .next (critical stopBody s)

end Sys2Proof.Machine
end

