-- ==== Sys2Proof/Machine/Exchange.lean ====
section
/-! DEFINITION. The HostExchangeProtocol (spec/44_host_exchange.md): the command records, the records the device emits,
`DISPATCH`, `MAIN_LOOP`, `BOOT_READY`, the transport's service point and the host's duties. -/

namespace Sys2Proof.Machine

open Sys2Proof

/-! ## Command records -/

/-- `SWITCH` (R192): transmit on the hardware-timed path with the transport's service as the idle callback, then echo.
The record is the one latched in `CUR` (R28; log 17). DESIGN CHOICE (log 12): its start is a step of MAIN that runs
neither. -/
def execSwitch (tag : Byte) (rid : RemoteId) (key : Byte) (pad : BitVec 24) (s : State) :
    Host.Outcome State Fault Refusal :=
  .next ({ s with cur := ⟨tag, s.cfg.kindSwitch, rid, key, pad⟩ }.push
    [.op (.transmit rid key true true), .prim .reply])

/-- `SWITCH_LEGACY` (R193): transmit on the legacy path with no callback, then echo. Its start is a step as `SWITCH`'s is
(log 12). -/
def execSwitchLegacy (tag : Byte) (rid : RemoteId) (key : Byte) (pad : BitVec 24) (s : State) :
    Host.Outcome State Fault Refusal :=
  .next ({ s with cur := ⟨tag, s.cfg.kindSwitchLegacy, rid, key, pad⟩ }.push
    [.op (.transmit rid key false false), .prim .reply])

/-- `UNKNOWN` (R194): the error-marked copy of the record goes to `OQ`; nothing is transmitted. -/
def execUnknown (tag kind : Byte) (rid : RemoteId) (key : Byte) (pad : BitVec 24) (s : State) :
    Host.Outcome State Fault Refusal :=
  .next (enqueue .oq (errorCopy s.cfg ⟨tag, kind, rid, key, pad⟩) { s with cur := ⟨tag, kind, rid, key, pad⟩ })

/-! ## Records the device emits -/

/-- The ready record offered to `OQ` (R195); `RDY_SENT <- 1` is MAIN's next statement. -/
def offerReady (s : State) : State := (enqueue .oq s.cfg.readyRecord s).push [.prim .readySent]

/-- `READY` (R195): the device emits its ready record and marks it as sent (log 19). -/
def execReady (s : State) : Host.Outcome State Fault Refusal := .next (offerReady s)

/-- `ERR_UNKNOWN` (R194): the device emits an error-marked reply (log 19). -/
def execErrUnknown (tag : Byte) (rid : RemoteId) (key : Byte) (pad : BitVec 24) (s : State) :
    Host.Outcome State Fault Refusal :=
  .next (enqueue .oq ⟨tag, s.cfg.kindErrUnknown, rid, key, pad⟩ s)

/-- `BOOT_READY` (R195): the ready record once, whether or not it fits; the test is no step of its own (log 12). -/
def execBootReady (s : State) : Host.Outcome State Fault Refusal :=
  .next (if s.rdySent then s else offerReady s)

/-! ## The main loop -/

/-- `DISPATCH` (R191): only `CUR.kind` is decoded; the arm runs. -/
def execDispatch (s : State) : Host.Outcome State Fault Refusal :=
  if s.cur.kind = s.cfg.kindSwitch then execSwitch s.cur.tag s.cur.rid s.cur.key s.cur.pad s
  else if s.cur.kind = s.cfg.kindSwitchLegacy then execSwitchLegacy s.cur.tag s.cur.rid s.cur.key s.cur.pad s
  else execUnknown s.cur.tag s.cur.kind s.cur.rid s.cur.key s.cur.pad s

/-- `MAIN_LOOP` (R197, R247): `BOOT_READY` once, then the loop, which never returns. DESIGN CHOICE (log 12): entering it is
a step of MAIN that writes nothing of the spec's state and lays out these two. -/
def execMainLoop (s : State) : Host.Outcome State Fault Refusal := .next (s.push [.op .bootReady, .prim .loop])

/-- One round of `loop forever` (R197): service point 1, the fetch, the next round. -/
def loopStep (s : State) : State := s.push [.op .xportService, .prim .fetch, .prim .loop]

/-- `m <- Q_READ(IQ)` (R197), and, if there is a record, `CUR <- r` and `DISPATCH` as the next statements. -/
def fetchStep (s : State) : State :=
  match s.iq.read.2 with
  | none => dequeue .iq s
  | some r => (dequeue .iq s).push [.prim (.latch r), .op .dispatch]

/-- `ok <- Q_WRITE(OQ, CUR)` of R192 and R193; the result is discarded (R196). -/
def replyStep (s : State) : State := enqueue .oq s.cur s

/-! ## The transport -/

/-- What the transport does at this service point (R200, U9): the next `xport` entry, else a free value. -/
def State.serviceActions (s : State) : List TransportAction :=
  match s.xport with
  | acts :: _ => acts
  | [] => Config.transport s.served

/-- `XPORT_SERVICE` (R200): a finite, possibly empty sequence of `Q_WRITE(IQ, r)` and `Q_READ(OQ)`, each a step. -/
def execXportService (s : State) : Host.Outcome State Fault Refusal :=
  .next
    ({ s with
        xport := s.xport.tail
        served := if s.xport.isEmpty then s.served + 1 else s.served }.push
      (s.serviceActions.map TransportAction.task))

/-! ## The host's duties -/

/-- The host's comparison (R201): kind, rid and key; `tag` and `pad` are not compared. -/
def hostAccepts (sent reply : Record) : Bool :=
  reply.kind == sent.kind && reply.rid == sent.rid && reply.key == sent.key

/-- `HOST_VERIFY` (R201, R203): the verdict is the host's; it has no effect on the device. -/
def execHostVerify (sent reply : Record) (s : State) : Host.Outcome State Fault Refusal :=
  .next { s with ret := .accepted (hostAccepts sent reply) }

/-- How the host's operation ends: accepted, mismatch (fatal, surfaced to the caller, R203), or no reply was read. -/
inductive HostOutcome where
  | accepted
  | mismatch
  | gaveUp
  deriving DecidableEq, Repr

/-- The verdict on a reply that was read (R201, R203, R214). -/
def hostVerdict (sent reply : Record) : HostOutcome := if hostAccepts sent reply then .accepted else .mismatch

/-- The host's read with its one retry (R202): what the first read and, after the fixed delay, the second answered
(none: a transient read failure). The outcome and the delay it waited; it never sends the command again. -/
def hostExchange (c : Config) (sent : Record) (first second : Option Record) : HostOutcome × Nat :=
  match first with
  | some a => (hostVerdict sent a, 0)
  | none =>
    match second with
    | some a => (hostVerdict sent a, c.hostRetryDelay)
    | none => (.gaveUp, c.hostRetryDelay)

end Sys2Proof.Machine
end

