-- ==== Sys2Proof/Machine/Interrupt.lean ====
section
/-! DEFINITION. The interrupt (spec/60_exceptions.md R220 to R226): `IRQ_ENTRY`, one step from entry to return. -/

namespace Sys2Proof.Machine

open Sys2Proof

/-- `IRQ_ENTRY` (R221): where an entry is enabled, one source is served, entry to return; where none is, the handler
does not start and nothing changes (R36, R225: pending flags stay pending). -/
def execIrqEntry (s : State) : Host.Outcome State Fault Refusal := .next (if s.irqEnabled then serveIrq s else s)

end Sys2Proof.Machine
end

