-- ==== Sys2Proof/Machine/Dispatch.lean ====
section
/-! DEFINITION. The dispatch of an instruction to its meaning: one arm per constructor of `Instr`. -/

namespace Sys2Proof.Machine

open Sys2Proof

def exec (i : Instr) (s : State) : Host.Outcome State Fault Refusal :=
  match i with
  | .switch tag rid key pad => Sys2Proof.Machine.execSwitch tag rid key pad s
  | .switchLegacy tag rid key pad => Sys2Proof.Machine.execSwitchLegacy tag rid key pad s
  | .unknown tag kind rid key pad => Sys2Proof.Machine.execUnknown tag kind rid key pad s
  | .ready => Sys2Proof.Machine.execReady s
  | .errUnknown tag rid key pad => Sys2Proof.Machine.execErrUnknown tag rid key pad s
  | .sym1 => Sys2Proof.Machine.execSym1 s
  | .sym0 => Sys2Proof.Machine.execSym0 s
  | .txw rid key => Sys2Proof.Machine.execTxw rid key s
  | .encode rid key => Sys2Proof.Machine.execEncode rid key s
  | .tick => Sys2Proof.Machine.execTick s
  | .arm => Sys2Proof.Machine.execArm s
  | .isrP => Sys2Proof.Machine.execIsrP s
  | .isrS => Sys2Proof.Machine.execIsrS s
  | .stop => Sys2Proof.Machine.execStop s
  | .transmit rid key useHw idle => Sys2Proof.Machine.execTransmit rid key useHw idle s
  | .acquire => Sys2Proof.Machine.execAcquire s
  | .transmitHw rid key idle => Sys2Proof.Machine.execTransmitHw rid key idle s
  | .poll idle => Sys2Proof.Machine.execPoll idle s
  | .release => Sys2Proof.Machine.execRelease s
  | .transmitLegacy rid key => Sys2Proof.Machine.execTransmitLegacy rid key s
  | .qWrite q r => Sys2Proof.Machine.execQWrite q r s
  | .qRead q => Sys2Proof.Machine.execQRead q s
  | .mainLoop => Sys2Proof.Machine.execMainLoop s
  | .dispatch => Sys2Proof.Machine.execDispatch s
  | .bootReady => Sys2Proof.Machine.execBootReady s
  | .xportService => Sys2Proof.Machine.execXportService s
  | .hostVerify sent reply => Sys2Proof.Machine.execHostVerify sent reply s
  | .irqEntry => Sys2Proof.Machine.execIrqEntry s

end Sys2Proof.Machine
end

