-- ==== Sys2Proof/Machine/Main.lean ====
section
/-! DEFINITION. MAIN's primitive statements (R150, R152, R158, R160, R192, R197), each one step (R224), and the move of
the timer's other owner (R248). -/

namespace Sys2Proof.Machine

open Sys2Proof

/-- What a primitive statement of MAIN does. -/
def primStep (p : Prim) (s : State) : State :=
  match p with
  | .phase p => { s with ph := p }
  | .repZero => { s with rep := 0#8 }
  | .repInc => { s with rep := s.rep + 1#8 }
  | .hwLoop idle => hwLoopStep idle s
  | .releaseRegs => critical releaseBody s
  | .legacyLoop rid key => legacyLoopStep rid key s
  | .driveInit => drivePin s.cfg.pinInit s
  | .driveRest => drivePin s.cfg.pinRest s
  | .invert => drivePin (!s.pin) s
  | .delay ns => delayStep ns s
  | .reply => replyStep s
  | .fetch => fetchStep s
  | .latch r => { s with cur := r }
  | .readySent => { s with rdySent := true }
  | .loop => loopStep s

/-- The timer's other owner writes the timer (R248): only while `OWN = 0`, and without enabling an engine interrupt;
the moves premise `IDLE_NO_ENGINE_IRQ` excludes are refused (X5, X6; log 14). -/
def ownerWrite (w : OwnerWrite) (s : State) : Host.Outcome State Fault Refusal :=
  if s.own then .refused .ownerWroteBorrowedTimer
  else if !enginesOff w.tien then .refused .ownerEnabledEngineIrq
  else .next
    { s with
      tctl := w.tctl
      tien := w.tien
      tifr := w.tifr
      cnt := s.truncW w.cnt
      cmpa := s.truncW w.cmpa
      cmpb := s.truncW w.cmpb
      cmpc := s.truncW w.cmpc }

/-- The moves premise `IDLE_NO_ENGINE_IRQ` gives (R248): every agent's, and the other owner's while `OWN = 0` where it
enables no engine interrupt. -/
def State.permits (s : State) : Move → Bool
  | .agent _ => true
  | .owner w => !s.own && enginesOff w.tien

/-- The next choice of the schedule (R224): the agenda's, else a free value, any move the premise gives. DESIGN CHOICE
(log 8): where the free value is a move the premise excludes, the choice is a step of MAIN. -/
def State.choice (s : State) : Move :=
  match s.agenda with
  | m :: _ => m
  | [] => if s.permits (Config.schedule s.drawn) then Config.schedule s.drawn else .agent .main

/-- The state with that choice taken. -/
def State.consume (s : State) : State :=
  { s with agenda := s.agenda.tail, drawn := if s.agenda.isEmpty then s.drawn + 1 else s.drawn }

/-- Puts a table row's record where MAIN reads its next instruction: a command into `CUR` with `DISPATCH` as MAIN's
next statement (R191); a record the device emits as MAIN's next operation (R92; log 19). -/
def placeRecord (r : Record) (s : State) : State :=
  match decodeEmitted s.cfg r with
  | some i => { s.push [.op i] with agenda := .agent .main :: s.agenda }
  | none => { s.push [.op .dispatch] with cur := r, agenda := .agent .main :: s.agenda }

/-- Puts a table row's 24-bit word where the machine reads it: a whole transmit word as MAIN's next operation; a symbol
into `BUF`, at a primary event whose entry is enabled (R95, R221). -/
def placeBuffer (b : TxWord) (s : State) : State :=
  match decodeTxWord b with
  | some i => { s.push [.op i] with agenda := .agent .main :: s.agenda }
  | none =>
    { s with
      buf := b
      tifr := s.tifr ||| 0x01#8
      tien := s.tien ||| 0x01#8
      gie := true
      inh := false
      agenda := .agent .irq :: s.agenda }

/-- Puts a table row's bits where the next step reads them; bits no row has change nothing. -/
def placeWord (nbits w : Nat) (s : State) : State :=
  match tableWord nbits w with
  | none => s
  | some (.inl r) => placeRecord r s
  | some (.inr b) => placeBuffer b s

end Sys2Proof.Machine
end

