-- ==== Sys2Proof/Machine/Step.lean ====
section
/-! DEFINITION. The step relation of R224 as one function of the state: the schedule names an agent, and it takes one
step. A step of an agent that has none enabled changes nothing (log 9). -/

namespace Sys2Proof.Machine

open Sys2Proof

/-- One item of MAIN's continuation. -/
def runTask (t : Task) (s : State) : Host.Outcome State Fault Refusal :=
  match t with
  | .op i => exec i s
  | .prim p => .next (primStep p s)

/-- A step of MAIN (R224): its next statement. With no statement left, in no state a run reaches, MAIN stays (log 24). -/
def mainStep (s : State) : Host.Outcome State Fault Refusal :=
  match s.todo with
  | [] => .next s
  | t :: rest => runTask t { s with todo := rest }

/-- The step of the move the schedule names. -/
def moveStep (m : Move) (s : State) : Host.Outcome State Fault Refusal :=
  match m with
  | .agent .main => mainStep s
  | .agent .irq => exec .irqEntry s
  | .agent .tmr => exec .tick s
  | .owner w => ownerWrite w s

/-- One step of the machine. -/
def step (s : State) : Host.Outcome State Fault Refusal := moveStep s.choice s.consume

/-- The state with an instruction's bits placed where the next step fetches it (log 21). -/
def State.withFetchWord (s : State) (nbits w : Nat) : State := placeWord nbits w s

end Sys2Proof.Machine
end

