-- ==== Sys2Proof/Safety.lean ====
section
/-! DEFINITION. The terms claims are made in: executions with the premises on them (R224, R236), quiescent states (R272),
the records a queue holds (R178), the segments of a frame and of a command (R127, R156), reading them back (R133), and the
invariant behind R42. -/

namespace Sys2Proof.Machine

open Sys2Proof

/-! ## Runs and schedules -/

/-- `k` steps of the machine. -/
abbrev run (k : Nat) (s : State) : Host.Outcome State Fault Refusal := Sys2Proof.core.run k s

/-- `n` steps of MAIN, with no tick and no interrupt between them. -/
def mainMoves (n : Nat) : List Move := List.replicate n (.agent .main)

/-- `n` ticks, with no step of MAIN and no interrupt between them. -/
def tickMoves (n : Nat) : List Move := List.replicate n (.agent .tmr)

/-- A tick and then every interrupt entry it may have enabled: there are two sources, each with one flag (R220). -/
def promptTick : List Move := [.agent .tmr, .agent .irq, .agent .irq]

/-- `n` ticks with no step of MAIN between them: one of the schedules that meet `ISR_PROMPT` (R236). -/
def promptMoves (n : Nat) : List Move := (List.replicate n promptTick).flatten

/-- The state with its schedule beginning with these moves. -/
def State.scheduled (s : State) (ms : List Move) : State := { s with agenda := ms ++ s.agenda }

/-- The state with the schedule fields `ms` and `d`. -/
def State.withSchedule (s : State) (ms : List Move) (d : Nat) : State := { s with agenda := ms, drawn := d }

/-! ## Executions and the premises on them -/

/-- The first `n` steps of an execution (R224): the choice `m i` takes the state `e i` to `e (i + 1)`. -/
def Path (m : Nat → Move) (e : Nat → State) (n : Nat) : Prop :=
  ∀ i < n, moveStep (m i) (e i) = .next (e (i + 1))

/-- An execution without end (R224, R272). -/
def Execution (m : Nat → Move) (e : Nat → State) : Prop := ∀ n, Path m e n

/-- An agent has an enabled step (R120, R221, R224). -/
def State.enables (s : State) : Agent → Bool
  | .main => !s.todo.isEmpty
  | .irq => s.irqEnabled
  | .tmr => s.clocked

/-- Weak fairness of an agent in an execution (R224): its step is not enabled for ever without being taken. -/
def WeaklyFair (a : Agent) (m : Nat → Move) (e : Nat → State) : Prop :=
  ∀ n, (∀ i ≥ n, (e i).enables a = true) → ∃ i ≥ n, m i = .agent a

/-- The fairness premise of R224: "`TICK` and interrupts are not postponed for ever". -/
def Fair (m : Nat → Move) (e : Nat → State) : Prop := WeaklyFair .tmr m e ∧ WeaklyFair .irq m e

/-- Premise `ISR_PROMPT` (R236) on the first `n` steps of any execution: no tick happens while an interrupt entry is
enabled, so every entry happens after the tick that set its flag and before the next. MAIN, and the transport at its
service points, may take any steps between the ticks. -/
def IsrPrompt (m : Nat → Move) (e : Nat → State) (n : Nat) : Prop :=
  ∀ i < n, m i = .agent .tmr → (e i).irqEnabled = false

/-- The ticks among the first `n` choices. -/
def tickCount (m : Nat → Move) (n : Nat) : Nat := (List.range n).countP fun i => m i == .agent .tmr

/-! ## The end of a run -/

/-- The action brings a record in. -/
def actionDelivers : TransportAction → Bool
  | .enqueue _ => true
  | .serve => false

/-- The statement brings a record in: a `Q_WRITE` on `IQ`. -/
def taskDelivers : Task → Bool
  | .op (.qWrite .iq _) => true
  | _ => false

/-- "the transport with nothing more to deliver" (R272): no record stands in what MAIN has still to run, in the actions
fixed in advance, or in any list the transport may yet choose. -/
def State.deliveredAll (s : State) : Prop :=
  (∀ t ∈ s.todo, taskDelivers t = false) ∧ (∀ acts ∈ s.xport, ∀ a ∈ acts, actionDelivers a = false) ∧
    ∀ n ≥ s.served, ∀ a ∈ Config.transport n, actionDelivers a = false

/-- The quiescent states (R272). -/
def State.quiescent (s : State) : Prop :=
  s.ph = .idle ∧ s.es = .idle ∧ s.own = false ∧ s.inh = false ∧ s.gie = true ∧ s.iq.empty = true ∧
    s.deliveredAll

/-! ## What a queue holds -/

/-- The number of records held (R39): `(HEAD - TAIL) mod 16`. -/
def Queue.count (q : Queue) : Nat := (q.head - q.tail).toNat

/-- The records held, the oldest first: the slots from `TAIL` up to but not including `HEAD` (R181). -/
def Queue.contents (q : Queue) : List Record :=
  (List.range q.count).map fun i => memRead q.mem (q.tail + BitVec.ofNat 4 i)

/-- Several writes, one after the other: the queue after them and the results, the first first. -/
def Queue.writeAll (q : Queue) : List Record → Queue × List Bool
  | [] => (q, [])
  | r :: rs =>
    let (q', ok) := q.write r
    let (q'', oks) := Queue.writeAll q' rs
    (q'', ok :: oks)

/-- `n` reads, one after the other: the queue after them and the results, the first first. -/
def Queue.readAll (q : Queue) : Nat → Queue × List (Option Record)
  | 0 => (q, [])
  | n + 1 =>
    let (q', r) := q.read
    let (q'', rs) := Queue.readAll q' n
    (q'', r :: rs)

/-- The instructions that may store into a queue's slots in their own step; every other instruction stores nothing. -/
def storesRecord : Instr → Bool
  | .unknown _ _ _ _ _ => true
  | .ready => true
  | .errUnknown _ _ _ _ => true
  | .qWrite _ _ => true
  | .dispatch => true
  | .bootReady => true
  | _ => false

/-! ## The pulse train -/

/-- A duration on the pin (R13): timer ticks, and nanoseconds of busy-wait. -/
structure Duration where
  ticks : Nat
  ns    : Nat
  deriving DecidableEq, Repr

/-- A segment of a level and a duration. -/
def Duration.segment (d : Duration) (level : Bool) : Segment := ⟨level, d.ticks, d.ns⟩

/-- The segments of these bits, the first at level `l` (R95): a 1 is one segment of duration `full`, a 0 two of
duration `half`, the level alternating. -/
def bitSegments (full half : Duration) (l : Bool) : List Bool → List Segment
  | [] => []
  | true :: bs => full.segment l :: bitSegments full half (!l) bs
  | false :: bs => half.segment l :: half.segment (!l) :: bitSegments full half l bs

/-- Reads segments back (R133): a segment of duration `full` is a 1, a pair of duration `half` a 0. -/
def readSegments (full half : Duration) : List Segment → Option (List Bool)
  | [] => some []
  | g :: gs =>
    if g.ticks = full.ticks ∧ g.ns = full.ns then (readSegments full half gs).map (true :: ·)
    else
      match gs with
      | [] => none
      | h :: hs =>
        if g.ticks = half.ticks ∧ g.ns = half.ns ∧ h.ticks = half.ticks ∧ h.ns = half.ns then
          (readSegments full half hs).map (false :: ·)
        else none

/-- `T_FULL` on the hardware-timed path. -/
def hwFull (c : Config) : Duration := ⟨c.tFull, 0⟩

/-- `T_HALF` on the hardware-timed path. -/
def hwHalf (c : Config) : Duration := ⟨c.tHalf, 0⟩

/-- `TL_FULL` on the legacy path. -/
def legacyFull (c : Config) : Duration := ⟨0, c.tlFull⟩

/-- `TL_HALF` on the legacy path. -/
def legacyHalf (c : Config) : Duration := ⟨0, c.tlHalf⟩

/-- How many of the bits are 0 (`z` of R128 and R132). -/
def zeros (bs : List Bool) : Nat := bs.count false

/-- How many of the bits are 1 (`o` of R132). -/
def ones (bs : List Bool) : Nat := bs.count true

/-- `t_24` of R132: the ticks of a frame up to and including its terminator event. -/
def frameTicks (c : Config) (bs : List Bool) : Nat :=
  c.tStart + ones bs * c.tFull + zeros bs * (2 * c.tHalf)

/-- The level after a number of inversions. -/
def invertTimes (n : Nat) (l : Bool) : Bool := if n % 2 = 0 then l else !l

/-- The present segment of the pin trace (R13). -/
def State.present (s : State) : Segment := ⟨s.pin, s.segTicks, s.segNs⟩

/-- The pin trace (R13), the oldest segment first, the present one last. -/
def State.pinTrace (s : State) : List Segment := s.trace.reverse ++ [s.present]

/-- Consecutive segments at one level are one segment (R13, R156). -/
def joinSegments : List Segment → List Segment
  | [] => []
  | g :: gs =>
    match joinSegments gs with
    | [] => [g]
    | h :: hs => if g.level = h.level then ⟨g.level, g.ticks + h.ticks, g.ns + h.ns⟩ :: hs else g :: h :: hs

/-- The segments of a hardware-timed frame up to its terminator event (R127). -/
def frameSegments (c : Config) (rid : RemoteId) (key : Byte) : List Segment :=
  ⟨c.pinInit, c.tStart, 0⟩ :: bitSegments (hwFull c) (hwHalf c) (!c.pinInit) (wireBits rid key)

/-- The level of the tail (R128): the pin has been inverted `24 + z` times since `ARM`. -/
def tailLevel (c : Config) (rid : RemoteId) (key : Byte) : Bool := invertTimes (24 + zeros (wireBits rid key)) c.pinInit

/-- The segments of a clean hardware-timed command (R156): each frame followed by its tail, `tails` being their lengths,
then the rest level. -/
def commandSegments (c : Config) (rid : RemoteId) (key : Byte) (tails : List Nat) : List Segment :=
  (tails.flatMap fun d => frameSegments c rid key ++ [⟨tailLevel c rid key, d, 0⟩]) ++ [⟨c.pinRest, 0, 0⟩]

/-- The segments of a legacy frame (R160). -/
def legacyFrameSegments (c : Config) (rid : RemoteId) (key : Byte) : List Segment :=
  ⟨c.pinInit, 0, c.tlStart⟩ :: bitSegments (legacyFull c) (legacyHalf c) (!c.pinInit) (wireBits rid key)

/-- The segments of a legacy command (R160): its frames, then the rest level. -/
def legacyCommandSegments (c : Config) (rid : RemoteId) (key : Byte) : List Segment :=
  (List.replicate c.nRepeatLegacy (legacyFrameSegments c rid key)).flatten ++ [⟨c.pinRest, 0, 0⟩]

/-- MAIN right after an `ARM` (R152), with the timer held: `REP <- REP + 1`, `PH <- PH_WAIT` and `POLL` are next. -/
def State.waiting (s : State) : Prop :=
  s.own = true ∧ ∃ (idle : Bool) (k : List Task),
    s.todo = .prim .repInc :: .prim (.phase .wait) :: .op (.poll idle) :: k

/-- What `t` holds when the frame armed at `a` has just had its terminator event (R127, R128). -/
def State.endsFrame (a t : State) (rid : RemoteId) (key : Byte) : Prop :=
  t.buf = 0#24 ∧ t.cnt = 0 ∧ t.cmpa = a.cfg.tFull ∧ t.cmpb = a.cfg.inert ∧ t.ifa = false ∧ t.ifb = false ∧
    t.pin = tailLevel a.cfg rid key ∧
    t.pinTrace = a.trace.reverse ++
      (⟨a.cfg.pinInit, a.segTicks + a.cfg.tStart, a.segNs⟩ ::
        bitSegments (hwFull a.cfg) (hwHalf a.cfg) (!a.cfg.pinInit) (wireBits rid key)) ++
      [⟨tailLevel a.cfg rid key, 0, 0⟩] ∧
    t.es = .running ∧ t.tien = 0x03#8 ∧ t.tctl = a.cfg.cfgTctl ∧ t.gie = true ∧ t.inh = false

/-- The closed segments of `t`'s pin trace after those of `a` and the start segment read back to the bits of the command
in on-wire order (R133). -/
def State.readsBack (a t : State) (rid : RemoteId) (key : Byte) : Prop :=
  ∃ (gs : List Segment) (start : Segment),
    t.trace = gs.reverse ++ start :: a.trace ∧ start.level = a.cfg.pinInit ∧
      readSegments (hwFull a.cfg) (hwHalf a.cfg) gs =
        some ((List.range 16).map (fun i => rid.getLsbD (15 - i)) ++ (List.range 7).map (fun j => key.getLsbD (6 - j)))

/-! ## The invariant behind R42 -/

/-- Where a hardware-timed command stands, seen from MAIN's continuation. -/
inductive Region where
  /-- no hardware-timed command holds the timer -/
  | free
  /-- `PH <- PH_ACQ` is done, `ACQUIRE` is next -/
  | acquiring
  /-- `ACQUIRE` is done, `REP <- 0` is next -/
  | acquired
  /-- `REP` is 0, the first test of the loop is next -/
  | entering
  /-- `PH <- PH_ARM` of the first frame is done, its `ARM` is next -/
  | arming
  /-- between an `ARM` and its `STOP` -/
  | running
  /-- after a `STOP` -/
  | stopped
  deriving DecidableEq, Repr

/-- Where a statement of MAIN leaves the command, for the places it may stand at; none where it may not. -/
def Task.after (r : Region) : Task → Option Region
  | .prim (.phase p) =>
    match r, p with
    | .free, .acq => some .acquiring
    | .free, _ => some .free
    | .entering, .arm => some .arming
    | .running, _ => some .running
    | .stopped, _ => some .stopped
    | _, _ => none
  | .prim .repZero =>
    match r with
    | .acquired => some .entering
    | .free => some .free
    | _ => none
  | .prim .repInc => if r = .free ∨ r = .running then some r else none
  | .prim (.hwLoop _) => if r = .entering ∨ r = .stopped then some .free else none
  | .prim .releaseRegs => if r = .stopped then some .free else none
  | .prim (.legacyLoop _ _) => if r = .free then some .free else none
  | .prim .driveInit => if r = .free then some .free else none
  | .prim .driveRest => if r = .free then some .free else none
  | .prim .invert => if r = .free then some .free else none
  | .prim (.delay _) => if r = .free then some .free else none
  | .prim .reply => if r = .free then some .free else none
  | .prim .fetch => if r = .free then some .free else none
  | .prim (.latch _) => if r = .free then some .free else none
  | .prim .readySent => if r = .free then some .free else none
  | .prim .loop => if r = .free then some .free else none
  | .op i =>
    match i with
    | .acquire => if r = .acquiring then some .acquired else none
    | .arm => if r = .arming ∨ r = .stopped then some .running else none
    | .poll _ => if r = .running then some .running else none
    | .stop => if r = .running then some .stopped else none
    | .release => if r = .stopped then some .free else none
    | .xportService => if r = .free ∨ r = .running then some r else none
    | .qWrite _ _ => if r = .free ∨ r = .running then some r else none
    | .qRead _ => if r = .free ∨ r = .running then some r else none
    | .tick => none
    | .isrP => none
    | .isrS => none
    | .sym1 => none
    | .sym0 => none
    | .irqEntry => none
    | _ => if r = .free then some .free else none

/-- A continuation that runs from a place to the end of the command in the controller's order. -/
def follows (r : Region) : List Task → Bool
  | [] => r == .free
  | t :: ts =>
    match t.after r with
    | none => false
    | some r' => follows r' ts

/-- What the registers hold at each place (R23, R42 (a) to (c), R248). -/
def Region.holds (r : Region) (s : State) : Prop :=
  match r with
  | .free => s.own = false ∧ s.es = .idle ∧ s.buf = 0#24 ∧ enginesOff s.tien = true
  | .acquiring => s.own = false ∧ s.es = .idle ∧ s.buf = 0#24 ∧ enginesOff s.tien = true ∧ s.ph = .acq
  | .acquired =>
    s.own = true ∧ s.es = .idle ∧ s.buf = 0#24 ∧ enginesOff s.tien = true ∧ s.ph = .acq ∧ s.timerRegs = s.snap
  | .entering =>
    s.own = true ∧ s.es = .idle ∧ s.buf = 0#24 ∧ enginesOff s.tien = true ∧ s.ph = .acq ∧ s.rep = 0#8 ∧
      s.timerRegs = s.snap
  | .arming =>
    s.own = true ∧ s.es = .idle ∧ s.buf = 0#24 ∧ enginesOff s.tien = true ∧ s.ph = .arm ∧ s.timerRegs = s.snap
  | .running =>
    s.own = true ∧ s.es = .running ∧ s.tien = 0x03#8 ∧ s.tctl = s.cfg.cfgTctl ∧ s.cmpc = s.cfg.inert ∧
      (s.cmpa = s.cfg.tStart ∨ s.cmpa = s.cfg.tFull ∨ s.cmpa = 2 * s.cfg.tHalf) ∧
      (s.cmpb = s.cfg.inert ∨ s.cmpb = s.cfg.tHalf)
  | .stopped =>
    s.own = true ∧ s.es = .stopped ∧ s.tien = 0x00#8 ∧ s.cmpa = s.cfg.inert ∧ s.cmpb = s.cfg.inert ∧
      s.cmpc = s.cfg.inert ∧ s.buf = 0#24

/-- The `W`-bit registers hold `W`-bit values (R31, R35). -/
abbrev State.fits (s : State) : Prop :=
  s.cnt < 2 ^ s.cfg.w ∧ s.cmpa < 2 ^ s.cfg.w ∧ s.cmpb < 2 ^ s.cfg.w ∧ s.cmpc < 2 ^ s.cfg.w ∧
    s.snap.cmpa < 2 ^ s.cfg.w ∧ s.snap.cmpb < 2 ^ s.cfg.w ∧ s.snap.cmpc < 2 ^ s.cfg.w

/-- The invariant of every step: MAIN's continuation is in the controller's order and the registers are as that place
says; interrupts are enabled outside handlers and critical sections; the snapshot enables no engine interrupt. -/
def State.Inv (s : State) : Prop :=
  (∃ r : Region, follows r s.todo = true ∧ r.holds s) ∧
    s.gie = true ∧ s.inh = false ∧ (s.own = true → enginesOff s.snap.tien = true) ∧ s.fits

/-- What R42 says of a state: (a) Running, (b) Stopped, (c) Idle, (e) the queues' counts. -/
def State.R42 (s : State) : Prop :=
  (s.es = .running →
    s.own = true ∧ s.iea = true ∧ s.ieb = true ∧ s.tctl = s.cfg.cfgTctl ∧ s.cmpc = s.cfg.inert ∧
      (s.cmpa = s.cfg.tStart ∨ s.cmpa = s.cfg.tFull ∨ s.cmpa = 2 * s.cfg.tHalf) ∧
      (s.cmpb = s.cfg.inert ∨ s.cmpb = s.cfg.tHalf)) ∧
  (s.es = .stopped →
    s.own = true ∧ s.tien = 0#8 ∧ s.cmpa = s.cfg.inert ∧ s.cmpb = s.cfg.inert ∧ s.cmpc = s.cfg.inert ∧
      s.buf = 0#24) ∧
  (s.es = .idle →
    s.buf = 0#24 ∧ (s.own = false ∨ (s.own = true ∧ (s.ph = .acq ∨ s.ph = .arm)))) ∧
  (s.iq.count ≤ 15 ∧ s.oq.count ≤ 15)

end Sys2Proof.Machine
end

