-- ==== Sys2Proof/Certificates/Slice0/Obligations.lean ====
section
/-! DEFINITION. The statements for the provers. An equation `exec i s = .next {s with …}` says the whole next state: every
field it does not name, every byte of memory among them, is as before. -/

open Sys2Proof Sys2Proof.Machine

/-! ## Reset and the step -/

/-- R245: every element the rule gives a value, at that value, and MAIN about to start `MAIN_LOOP`. -/
def Obligations.ResetHoldsSpecValues : Prop :=
  State.reset.buf = 0#24 ∧ State.reset.pin = State.reset.cfg.pinRest ∧ State.reset.es = .idle ∧
    State.reset.own = false ∧ State.reset.rep = 0#8 ∧ State.reset.ph = .idle ∧ State.reset.rdySent = false ∧
    State.reset.inh = false ∧ State.reset.gie = true ∧
    State.reset.iq.head = 0#4 ∧ State.reset.iq.tail = 0#4 ∧ State.reset.oq.head = 0#4 ∧ State.reset.oq.tail = 0#4 ∧
    State.reset.iea = false ∧ State.reset.ieb = false ∧ State.reset.todo = [.op .mainLoop]

/-- The invariant behind R42 holds at reset, and the queue stores are canonical. That the timer registers and the snapshot
are in range there rests on the zeros the model chose (logs 4 and 5), and the canonical form is the model's representation
(logs 6 and 25). -/
def Obligations.ResetMeetsInvariant : Prop :=
  State.reset.Inv ∧ State.reset.iq.mem.wf ∧ State.reset.oq.mem.wf

/-- R224: when the schedule names MAIN, a step runs MAIN's next statement; when it names the interrupt or the timer, a step
is that agent's. -/
def Obligations.StepRunsMainStatement : Prop :=
  ∀ (s : State) (k : List Task),
    (s.choice = .agent .main →
      (∀ i : Instr, s.todo = .op i :: k → step s = exec i { s.consume with todo := k }) ∧
      (∀ p : Prim, s.todo = .prim p :: k → step s = .next (primStep p { s.consume with todo := k }))) ∧
    (s.choice = .agent .irq → step s = exec .irqEntry s.consume) ∧
    (s.choice = .agent .tmr → step s = exec .tick s.consume)

/-- R91, R191: MAIN at `DISPATCH` runs the instruction the record in `CUR` decodes to, which is well formed. -/
def Obligations.StepRunsDecodedCommand : Prop :=
  ∀ (s : State) (k : List Task), s.choice = .agent .main → s.todo = .op .dispatch :: k →
    (decodeCommand s.cfg s.cur).wellFormed s.cfg = true ∧
      step s = exec (decodeCommand s.cfg s.cur) { s.consume with todo := k }

/-- R95, R221: an interrupt that serves the primary source runs the symbol `BUF[0]` decodes to, between entry and
return. -/
def Obligations.StepRunsDecodedSymbol : Prop :=
  ∀ s : State, s.choice = .agent .irq → s.irqEnabled = true → s.primaryReady = true →
    ∃ t : State, exec (decodeSymbol s.buf) (enterPrimary s.consume) = .next t ∧ step s = .next (irqReturn t)

/-! ## Encodings -/

/-- A few words written out from the encodings of R85, R91, R93 and R95 decode to their instructions. The three records are
decoded under the default parameters, whose kinds 0x01 and 0x02 are PRESUMED (log 2): the spec gives no numbers. -/
def Obligations.WrittenWordsDecode : Prop :=
  decodeCommand Config.default (Record.ofWord 0x0000002A214D014C#64) = .switch 0x4C#8 8525#16 42#8 0#24 ∧
    decodeCommand Config.default (Record.ofWord 0x0000002A214D024C#64) = .switchLegacy 0x4C#8 8525#16 42#8 0#24 ∧
    decodeCommand Config.default (Record.ofWord 0x33221100FFFF0099#64) =
      .unknown 0x99#8 0x00#8 0xFFFF#16 0x00#8 0x332211#24 ∧
    decodeTxWord 0xAAB284#24 = some (.txw 8525#16 42#7) ∧
    decodeSymbol 0xAAB284#24 = .sym0 ∧ decodeSymbol 0x2AACA1#24 = .sym1

/-- Decode after encode, for every well-formed instruction that has an encoding, under all parameters: a command by the
command decoder, a record the device emits by the reading of R92, a symbol by the engine's, a transmit word by R93. -/
def Obligations.EncodedInstructionReadsBack : Prop :=
  ∀ (c : Config) (i : Instr), i.wellFormed c = true →
    (∀ w : RecordWord, encode c i = some (.record w) →
      decodeEmitted c (Record.ofWord w) = some i ∨ decodeCommand c (Record.ofWord w) = i) ∧
    (∀ w : RecordWord, encode c i = some (.record w) → (i = .ready ∨ ∃ t r k p, i = .errUnknown t r k p) →
      decodeEmitted c (Record.ofWord w) = some i) ∧
    (∀ b : TxWord, encode c i = some (.symbol b) → decodeSymbol b = i) ∧
    (∀ b : TxWord, encode c i = some (.word b) → decodeTxWord b = some i)

/-- Encode after decode of every record: the command decoder loses no bit of the 64, and answers a well-formed
instruction on all of them. -/
def Obligations.EveryRecordWritesBack : Prop :=
  ∀ (c : Config) (w : RecordWord),
    (decodeCommand c (Record.ofWord w)).wellFormed c = true ∧
      encode c (decodeCommand c (Record.ofWord w)) = some (.record w)

/-- R93: a 24-bit word is a transmit word exactly if its bit 23 is 1, and then it is the word of one rid and key. -/
def Obligations.EveryTransmitWordWritesBack : Prop :=
  ∀ w : TxWord,
    (w.getLsbD 23 = true → ∃ (rid : RemoteId) (key : BitVec 7),
      decodeTxWord w = some (.txw rid key) ∧ txWord rid key = w) ∧
    (w.getLsbD 23 = false → decodeTxWord w = none)

/-! ## The encoder -/

/-- R110: `ENCODE` answers the word of format `TXW` and writes no state of the spec. -/
def Obligations.EncodeAnswersTransmitWord : Prop :=
  ∀ (rid : RemoteId) (key : Byte) (s : State),
    ∃ w : TxWord, exec (.encode rid key) s = .next { s with ret := .word w } ∧
      (∀ i < 16, w.getLsbD i = rid.getLsbD (15 - i)) ∧
      (∀ j < 7, w.getLsbD (16 + j) = key.getLsbD (6 - j)) ∧ w.getLsbD 23 = true

/-- R111, R112: `ENCODE` answers one word in every state; the word ignores `key[7]`, has its terminator, is injective on
the significant bits, which read back from it, is not zero, and becomes zero after exactly 24 shifts. -/
def Obligations.EncodedWordHasItsProperties : Prop :=
  ∀ (rid : RemoteId) (key : Byte),
    (∀ s : State, exec (.encode rid key) s = .next { s with ret := .word (encodeWord rid key) }) ∧
    encodeWord rid key = encodeWord rid (key &&& 0x7F#8) ∧
    (encodeWord rid key).getLsbD 23 = true ∧
    (∀ (rid' : RemoteId) (key' : Byte), encodeWord rid key = encodeWord rid' key' →
      rid = rid' ∧ key.extractLsb' 0 7 = key'.extractLsb' 0 7) ∧
    (∀ i < 16, rid.getLsbD (15 - i) = (encodeWord rid key).getLsbD i) ∧
    (∀ j < 7, key.getLsbD (6 - j) = (encodeWord rid key).getLsbD (16 + j)) ∧
    encodeWord rid key ≠ 0#24 ∧
    (∀ n ≤ 23, encodeWord rid key >>> n ≠ 0#24) ∧ encodeWord rid key >>> 24 = 0#24

/-- R113: the three bytes of the word. -/
def Obligations.EncodedWordHasItsBytes : Prop :=
  ∀ (rid : RemoteId) (key : Byte),
    (encodeWord rid key).extractLsb' 0 8 = (rid.extractLsb' 8 8).reverse ∧
    (encodeWord rid key).extractLsb' 8 8 = (rid.extractLsb' 0 8).reverse ∧
    (encodeWord rid key).extractLsb' 16 8 = 0x80#8 ||| ((key.extractLsb' 0 7).reverse).setWidth 8

/-! ## The pin and the timer -/

/-- R13, R73: a write of the pin that changes its level closes the present segment; one that does not extends it. -/
def Obligations.PinWriteExtendsTrace : Prop :=
  ∀ (l : Bool) (s : State),
    (l = s.pin → drivePin l s = s) ∧
    (l ≠ s.pin → drivePin l s =
      { s with pin := l, trace := ⟨s.pin, s.segTicks, s.segNs⟩ :: s.trace, segTicks := 0, segNs := 0 })

/-- R120: a tick of a clocked timer; a timer that is not clocked keeps its counter and flags (that the move then changes
nothing at all is the model's choice, log 9). -/
def Obligations.TickCountsAndCompares : Prop :=
  ∀ s : State,
    (s.tctl.extractLsb' 0 4 ≠ 0#4 →
      exec .tick s = .next
        { s with
          cnt := if (s.cnt + 1) % 2 ^ s.cfg.w = s.cmpa ∧ s.tctl.getLsbD 7 = true then 0 else (s.cnt + 1) % 2 ^ s.cfg.w
          tifr := s.tifr ||| (if (s.cnt + 1) % 2 ^ s.cfg.w = s.cmpa then 0x01#8 else 0x00#8)
            ||| (if (s.cnt + 1) % 2 ^ s.cfg.w = s.cmpb then 0x02#8 else 0x00#8)
          segTicks := s.segTicks + 1 }) ∧
    (s.tctl.extractLsb' 0 4 = 0#4 → exec .tick s = .next s)

/-- R120, its consequences: from a cleared counter with clear-on-match, `IFA` is set exactly `CMPA` ticks later, when
`CNT` is 0 again, and `IFB` exactly `CMPB` ticks after the clear if that comes no later. -/
def Obligations.CompareValueIsInterval : Prop :=
  ∀ s : State,
    s.clocked = true → s.ctc = true → s.cnt = 0 → 0 < s.cmpa → s.cmpa < 2 ^ s.cfg.w → s.ifa = false →
    ∀ n ≤ s.cmpa, ∃ t : State, run n (s.scheduled (tickMoves n)) = .next t ∧
      t.ifa = decide (n = s.cmpa) ∧ t.cnt = (if n = s.cmpa then 0 else n) ∧
      t.ifb = (s.ifb || decide (0 < s.cmpb ∧ s.cmpb ≤ n))

/-! ## The pulse engine -/

/-- R123: `ARM`. -/
def Obligations.ArmStartsFrame : Prop :=
  ∀ s : State,
    exec .arm s = .next
      { drivePin s.cfg.pinInit s with
        tctl := s.cfg.cfgTctl
        cnt := 0
        cmpa := s.cfg.tStart
        cmpb := 2 ^ s.cfg.w - 1
        cmpc := 2 ^ s.cfg.w - 1
        tifr := s.tifr &&& 0xFC#8
        buf := s.encw
        tien := 0x03#8
        es := .running }

/-- R124, R95: the primary handler's body is the symbol `BUF[0]` selects, what the two symbols do, and the next state of
the body, its pin trace included. -/
def Obligations.PrimaryHandlerSendsSymbol : Prop :=
  ∀ s : State,
    exec .isrP s = exec (if s.buf.getLsbD 0 then .sym1 else .sym0) s ∧
    exec .sym1 s = .next
      { drivePin (!s.pin) s with cmpa := s.cfg.tFull, cmpb := 2 ^ s.cfg.w - 1, buf := s.buf >>> 1 } ∧
    exec .sym0 s = .next
      { drivePin (!s.pin) s with cmpa := 2 * s.cfg.tHalf, cmpb := s.cfg.tHalf, buf := s.buf >>> 1 } ∧
    exec .isrP s = .next
      { s with
        pin := !s.pin
        trace := ⟨s.pin, s.segTicks, s.segNs⟩ :: s.trace
        segTicks := 0
        segNs := 0
        cmpa := if s.buf.getLsbD 0 then s.cfg.tFull else 2 * s.cfg.tHalf
        cmpb := if s.buf.getLsbD 0 then 2 ^ s.cfg.w - 1 else s.cfg.tHalf
        buf := s.buf >>> 1 }

/-- R125: the secondary handler's body inverts the pin and writes nothing else. -/
def Obligations.SecondaryHandlerInverts : Prop :=
  ∀ s : State,
    exec .isrS s = .next
      { s with
        pin := !s.pin
        trace := ⟨s.pin, s.segTicks, s.segNs⟩ :: s.trace
        segTicks := 0
        segNs := 0 }

/-- R126: `STOP`; `PIN`, `TCTL` and `CNT` are not written. -/
def Obligations.StopStopsFrame : Prop :=
  ∀ s : State,
    exec .stop s = .next
      { s with
        tien := 0x00#8
        cmpa := 2 ^ s.cfg.w - 1
        cmpb := 2 ^ s.cfg.w - 1
        cmpc := 2 ^ s.cfg.w - 1
        tifr := s.tifr &&& 0xFC#8
        buf := 0#24
        es := .stopped }

/-- R134: `ES` changes only by MAIN's `ARM`, `STOP` and the critical section of `RELEASE`, each to its own state. -/
def Obligations.EngineStateChangesOnlyByMain : Prop :=
  ∀ s t : State, step s = .next t → t.es ≠ s.es →
    s.choice = .agent .main ∧
      ((s.todo.head? = some (.op .arm) ∧ t.es = .running) ∨
       (s.todo.head? = some (.op .stop) ∧ t.es = .stopped) ∨
       (s.todo.head? = some (.prim .releaseRegs) ∧ t.es = .idle))

/-- R20: in every state that meets the invariant, a step changes `BUF` only as `ARM` (to `ENCW`), as `STOP` (to 0), or as an
interrupt that serves the primary source (shifted right by one). -/
def Obligations.BufferHasThreeWriters : Prop :=
  ∀ s t : State, s.Inv → step s = .next t → t.buf ≠ s.buf →
    (s.choice = .agent .main ∧ s.todo.head? = some (.op .arm) ∧ t.buf = s.encw) ∨
    (s.choice = .agent .main ∧ s.todo.head? = some (.op .stop) ∧ t.buf = 0#24) ∨
    (s.choice = .agent .irq ∧ s.irqEnabled = true ∧ s.primaryReady = true ∧ t.buf = s.buf >>> 1)

/-- R77, R94, R131: while a frame runs, under every schedule, the buffer is the encoded word shifted by some number of
places up to 24: kept by every step of a state that meets the invariant, whatever the order of ticks, interrupts and
statements of MAIN. -/
def Obligations.RunningBufferIsShiftedWord : Prop :=
  ∀ s t : State, s.Inv → (s.es = .running → ∃ n ≤ 24, s.buf = s.encw >>> n) → step s = .next t →
    (t.es = .running → ∃ n ≤ 24, t.buf = t.encw >>> n)

/-- R224, R76, R131: under weak fairness of ticks and interrupts, in every execution of a state that meets the invariant, a
running frame empties its buffer, whatever MAIN, the transport and the schedule do. -/
def Obligations.FrameEndsUnderFairness : Prop :=
  ∀ (m : Nat → Move) (e : Nat → State), Execution m e → Fair m e → (e 0).Inv → (e 0).es = .running →
    ∃ n : Nat, (e n).buf = 0#24

/-- R127, R128, R132: the ideal frame, from an `ARM` of the word of `rid` and `key`. In every execution under `ISR_PROMPT`
in which MAIN waits for the frame, with any steps of `POLL` and the transport between the ticks: when the buffer first is
empty, `t_24` ticks have passed, the pin trace is the start segment and the segments of the 23 bits, and the level is that
of the tail. And `t_24` ticks with no step of MAIN between them are such an execution, from any `ARM`. -/
def Obligations.IdealFrameOnPin : Prop :=
  ∀ (s a : State) (rid : RemoteId) (key : Byte),
    s.encw = encodeWord rid key → s.gie = true → s.inh = false → exec .arm s = .next a →
    (a.waiting →
      ∀ (m : Nat → Move) (e : Nat → State) (n : Nat), e 0 = a → Path m e n → IsrPrompt m e n →
        (∀ i < n, (e i).buf ≠ 0#24) → (e n).buf = 0#24 →
          tickCount m n = frameTicks s.cfg (wireBits rid key) ∧ State.endsFrame a (e n) rid key) ∧
    ∃ t : State,
      run (3 * frameTicks s.cfg (wireBits rid key))
        (a.scheduled (promptMoves (frameTicks s.cfg (wireBits rid key)))) = .next t ∧
      State.endsFrame a t rid key ∧ t.agenda = a.agenda ∧ t.todo = a.todo

/-- R131 under `ISR_PROMPT`: in every such execution, and with no step of MAIN, the buffer is not zero before `t_24`, so
`POLL` cannot end the frame early. -/
def Obligations.BufferHoldsUntilLastEvent : Prop :=
  ∀ (s a : State) (rid : RemoteId) (key : Byte),
    s.encw = encodeWord rid key → s.gie = true → s.inh = false → exec .arm s = .next a →
    (a.waiting →
      ∀ (m : Nat → Move) (e : Nat → State) (n : Nat), e 0 = a → Path m e n → IsrPrompt m e n →
        tickCount m n < frameTicks s.cfg (wireBits rid key) → (e n).buf ≠ 0#24) ∧
    ∀ n < frameTicks s.cfg (wireBits rid key),
      ∃ t : State, run (3 * n) (a.scheduled (promptMoves n)) = .next t ∧ t.buf ≠ 0#24

/-- R128, R129: after the terminator event the pin holds its level for fewer than `T_FULL` ticks; at `T_FULL` ticks a
further event inverts it and takes the 0 branch on the empty buffer. -/
def Obligations.TailEndsInExtraEvent : Prop :=
  ∀ s : State, s.buf = 0#24 → s.cnt = 0 → s.cmpa = s.cfg.tFull → s.cmpb = s.cfg.inert → s.tien = 0x03#8 →
    s.tctl = s.cfg.cfgTctl → s.ifa = false → s.ifb = false → s.gie = true → s.inh = false →
    ∀ d ≤ s.cfg.tFull, ∃ t : State, run (3 * d) (s.scheduled (promptMoves d)) = .next t ∧ t.buf = 0#24 ∧
      (d < s.cfg.tFull →
        t.pin = s.pin ∧ t.cnt = d ∧ t.segTicks = s.segTicks + d ∧ t.trace = s.trace ∧ t.cmpa = s.cfg.tFull) ∧
      (d = s.cfg.tFull →
        t.pin = (!s.pin) ∧ t.cnt = 0 ∧ t.cmpa = 2 * s.cfg.tHalf ∧ t.cmpb = s.cfg.tHalf ∧
          t.trace = ⟨s.pin, s.segTicks + s.cfg.tFull, s.segNs⟩ :: s.trace)

/-- R133: segments of the two widths read back to the bits they were made of, on both paths' durations. -/
def Obligations.SegmentsReadBackToBits : Prop :=
  ∀ (full half : Duration) (l : Bool) (bs : List Bool), full ≠ half →
    readSegments full half (bitSegments full half l bs) = some bs

/-- R133: when the buffer first is empty, the pin trace, after its start segment, reads back to `rid[15..0]` then
`key[6..0]`: in every execution under `ISR_PROMPT` in which MAIN waits for the frame, and with no step of MAIN from any
`ARM`. -/
def Obligations.FrameReadsBackToCommand : Prop :=
  ∀ (s a : State) (rid : RemoteId) (key : Byte),
    s.encw = encodeWord rid key → s.gie = true → s.inh = false → exec .arm s = .next a →
    (a.waiting →
      ∀ (m : Nat → Move) (e : Nat → State) (n : Nat), e 0 = a → Path m e n → IsrPrompt m e n →
        (∀ i < n, (e i).buf ≠ 0#24) → (e n).buf = 0#24 → State.readsBack a (e n) rid key) ∧
    ∃ (t : State) (n : Nat),
      run (3 * n) (a.scheduled (promptMoves n)) = .next t ∧ t.buf = 0#24 ∧ State.readsBack a t rid key

/-! ## The interrupt -/

/-- R221 to R223: an enabled interrupt, entry to return, the primary source first; one that is not enabled does not
start (that the move then changes nothing is the model's choice, log 9). -/
def Obligations.InterruptServesOneSource : Prop :=
  ∀ s : State,
    (s.gie = true → s.inh = false → s.ifa = true → s.iea = true →
      exec .irqEntry s = .next
        { s with
          tifr := s.tifr &&& 0xFE#8
          pin := !s.pin
          trace := ⟨s.pin, s.segTicks, s.segNs⟩ :: s.trace
          segTicks := 0
          segNs := 0
          cmpa := if s.buf.getLsbD 0 then s.cfg.tFull else 2 * s.cfg.tHalf
          cmpb := if s.buf.getLsbD 0 then 2 ^ s.cfg.w - 1 else s.cfg.tHalf
          buf := s.buf >>> 1 }) ∧
    (s.gie = true → s.inh = false → ¬(s.ifa = true ∧ s.iea = true) → s.ifb = true → s.ieb = true →
      exec .irqEntry s = .next
        { s with
          tifr := s.tifr &&& 0xFD#8
          pin := !s.pin
          trace := ⟨s.pin, s.segTicks, s.segNs⟩ :: s.trace
          segTicks := 0
          segNs := 0 }) ∧
    (¬(s.gie = true ∧ s.inh = false ∧ ((s.ifa = true ∧ s.iea = true) ∨ (s.ifb = true ∧ s.ieb = true))) →
      exec .irqEntry s = .next s)

/-- R130, R248: while `OWN = 0` the handler does not run: a choice of the interrupt only passes (that it is a step that
changes nothing but the schedule is the model's choice, log 9). -/
def Obligations.NoInterruptWhileTimerNotHeld : Prop :=
  ∀ s : State, s.Inv → s.own = false → s.choice = .agent .irq → step s = .next s.consume

/-! ## The transmission controller -/

/-- R150: `TRANSMIT` latches its argument and selects the path. -/
def Obligations.TransmitSelectsPath : Prop :=
  ∀ (rid : RemoteId) (key : Byte) (useHw idle : Bool) (s : State),
    exec (.transmit rid key useHw idle) s = .next
      { s with
        hwsel := useHw
        todo :=
          .op (if useHw = true ∧ s.cfg.hwTimerAvailable = true then .transmitHw rid key idle
            else .transmitLegacy rid key) :: .prim (.phase .idle) :: s.todo }

/-- R151: `ACQUIRE` saves the five registers in order and writes no timer register. -/
def Obligations.AcquireSavesTimer : Prop :=
  ∀ s : State,
    exec .acquire s = .next { s with snap := ⟨s.tctl, s.tien, s.cmpa, s.cmpb, s.cmpc⟩, own := true }

/-- R152: `TRANSMIT_HW` latches the encoded word and goes on with `ACQUIRE`; its loop runs one frame's operations in
order while `REP < N_REPEAT` and then releases the timer. -/
def Obligations.TransmitHwRunsItsLoop : Prop :=
  ∀ (rid : RemoteId) (key : Byte) (idle : Bool) (s : State),
    exec (.transmitHw rid key idle) s = .next
      { s with
        encw := encodeWord rid key
        todo := .prim (.phase .acq) :: .op .acquire :: .prim .repZero :: .prim (.hwLoop idle) :: s.todo } ∧
    (s.rep.toNat < s.cfg.nRepeat → primStep (.hwLoop idle) s =
      { s with
        todo := .prim (.phase .arm) :: .op .arm :: .prim .repInc :: .prim (.phase .wait) :: .op (.poll idle) ::
          .prim (.phase .stop) :: .op .stop :: .prim (.hwLoop idle) :: s.todo }) ∧
    (s.cfg.nRepeat ≤ s.rep.toNat → primStep (.hwLoop idle) s =
      { s with todo := .prim (.phase .rel) :: .op .release :: s.todo })

/-- R153: one read of `BUF`; on zero the loop ends, else the callback runs if there is one and `BUF` is read again. -/
def Obligations.PollReadsBuffer : Prop :=
  ∀ s : State,
    (∀ idle : Bool, s.buf = 0#24 → exec (.poll idle) s = .next s) ∧
    (s.buf ≠ 0#24 →
      exec (.poll true) s = .next { s with todo := .op .xportService :: .op (.poll true) :: s.todo } ∧
      exec (.poll false) s = .next { s with todo := .op (.poll false) :: s.todo })

/-- R158: `RELEASE` drives the pin to rest, and its critical section, MAIN's next statement, restores the five registers
from the snapshot, clears the flags and gives the timer back. -/
def Obligations.ReleaseRestoresTimer : Prop :=
  ∀ s : State,
    exec .release s = .next
      { drivePin s.cfg.pinRest s with todo := .prim .releaseRegs :: s.todo } ∧
    primStep .releaseRegs s =
      { s with
        tctl := s.snap.tctl
        tien := s.snap.tien
        cmpa := s.snap.cmpa
        cmpb := s.snap.cmpb
        cmpc := s.snap.cmpc
        tifr := s.tifr &&& 0xFC#8
        own := false
        es := .idle }

/-- R159, R42 (d): from the step that takes the timer, whatever the schedule, the snapshot holds the five registers as
they were before it until the timer is given back, and then the registers hold them again. -/
def Obligations.SnapshotRestoredWhenTimerGivenBack : Prop :=
  ∀ s u : State, s.Inv → s.own = false → step s = .next u → u.own = true →
    u.timerRegs = s.timerRegs ∧
    ∀ (n : Nat) (t : State), run n u = .next t →
      (∀ m < n, ∀ v : State, run m u = .next v → v.own = true) →
        t.snap = s.timerRegs ∧ (t.own = false → t.timerRegs = s.timerRegs)

/-- R160: `TRANSMIT_LEGACY` sets its phase, clears `REP` and enters its loop, which runs a frame while
`REP < N_REPEAT_LEGACY` and then drives the pin to rest. Which tests are steps is the model's choice (log 12). -/
def Obligations.TransmitLegacyRunsItsLoop : Prop :=
  ∀ (rid : RemoteId) (key : Byte) (s : State),
    exec (.transmitLegacy rid key) s = .next
      { s with ph := .legacy, todo := .prim .repZero :: .prim (.legacyLoop rid key) :: s.todo } ∧
    primStep .repZero s = { s with rep := 0#8 } ∧
    (s.rep.toNat < s.cfg.nRepeatLegacy → primStep (.legacyLoop rid key) s =
      { s with todo := legacyFrameTasks s.cfg rid key ++ .prim (.legacyLoop rid key) :: s.todo }) ∧
    (s.cfg.nRepeatLegacy ≤ s.rep.toNat → primStep (.legacyLoop rid key) s =
      { s with todo := .prim .driveRest :: s.todo })

/-- R160, R161: one legacy frame on MAIN alone, from either level of the pin: the present segment, the start segment and the
segments of the 23 bits with the legacy delays, joined where two levels are equal, and no register of the timer, the engine
or the controller but `REP`. -/
def Obligations.LegacyFrameOnPin : Prop :=
  ∀ (s : State) (rid : RemoteId) (key : Byte) (k : List Task),
    s.todo = .prim (.legacyLoop rid key) :: k → s.rep.toNat < s.cfg.nRepeatLegacy →
    ∃ (n : Nat) (t : State), run n (s.scheduled (mainMoves n)) = .next t ∧
      t.todo = .prim (.legacyLoop rid key) :: k ∧ t.rep = s.rep + 1#8 ∧
      t.pinTrace = s.trace.reverse ++ joinSegments (s.present :: legacyFrameSegments s.cfg rid key) ∧
      t.timerRegs = s.timerRegs ∧ t.cnt = s.cnt ∧ t.tifr = s.tifr ∧ t.buf = s.buf ∧ t.encw = s.encw ∧
      t.snap = s.snap ∧ t.es = s.es ∧ t.own = s.own ∧ t.cur = s.cur ∧ t.iq = s.iq ∧ t.oq = s.oq

/-- R192, R150, R152, R155, R156, R158: a switch command completes on the hardware-timed path. For every choice of clean
tails there is a schedule under which MAIN, from the command on, transmits `N_REPEAT` frames with these tails, the frames and
tails of R156 joined into one pin trace, gives the timer back as it was, and has offered the unchanged record to `OQ`. That
the row latches its record in `CUR` is the model's choice (log 17). -/
def Obligations.SwitchCommandCompletes : Prop :=
  ∀ (s : State) (tag : Byte) (rid : RemoteId) (key : Byte) (pad : BitVec 24) (k : List Task) (tails : List Nat),
    s.todo = .op (.switch tag rid key pad) :: k → s.cfg.hwTimerAvailable = true → s.gie = true → s.inh = false →
    tails.length = s.cfg.nRepeat → (∀ d ∈ tails, d < s.cfg.tFull) →
    ∃ (ms : List Move) (t : State), run ms.length (s.scheduled ms) = .next t ∧
      t.pinTrace = s.trace.reverse ++ joinSegments (s.present :: commandSegments s.cfg rid key tails) ∧
      some t.cnt = tails.getLast? ∧
      t.todo = k ∧ t.agenda = s.agenda ∧ t.ph = .idle ∧ t.hwsel = true ∧ t.encw = encodeWord rid key ∧
      t.cur = ⟨tag, s.cfg.kindSwitch, rid, key, pad⟩ ∧ t.rep.toNat = s.cfg.nRepeat ∧ t.buf = 0#24 ∧
      t.pin = s.cfg.pinRest ∧ t.es = .idle ∧ t.own = false ∧ t.snap = s.timerRegs ∧ t.timerRegs = s.timerRegs ∧
      t.ifa = false ∧ t.ifb = false ∧ t.gie = true ∧ t.inh = false ∧ t.iq = s.iq ∧
      t.oq = (s.oq.write ⟨tag, s.cfg.kindSwitch, rid, key, pad⟩).1 ∧ t.cfg = s.cfg

/-- R193, R160, R150: a command on the legacy path, a legacy switch command or a switch command where hardware timing is not
available, completes on MAIN alone: its frames are on the pin, it touches neither timer, buffer, snapshot nor encoded word,
and the unchanged record `r` is then offered to `OQ`. That the row latches its record in `CUR` is the model's choice
(log 17). -/
def Obligations.SwitchLegacyCommandCompletes : Prop :=
  ∀ (s : State) (i : Instr) (r : Record) (k : List Task), s.todo = .op i :: k →
    ((i = .switchLegacy r.tag r.rid r.key r.pad ∧ r.kind = s.cfg.kindSwitchLegacy) ∨
      (i = .switch r.tag r.rid r.key r.pad ∧ r.kind = s.cfg.kindSwitch ∧ s.cfg.hwTimerAvailable = false)) →
    ∃ (n : Nat) (t : State), run n (s.scheduled (mainMoves n)) = .next t ∧
      t.pinTrace = s.trace.reverse ++ joinSegments (s.present :: legacyCommandSegments s.cfg r.rid r.key) ∧
      t.todo = k ∧ t.agenda = s.agenda ∧ t.ph = .idle ∧ t.hwsel = decide (r.kind = s.cfg.kindSwitch) ∧
      t.cur = r ∧ t.rep.toNat = s.cfg.nRepeatLegacy ∧
      t.pin = s.cfg.pinRest ∧ t.timerRegs = s.timerRegs ∧ t.cnt = s.cnt ∧ t.tifr = s.tifr ∧ t.buf = s.buf ∧
      t.encw = s.encw ∧ t.snap = s.snap ∧ t.es = s.es ∧ t.own = s.own ∧ t.iq = s.iq ∧
      t.oq = (s.oq.write r).1 ∧ t.cfg = s.cfg

/-! ## The command queues -/

/-- R176, R179: `Q_WRITE` stores at `HEAD` and advances it, or, on a full queue, changes no queue and answers false. -/
def Obligations.QueueWriteStoresOrRefuses : Prop :=
  ∀ (r : Record) (s : State),
    (s.iq.head + 1#4 ≠ s.iq.tail →
      exec (.qWrite .iq r) s = .next
        { s with
          iq := ⟨memWrite s.iq.mem s.iq.head r, s.iq.head + 1#4, s.iq.tail⟩
          ret := .stored true, obs := .wrote .iq true :: s.obs }) ∧
    (s.oq.head + 1#4 ≠ s.oq.tail →
      exec (.qWrite .oq r) s = .next
        { s with
          oq := ⟨memWrite s.oq.mem s.oq.head r, s.oq.head + 1#4, s.oq.tail⟩
          ret := .stored true, obs := .wrote .oq true :: s.obs }) ∧
    (∀ q : QueueId, (s.queue q).head + 1#4 = (s.queue q).tail →
      exec (.qWrite q r) s = .next { s with ret := .stored false, obs := .wrote q false :: s.obs })

/-- R177: `Q_READ` answers the record at `TAIL` and advances it, or, on an empty queue, answers none and changes no
queue. -/
def Obligations.QueueReadTakesOrFindsNone : Prop :=
  ∀ s : State,
    (s.iq.head ≠ s.iq.tail →
      exec (.qRead .iq) s = .next
        { s with
          iq := ⟨s.iq.mem, s.iq.head, s.iq.tail + 1#4⟩
          ret := .taken (some (memRead s.iq.mem s.iq.tail)) }) ∧
    (s.oq.head ≠ s.oq.tail →
      exec (.qRead .oq) s = .next
        { s with
          oq := ⟨s.oq.mem, s.oq.head, s.oq.tail + 1#4⟩
          ret := .taken (some (memRead s.oq.mem s.oq.tail))
          obs := .served (memRead s.oq.mem s.oq.tail) :: s.obs }) ∧
    (∀ q : QueueId, (s.queue q).head = (s.queue q).tail → exec (.qRead q) s = .next { s with ret := .taken none })

/-- R62, R69: `Q_WRITE` stores the record's 8 bytes in the slot at `HEAD`, offsets 0 to 7, and no other byte of either
store changes. -/
def Obligations.QueueWriteChangesOnlyItsSlot : Prop :=
  ∀ (q : QueueId) (r : Record) (s t : State), s.iq.mem.wf → s.oq.mem.wf → (s.queue q).full = false →
    exec (.qWrite q r) s = .next t →
    (∀ k < 8, (t.queue q).mem.read (slotOffset (s.queue q).head k) = r.byte k) ∧
    (∀ a : Nat, (∀ k < 8, a ≠ slotOffset (s.queue q).head k) →
      (t.queue q).mem.read a = (s.queue q).mem.read a) ∧
    (∀ q' : QueueId, q' ≠ q → t.queue q' = s.queue q')

/-- The frame of every instruction that stores no record: each byte of both stores reads as before. -/
def Obligations.OtherInstructionsStoreNothing : Prop :=
  ∀ (i : Instr) (s t : State), storesRecord i = false → exec i s = .next t →
    ∀ a : Nat, t.iq.mem.read a = s.iq.mem.read a ∧ t.oq.mem.read a = s.oq.mem.read a

/-- R178, R179: a queue is a FIFO of at most 15 records: a write appends, or, at 15, is lost; a read takes the oldest. -/
def Obligations.QueueIsBoundedFifo : Prop :=
  ∀ (q : Queue) (r : Record), q.mem.wf →
    q.contents.length ≤ 15 ∧
    (q.write r).2 = decide (q.contents.length < 15) ∧
    (q.write r).1.contents = (if q.contents.length < 15 then q.contents ++ [r] else q.contents) ∧
    q.read.2 = q.contents.head? ∧ q.read.1.contents = q.contents.tail

/-- R180, R178: from empty, the first 15 writes are stored and no further one, and reading back gives the stored records
in order and then none. -/
def Obligations.QueueStoresFifteen : Prop :=
  ∀ (q : Queue) (rs : List Record) (n : Nat), q.mem.wf → q.empty = true →
    (q.writeAll rs).2 = (List.range rs.length).map (fun i => decide (i < 15)) ∧
    ((q.writeAll rs).1.readAll n).2 = (List.range n).map (fun i => (rs.take 15)[i]?)

/-! ## The host exchange -/

/-- R192, R193: the two switch commands latch their record (the model's choice for the rows, log 17) and go on with their
transmission and the echo. That this start is a step of its own is the model's choice (log 12). -/
def Obligations.SwitchCommandsTransmitThenEcho : Prop :=
  ∀ (tag : Byte) (rid : RemoteId) (key : Byte) (pad : BitVec 24) (s : State),
    exec (.switch tag rid key pad) s = .next
      { s with
        cur := ⟨tag, s.cfg.kindSwitch, rid, key, pad⟩
        todo := .op (.transmit rid key true true) :: .prim .reply :: s.todo } ∧
    exec (.switchLegacy tag rid key pad) s = .next
      { s with
        cur := ⟨tag, s.cfg.kindSwitchLegacy, rid, key, pad⟩
        todo := .op (.transmit rid key false false) :: .prim .reply :: s.todo }

/-- R194: an unknown command's record, with its kind replaced and every other byte as it was, is offered to `OQ`;
nothing else of the spec's state changes. That the row latches its record in `CUR` is the model's choice (log 17). -/
def Obligations.UnknownCommandRepliesMarked : Prop :=
  ∀ (tag kind : Byte) (rid : RemoteId) (key : Byte) (pad : BitVec 24) (s : State),
    exec (.unknown tag kind rid key pad) s = .next
      { s with
        cur := ⟨tag, kind, rid, key, pad⟩
        oq := (s.oq.write ⟨tag, s.cfg.kindErrUnknown, rid, key, pad⟩).1
        ret := .stored (!s.oq.full)
        obs := .wrote .oq (!s.oq.full) :: s.obs }

/-- The three rows that are data the device makes, as instructions: the transmit word is latched in `ENCW`, and a record
the device emits is offered to `OQ`. The model's choices (logs 18 and 19). -/
def Obligations.DataRowsActAsChosen : Prop :=
  ∀ s : State,
    (∀ (rid : RemoteId) (key : BitVec 7), exec (.txw rid key) s = .next { s with encw := txWord rid key }) ∧
    exec .ready s = .next
      { s with
        oq := (s.oq.write ⟨s.cfg.reportTag, s.cfg.kindReady, s.cfg.rdyRid, s.cfg.rdyKey, 0#24⟩).1
        todo := .prim .readySent :: s.todo
        ret := .stored (!s.oq.full)
        obs := .wrote .oq (!s.oq.full) :: s.obs } ∧
    (∀ (tag : Byte) (rid : RemoteId) (key : Byte) (pad : BitVec 24), exec (.errUnknown tag rid key pad) s = .next
      { s with
        oq := (s.oq.write ⟨tag, s.cfg.kindErrUnknown, rid, key, pad⟩).1
        ret := .stored (!s.oq.full)
        obs := .wrote .oq (!s.oq.full) :: s.obs })

/-- R195: `BOOT_READY` offers the ready record once, whatever the queue answers, and `RDY_SENT <- 1` is the next
statement. -/
def Obligations.BootReadyOffersReadyOnce : Prop :=
  ∀ s : State,
    (s.rdySent = false → exec .bootReady s = .next
      { s with
        oq := (s.oq.write ⟨s.cfg.reportTag, s.cfg.kindReady, s.cfg.rdyRid, s.cfg.rdyKey, 0#24⟩).1
        todo := .prim .readySent :: s.todo
        ret := .stored (!s.oq.full)
        obs := .wrote .oq (!s.oq.full) :: s.obs }) ∧
    primStep .readySent s = { s with rdySent := true } ∧
    (s.rdySent = true → exec .bootReady s = .next s)

/-- R191: `DISPATCH` decodes only the kind of the record in `CUR` and runs the arm, which answers a next state. -/
def Obligations.DispatchRunsTheArm : Prop :=
  ∀ s : State,
    (s.cur.kind = s.cfg.kindSwitch → exec .dispatch s = .next
      { s with todo := .op (.transmit s.cur.rid s.cur.key true true) :: .prim .reply :: s.todo }) ∧
    (s.cur.kind = s.cfg.kindSwitchLegacy → exec .dispatch s = .next
      { s with todo := .op (.transmit s.cur.rid s.cur.key false false) :: .prim .reply :: s.todo }) ∧
    (s.cur.kind ≠ s.cfg.kindSwitch → s.cur.kind ≠ s.cfg.kindSwitchLegacy → exec .dispatch s = .next
      { s with
        oq := (s.oq.write { s.cur with kind := s.cfg.kindErrUnknown }).1
        ret := .stored (!s.oq.full)
        obs := .wrote .oq (!s.oq.full) :: s.obs })

/-- R197: the main loop boots once and then repeats service, fetch, dispatch; a fetched record is latched in `CUR`
in the statement after the fetch. That entering `MAIN_LOOP` and each round are steps of their own is the model's choice
(log 12). -/
def Obligations.MainLoopServesFetchesDispatches : Prop :=
  ∀ s : State,
    exec .mainLoop s = .next { s with todo := .op .bootReady :: .prim .loop :: s.todo } ∧
    primStep .loop s = { s with todo := .op .xportService :: .prim .fetch :: .prim .loop :: s.todo } ∧
    (s.iq.head = s.iq.tail → primStep .fetch s = { s with ret := .taken none }) ∧
    (s.iq.head ≠ s.iq.tail → primStep .fetch s =
      { s with
        iq := ⟨s.iq.mem, s.iq.head, s.iq.tail + 1#4⟩
        ret := .taken (some (memRead s.iq.mem s.iq.tail))
        todo := .prim (.latch (memRead s.iq.mem s.iq.tail)) :: .op .dispatch :: s.todo }) ∧
    (∀ r : Record, primStep (.latch r) s = { s with cur := r })

/-- R200: at a service point the transport's actions, the next that are fixed in advance or else a free list, become
MAIN's next statements: `Q_WRITE` on `IQ`, `Q_READ` on `OQ` (log 10). -/
def Obligations.ServicePointRunsTransportActions : Prop :=
  ∀ (s : State) (task : TransportAction → Task),
    (∀ r : Record, task (.enqueue r) = .op (.qWrite .iq r)) → task .serve = .op (.qRead .oq) →
    (∀ (acts : List TransportAction) (rest : List (List TransportAction)), s.xport = acts :: rest →
      exec .xportService s = .next { s with xport := rest, todo := acts.map task ++ s.todo }) ∧
    (s.xport = [] → exec .xportService s = .next
      { s with served := s.served + 1, todo := (Config.transport s.served).map task ++ s.todo })

/-- R201, R203, R202: the host accepts a reply exactly if kind, rid and key match, with no effect on the device; it
retries a failed read once, after the fixed delay, and never sends the command again (the exchange is the model's function,
log 26). -/
def Obligations.HostVerifiesAndRetriesReadOnce : Prop :=
  ∀ (sent reply : Record) (s : State) (second : Option Record),
    exec (.hostVerify sent reply) s = .next
      { s with ret := .accepted (decide (reply.kind = sent.kind ∧ reply.rid = sent.rid ∧ reply.key = sent.key)) } ∧
    hostExchange s.cfg sent (some reply) second = (hostVerdict sent reply, 0) ∧
    hostExchange s.cfg sent none (some reply) = (hostVerdict sent reply, s.cfg.hostRetryDelay) ∧
    hostExchange s.cfg sent none none = (.gaveUp, s.cfg.hostRetryDelay) ∧
    (hostVerdict sent reply = .accepted ↔
      reply.kind = sent.kind ∧ reply.rid = sent.rid ∧ reply.key = sent.key)

/-! ## The timer's other owner -/

/-- R248: the other owner writes the timer only while `OWN = 0` and without enabling an engine interrupt; the moves the
premise excludes are refused (log 14). -/
def Obligations.OtherOwnerKeepsThePremise : Prop :=
  ∀ (s : State) (w : OwnerWrite), s.choice = .owner w →
    (s.own = true → step s = .refused .ownerWroteBorrowedTimer) ∧
    (s.own = false → enginesOff w.tien = false → step s = .refused .ownerEnabledEngineIrq) ∧
    (s.own = false → enginesOff w.tien = true → step s = .next
      { s.consume with
        tctl := w.tctl
        tien := w.tien
        tifr := w.tifr
        cnt := w.cnt % 2 ^ s.cfg.w
        cmpa := w.cmpa % 2 ^ s.cfg.w
        cmpb := w.cmpb % 2 ^ s.cfg.w
        cmpc := w.cmpc % 2 ^ s.cfg.w })

/-! ## Invariants of every step -/

/-- The invariant behind R42, kept by every step: MAIN's in the controller's order, interrupts, ticks, and the moves of
the timer's other owner. -/
def Obligations.StepKeepsInvariant : Prop :=
  ∀ s t : State, s.Inv → step s = .next t → t.Inv

/-- R42 (a), (b), (c), (e) and R23 hold of every state that meets the invariant. -/
def Obligations.InvariantGivesR42 : Prop :=
  ∀ s : State, s.Inv → s.R42 ∧ (s.own = false → s.es = .idle)

/-- Every step keeps both queue stores in canonical form, the model's representation (logs 6 and 25). -/
def Obligations.StepKeepsStoresCanonical : Prop :=
  ∀ s t : State, s.iq.mem.wf → s.oq.mem.wf → step s = .next t → t.iq.mem.wf ∧ t.oq.mem.wf

/-- R210: no step of an agent stops: MAIN, the interrupt and the timer always have a next state. -/
def Obligations.AgentStepAlwaysAnswers : Prop :=
  ∀ (s : State) (a : Agent), s.choice = .agent a → ∃ t : State, step s = .next t

/-- No step changes the parameters (R7). -/
def Obligations.StepKeepsParameters : Prop :=
  ∀ s t : State, step s = .next t → t.cfg = s.cfg
end

