-- ==== Sys2Proof/Laws/Memory.lean ====
section
/-! SUPPORT. The laws of a queue store: read after write, the canonical form, slots, and the two queue operations. -/

namespace Sys2Proof.Machine

open Sys2Proof

/-! ## Bytes -/

/-- The part of the canonical form that orders the offsets. -/
abbrev Memory.sorted (m : Memory) : Prop := m.Pairwise (fun a b => a.1 < b.1)

theorem Memory.wf.sorted {m : Memory} (h : m.wf) : m.sorted := h.1

@[simp] theorem Memory.read_nil (a : Nat) : Memory.read [] a = Memory.unlisted := rfl

theorem Memory.read_cons (k : Nat) (v : Byte) (m : Memory) (a : Nat) :
    Memory.read ((k, v) :: m) a = if k = a then v else Memory.read m a := rfl

theorem Memory.read_of_lt {m : Memory} {a : Nat} (h : ∀ c ∈ m, a < c.1) : m.read a = Memory.unlisted := by
  induction m with
  | nil => rfl
  | cons c m ih =>
    obtain ⟨k, v⟩ := c
    have hk : a < k := h (k, v) (by simp)
    rw [Memory.read_cons, if_neg (by omega)]
    exact ih fun d hd => h d (by simp [hd])

theorem Memory.read_write (m : Memory) (hs : m.sorted) (a : Nat) (b : Byte) (x : Nat) :
    (m.write a b).read x = if x = a then b else m.read x := by
  induction m with
  | nil =>
    by_cases hb : b = Memory.unlisted
    · simp [Memory.write, hb]
    · rw [Memory.write, if_neg hb, Memory.read_cons]
      exact if_congr eq_comm rfl rfl
  | cons c m ih =>
    obtain ⟨k, v⟩ := c
    obtain ⟨hk, hm⟩ := List.pairwise_cons.1 hs
    rcases lt_trichotomy a k with h1 | h1 | h1
    · have hlow : Memory.read ((k, v) :: m) a = Memory.unlisted := Memory.read_of_lt fun d hd => by
        rcases List.mem_cons.1 hd with rfl | hd
        · exact h1
        · exact lt_trans h1 (hk d hd)
      rw [Memory.write, if_pos h1]
      by_cases hb : b = Memory.unlisted
      · rw [if_pos hb]
        split
        · subst x
          rw [hlow, hb]
        · rfl
      · rw [if_neg hb, Memory.read_cons]
        exact if_congr eq_comm rfl rfl
    · subst h1
      have hlow : Memory.read m a = Memory.unlisted := Memory.read_of_lt fun d hd => hk d hd
      rw [Memory.write, if_neg (lt_irrefl a), if_pos rfl]
      by_cases hb : b = Memory.unlisted
      · rw [if_pos hb]
        split
        · subst x
          rw [hlow, hb]
        · rw [Memory.read_cons, if_neg (Ne.symm ‹¬x = a›)]
      · rw [if_neg hb, Memory.read_cons, Memory.read_cons]
        split
        · rw [if_pos (Eq.symm ‹a = x›)]
        · rw [if_neg (Ne.symm ‹¬a = x›)]
    · rw [Memory.write, if_neg (by omega), if_neg (by omega), Memory.read_cons, Memory.read_cons, ih hm]
      by_cases hx : x = a
      · rw [if_neg (by omega), if_pos hx, if_pos hx]
      · rw [if_neg hx, if_neg hx]

theorem Memory.mem_write {m : Memory} {a : Nat} {b : Byte} {c : Host.Cell} (h : c ∈ m.write a b) :
    c ∈ m ∨ (c = (a, b) ∧ b ≠ Memory.unlisted) := by
  induction m with
  | nil =>
    by_cases hb : b = Memory.unlisted <;> simp [Memory.write, hb] at h ⊢
    exact h
  | cons d m ih =>
    obtain ⟨k, v⟩ := d
    simp only [Memory.write] at h
    split at h
    · split at h <;> (simp_all; try tauto)
    · split at h
      · split at h <;> (simp_all; try tauto)
      · rcases List.mem_cons.1 h with rfl | h
        · simp
        · rcases ih h with h | h
          · exact .inl (by simp [h])
          · exact .inr h

theorem Memory.sorted_write {m : Memory} (hs : m.sorted) (a : Nat) (b : Byte) : (m.write a b).sorted := by
  induction m with
  | nil => by_cases hb : b = Memory.unlisted <;> simp [Memory.write, hb]
  | cons c m ih =>
    obtain ⟨k, v⟩ := c
    obtain ⟨hk, hm⟩ := List.pairwise_cons.1 hs
    simp only [Memory.write]
    split
    · split
      · exact hs
      · refine List.pairwise_cons.2 ⟨fun d hd => ?_, hs⟩
        rcases List.mem_cons.1 hd with rfl | hd
        · assumption
        · exact lt_trans ‹a < k› (hk d hd)
    · split
      · split
        · exact hm
        · exact List.pairwise_cons.2 ⟨fun d hd => by simpa [‹a = k›] using hk d hd, hm⟩
      · refine List.pairwise_cons.2 ⟨fun d hd => ?_, ih hm⟩
        rcases Memory.mem_write hd with hd | ⟨rfl, -⟩
        · exact hk d hd
        · show k < a
          omega

/-- A byte written inside the store keeps the canonical form. -/
theorem Memory.wf_write {m : Memory} (h : m.wf) {a : Nat} (ha : a < Memory.size) (b : Byte) : (m.write a b).wf := by
  refine ⟨Memory.sorted_write h.1 a b, fun c hc => ?_⟩
  rcases Memory.mem_write hc with hc | ⟨rfl, hb⟩
  · exact h.2 c hc
  · exact ⟨ha, hb⟩

/-! ## Slots -/

theorem slotOffset_lt (slot : SlotIndex) {k : Nat} (hk : k < 8) : slotOffset slot k < Memory.size := by
  have := slot.isLt
  simp only [slotOffset, Memory.size]
  omega

theorem Memory.foldl_write_sorted {m : Memory} (h : m.sorted) (f : Nat → Nat) (g : Nat → Byte) (ks : List Nat) :
    (ks.foldl (fun m k => m.write (f k) (g k)) m).sorted := by
  induction ks generalizing m with
  | nil => exact h
  | cons k ks ih => exact ih (Memory.sorted_write h _ _)

theorem Memory.foldl_write_wf {m : Memory} (h : m.wf) (f : Nat → Nat) (g : Nat → Byte) (ks : List Nat)
    (hf : ∀ k ∈ ks, f k < Memory.size) : (ks.foldl (fun m k => m.write (f k) (g k)) m).wf := by
  induction ks generalizing m with
  | nil => exact h
  | cons k ks ih =>
    exact ih (Memory.wf_write h (hf k (by simp)) _) fun j hj => hf j (by simp [hj])

/-- `MemWrite` keeps the canonical form. -/
theorem memWrite_wf {m : Memory} (h : m.wf) (slot : SlotIndex) (r : Record) : (memWrite m slot r).wf :=
  Memory.foldl_write_wf h _ _ _ fun k hk => slotOffset_lt slot (by simpa using hk)

/-- Everything `MemWrite` does to the bytes of the store (R62). -/
theorem read_memWrite {m : Memory} (h : m.wf) (slot : SlotIndex) (r : Record) (x : Nat) :
    (memWrite m slot r).read x =
      if 8 * slot.toNat ≤ x ∧ x < 8 * slot.toNat + 8 then r.byte (x - 8 * slot.toNat) else m.read x := by
  have aux : ∀ (n : Nat),
      ((List.range n).foldl (fun m k => m.write (slotOffset slot k) (r.byte k)) m).read x =
        if 8 * slot.toNat ≤ x ∧ x < 8 * slot.toNat + n then r.byte (x - 8 * slot.toNat) else m.read x := by
    intro n
    induction n with
    | zero =>
      rw [if_neg (by omega)]
      rfl
    | succ n ih =>
      rw [List.range_succ, List.foldl_append, List.foldl_cons, List.foldl_nil,
        Memory.read_write _ (Memory.foldl_write_sorted h.sorted _ _ _), ih]
      have e : slotOffset slot n = 8 * slot.toNat + n := rfl
      by_cases hx : x = slotOffset slot n
      · rw [if_pos hx, if_pos (by omega)]
        congr 1
        omega
      · rw [if_neg hx]
        by_cases hy : 8 * slot.toNat ≤ x ∧ x < 8 * slot.toNat + n
        · rw [if_pos hy, if_pos (by omega)]
        · rw [if_neg hy, if_neg (by omega)]
  exact aux 8

/-! ## Records as bytes -/

/-- The 64-bit view determines the record. -/
@[simp] theorem Record.ofWord_toWord (r : Record) : Record.ofWord r.toWord = r := by
  obtain ⟨tag, kind, rid, key, pad⟩ := r
  simp only [Record.ofWord, Record.toWord, Record.mk.injEq]
  refine ⟨?_, ?_, ?_, ?_, ?_⟩ <;>
    (ext i hi
     simp only [BitVec.getElem_extractLsb', BitVec.getLsbD_append]
     simp only [← BitVec.getLsbD_eq_getElem]
     repeat' split
     all_goals first
       | omega
       | (congr 1; omega))

@[simp] theorem Record.toWord_ofWord (w : RecordWord) : (Record.ofWord w).toWord = w := by
  simp only [Record.ofWord, Record.toWord]
  ext i hi
  simp only [BitVec.getElem_append, BitVec.getElem_extractLsb']
  simp only [← BitVec.getLsbD_eq_getElem]
  repeat' split
  all_goals (congr 1; omega)

/-- A record is its 8 bytes. -/
@[simp] theorem Record.ofBytes_byte (r : Record) : Record.ofBytes r.byte = r := by
  have h : (r.byte 7 ++ r.byte 6 ++ r.byte 5 ++ r.byte 4 ++ r.byte 3 ++ r.byte 2 ++ r.byte 1 ++ r.byte 0 : RecordWord)
      = r.toWord := by
    simp only [Record.byte]
    ext i hi
    simp only [BitVec.getElem_append, BitVec.getElem_extractLsb']
    simp only [← BitVec.getLsbD_eq_getElem]
    repeat' split
    all_goals (congr 1; omega)
  rw [Record.ofBytes, h, Record.ofWord_toWord]

theorem Record.ofBytes_congr {f g : Nat → Byte} (h : ∀ k < 8, f k = g k) : Record.ofBytes f = Record.ofBytes g := by
  simp only [Record.ofBytes, h 0 (by omega), h 1 (by omega), h 2 (by omega), h 3 (by omega), h 4 (by omega),
    h 5 (by omega), h 6 (by omega), h 7 (by omega)]

/-- `MemRead` after `MemWrite` (R61, R62): the record stored, and every other slot as before. -/
theorem memRead_memWrite {m : Memory} (h : m.wf) (slot x : SlotIndex) (r : Record) :
    memRead (memWrite m slot r) x = if x = slot then r else memRead m x := by
  split
  · subst x
    rw [memRead, Record.ofBytes_congr (g := r.byte), Record.ofBytes_byte]
    intro k hk
    rw [read_memWrite h, slotOffset, if_pos (by omega)]
    congr 1
    omega
  · have hne : x.toNat ≠ slot.toNat := fun e => ‹¬x = slot› (BitVec.eq_of_toNat_eq e)
    refine Record.ofBytes_congr fun k hk => ?_
    rw [read_memWrite h, slotOffset, if_neg (by omega)]

/-! ## The queue operations -/

/-- Everything `Q_WRITE` can do (R176). -/
theorem Queue.write_cases (q : Queue) (r : Record) :
    (q.full = true ∧ q.write r = (q, false)) ∨
    (q.full = false ∧ q.write r = (⟨memWrite q.mem q.head r, q.head + 1#4, q.tail⟩, true)) := by
  cases h : q.full <;> simp [Queue.write, h]

/-- Everything `Q_READ` can do (R177). -/
theorem Queue.read_cases (q : Queue) :
    (q.empty = true ∧ q.read = (q, none)) ∨
    (q.empty = false ∧ q.read = (⟨q.mem, q.head, q.tail + 1#4⟩, some (memRead q.mem q.tail))) := by
  cases h : q.empty <;> simp [Queue.read, h]

/-- `Q_WRITE` keeps the store's canonical form. -/
theorem Queue.write_wf {q : Queue} (h : q.mem.wf) (r : Record) : (q.write r).1.mem.wf := by
  rcases q.write_cases r with ⟨-, e⟩ | ⟨-, e⟩ <;> rw [e]
  · exact h
  · exact memWrite_wf h _ _

/-- `Q_READ` leaves the store as it is. -/
@[simp] theorem Queue.read_mem (q : Queue) : q.read.1.mem = q.mem := by
  rcases q.read_cases with ⟨-, e⟩ | ⟨-, e⟩ <;> rw [e]

/-- The stores at reset are in canonical form. -/
theorem reset_mem_wf : State.reset.iq.mem.wf ∧ State.reset.oq.mem.wf := by decide

end Sys2Proof.Machine
end

