-- ==== Sys2Proof/Laws/State.lean ====
section
/-! SUPPORT. One lemma per field per update of the state, each true by rfl, so that no later proof unfolds a record
update. -/

namespace Sys2Proof.Machine

open Sys2Proof

/-! ## `push` -/

@[simp] theorem push_cfg (s : State) (ts : List Task) : (s.push ts).cfg = s.cfg := rfl

@[simp] theorem push_buf (s : State) (ts : List Task) : (s.push ts).buf = s.buf := rfl

@[simp] theorem push_pin (s : State) (ts : List Task) : (s.push ts).pin = s.pin := rfl

@[simp] theorem push_es (s : State) (ts : List Task) : (s.push ts).es = s.es := rfl

@[simp] theorem push_own (s : State) (ts : List Task) : (s.push ts).own = s.own := rfl

@[simp] theorem push_encw (s : State) (ts : List Task) : (s.push ts).encw = s.encw := rfl

@[simp] theorem push_rep (s : State) (ts : List Task) : (s.push ts).rep = s.rep := rfl

@[simp] theorem push_ph (s : State) (ts : List Task) : (s.push ts).ph = s.ph := rfl

@[simp] theorem push_hwsel (s : State) (ts : List Task) : (s.push ts).hwsel = s.hwsel := rfl

@[simp] theorem push_cur (s : State) (ts : List Task) : (s.push ts).cur = s.cur := rfl

@[simp] theorem push_rdySent (s : State) (ts : List Task) : (s.push ts).rdySent = s.rdySent := rfl

@[simp] theorem push_snap (s : State) (ts : List Task) : (s.push ts).snap = s.snap := rfl

@[simp] theorem push_cnt (s : State) (ts : List Task) : (s.push ts).cnt = s.cnt := rfl

@[simp] theorem push_tctl (s : State) (ts : List Task) : (s.push ts).tctl = s.tctl := rfl

@[simp] theorem push_tien (s : State) (ts : List Task) : (s.push ts).tien = s.tien := rfl

@[simp] theorem push_tifr (s : State) (ts : List Task) : (s.push ts).tifr = s.tifr := rfl

@[simp] theorem push_cmpa (s : State) (ts : List Task) : (s.push ts).cmpa = s.cmpa := rfl

@[simp] theorem push_cmpb (s : State) (ts : List Task) : (s.push ts).cmpb = s.cmpb := rfl

@[simp] theorem push_cmpc (s : State) (ts : List Task) : (s.push ts).cmpc = s.cmpc := rfl

@[simp] theorem push_gie (s : State) (ts : List Task) : (s.push ts).gie = s.gie := rfl

@[simp] theorem push_inh (s : State) (ts : List Task) : (s.push ts).inh = s.inh := rfl

@[simp] theorem push_iq (s : State) (ts : List Task) : (s.push ts).iq = s.iq := rfl

@[simp] theorem push_oq (s : State) (ts : List Task) : (s.push ts).oq = s.oq := rfl

@[simp] theorem push_todo (s : State) (ts : List Task) : (s.push ts).todo = ts ++ s.todo := rfl

@[simp] theorem push_agenda (s : State) (ts : List Task) : (s.push ts).agenda = s.agenda := rfl

@[simp] theorem push_drawn (s : State) (ts : List Task) : (s.push ts).drawn = s.drawn := rfl

@[simp] theorem push_xport (s : State) (ts : List Task) : (s.push ts).xport = s.xport := rfl

@[simp] theorem push_served (s : State) (ts : List Task) : (s.push ts).served = s.served := rfl

@[simp] theorem push_ret (s : State) (ts : List Task) : (s.push ts).ret = s.ret := rfl

@[simp] theorem push_trace (s : State) (ts : List Task) : (s.push ts).trace = s.trace := rfl

@[simp] theorem push_segTicks (s : State) (ts : List Task) : (s.push ts).segTicks = s.segTicks := rfl

@[simp] theorem push_segNs (s : State) (ts : List Task) : (s.push ts).segNs = s.segNs := rfl

@[simp] theorem push_obs (s : State) (ts : List Task) : (s.push ts).obs = s.obs := rfl

/-! ## `setQueue` -/

@[simp] theorem setQueue_cfg (s : State) (q : QueueId) (v : Queue) : (s.setQueue q v).cfg = s.cfg := rfl

@[simp] theorem setQueue_buf (s : State) (q : QueueId) (v : Queue) : (s.setQueue q v).buf = s.buf := rfl

@[simp] theorem setQueue_pin (s : State) (q : QueueId) (v : Queue) : (s.setQueue q v).pin = s.pin := rfl

@[simp] theorem setQueue_es (s : State) (q : QueueId) (v : Queue) : (s.setQueue q v).es = s.es := rfl

@[simp] theorem setQueue_own (s : State) (q : QueueId) (v : Queue) : (s.setQueue q v).own = s.own := rfl

@[simp] theorem setQueue_encw (s : State) (q : QueueId) (v : Queue) : (s.setQueue q v).encw = s.encw := rfl

@[simp] theorem setQueue_rep (s : State) (q : QueueId) (v : Queue) : (s.setQueue q v).rep = s.rep := rfl

@[simp] theorem setQueue_ph (s : State) (q : QueueId) (v : Queue) : (s.setQueue q v).ph = s.ph := rfl

@[simp] theorem setQueue_hwsel (s : State) (q : QueueId) (v : Queue) : (s.setQueue q v).hwsel = s.hwsel := rfl

@[simp] theorem setQueue_cur (s : State) (q : QueueId) (v : Queue) : (s.setQueue q v).cur = s.cur := rfl

@[simp] theorem setQueue_rdySent (s : State) (q : QueueId) (v : Queue) : (s.setQueue q v).rdySent = s.rdySent := rfl

@[simp] theorem setQueue_snap (s : State) (q : QueueId) (v : Queue) : (s.setQueue q v).snap = s.snap := rfl

@[simp] theorem setQueue_cnt (s : State) (q : QueueId) (v : Queue) : (s.setQueue q v).cnt = s.cnt := rfl

@[simp] theorem setQueue_tctl (s : State) (q : QueueId) (v : Queue) : (s.setQueue q v).tctl = s.tctl := rfl

@[simp] theorem setQueue_tien (s : State) (q : QueueId) (v : Queue) : (s.setQueue q v).tien = s.tien := rfl

@[simp] theorem setQueue_tifr (s : State) (q : QueueId) (v : Queue) : (s.setQueue q v).tifr = s.tifr := rfl

@[simp] theorem setQueue_cmpa (s : State) (q : QueueId) (v : Queue) : (s.setQueue q v).cmpa = s.cmpa := rfl

@[simp] theorem setQueue_cmpb (s : State) (q : QueueId) (v : Queue) : (s.setQueue q v).cmpb = s.cmpb := rfl

@[simp] theorem setQueue_cmpc (s : State) (q : QueueId) (v : Queue) : (s.setQueue q v).cmpc = s.cmpc := rfl

@[simp] theorem setQueue_gie (s : State) (q : QueueId) (v : Queue) : (s.setQueue q v).gie = s.gie := rfl

@[simp] theorem setQueue_inh (s : State) (q : QueueId) (v : Queue) : (s.setQueue q v).inh = s.inh := rfl

@[simp] theorem setQueue_iq (s : State) (q : QueueId) (v : Queue) :
    (s.setQueue q v).iq = match q with | .iq => v | .oq => s.iq := rfl

@[simp] theorem setQueue_oq (s : State) (q : QueueId) (v : Queue) :
    (s.setQueue q v).oq = match q with | .iq => s.oq | .oq => v := rfl

@[simp] theorem setQueue_todo (s : State) (q : QueueId) (v : Queue) : (s.setQueue q v).todo = s.todo := rfl

@[simp] theorem setQueue_agenda (s : State) (q : QueueId) (v : Queue) : (s.setQueue q v).agenda = s.agenda := rfl

@[simp] theorem setQueue_drawn (s : State) (q : QueueId) (v : Queue) : (s.setQueue q v).drawn = s.drawn := rfl

@[simp] theorem setQueue_xport (s : State) (q : QueueId) (v : Queue) : (s.setQueue q v).xport = s.xport := rfl

@[simp] theorem setQueue_served (s : State) (q : QueueId) (v : Queue) : (s.setQueue q v).served = s.served := rfl

@[simp] theorem setQueue_ret (s : State) (q : QueueId) (v : Queue) : (s.setQueue q v).ret = s.ret := rfl

@[simp] theorem setQueue_trace (s : State) (q : QueueId) (v : Queue) : (s.setQueue q v).trace = s.trace := rfl

@[simp] theorem setQueue_segTicks (s : State) (q : QueueId) (v : Queue) :
    (s.setQueue q v).segTicks = s.segTicks := rfl

@[simp] theorem setQueue_segNs (s : State) (q : QueueId) (v : Queue) : (s.setQueue q v).segNs = s.segNs := rfl

@[simp] theorem setQueue_obs (s : State) (q : QueueId) (v : Queue) : (s.setQueue q v).obs = s.obs := rfl

/-! ## `drivePin` -/

@[simp] theorem drivePin_cfg (l : Bool) (s : State) : (drivePin l s).cfg = s.cfg := rfl

@[simp] theorem drivePin_buf (l : Bool) (s : State) : (drivePin l s).buf = s.buf := rfl

@[simp] theorem drivePin_pin (l : Bool) (s : State) : (drivePin l s).pin = l := rfl

@[simp] theorem drivePin_es (l : Bool) (s : State) : (drivePin l s).es = s.es := rfl

@[simp] theorem drivePin_own (l : Bool) (s : State) : (drivePin l s).own = s.own := rfl

@[simp] theorem drivePin_encw (l : Bool) (s : State) : (drivePin l s).encw = s.encw := rfl

@[simp] theorem drivePin_rep (l : Bool) (s : State) : (drivePin l s).rep = s.rep := rfl

@[simp] theorem drivePin_ph (l : Bool) (s : State) : (drivePin l s).ph = s.ph := rfl

@[simp] theorem drivePin_hwsel (l : Bool) (s : State) : (drivePin l s).hwsel = s.hwsel := rfl

@[simp] theorem drivePin_cur (l : Bool) (s : State) : (drivePin l s).cur = s.cur := rfl

@[simp] theorem drivePin_rdySent (l : Bool) (s : State) : (drivePin l s).rdySent = s.rdySent := rfl

@[simp] theorem drivePin_snap (l : Bool) (s : State) : (drivePin l s).snap = s.snap := rfl

@[simp] theorem drivePin_cnt (l : Bool) (s : State) : (drivePin l s).cnt = s.cnt := rfl

@[simp] theorem drivePin_tctl (l : Bool) (s : State) : (drivePin l s).tctl = s.tctl := rfl

@[simp] theorem drivePin_tien (l : Bool) (s : State) : (drivePin l s).tien = s.tien := rfl

@[simp] theorem drivePin_tifr (l : Bool) (s : State) : (drivePin l s).tifr = s.tifr := rfl

@[simp] theorem drivePin_cmpa (l : Bool) (s : State) : (drivePin l s).cmpa = s.cmpa := rfl

@[simp] theorem drivePin_cmpb (l : Bool) (s : State) : (drivePin l s).cmpb = s.cmpb := rfl

@[simp] theorem drivePin_cmpc (l : Bool) (s : State) : (drivePin l s).cmpc = s.cmpc := rfl

@[simp] theorem drivePin_gie (l : Bool) (s : State) : (drivePin l s).gie = s.gie := rfl

@[simp] theorem drivePin_inh (l : Bool) (s : State) : (drivePin l s).inh = s.inh := rfl

@[simp] theorem drivePin_iq (l : Bool) (s : State) : (drivePin l s).iq = s.iq := rfl

@[simp] theorem drivePin_oq (l : Bool) (s : State) : (drivePin l s).oq = s.oq := rfl

@[simp] theorem drivePin_todo (l : Bool) (s : State) : (drivePin l s).todo = s.todo := rfl

@[simp] theorem drivePin_agenda (l : Bool) (s : State) : (drivePin l s).agenda = s.agenda := rfl

@[simp] theorem drivePin_drawn (l : Bool) (s : State) : (drivePin l s).drawn = s.drawn := rfl

@[simp] theorem drivePin_xport (l : Bool) (s : State) : (drivePin l s).xport = s.xport := rfl

@[simp] theorem drivePin_served (l : Bool) (s : State) : (drivePin l s).served = s.served := rfl

@[simp] theorem drivePin_ret (l : Bool) (s : State) : (drivePin l s).ret = s.ret := rfl

@[simp] theorem drivePin_trace (l : Bool) (s : State) :
    (drivePin l s).trace = if l = s.pin then s.trace else ⟨s.pin, s.segTicks, s.segNs⟩ :: s.trace := rfl

@[simp] theorem drivePin_segTicks (l : Bool) (s : State) :
    (drivePin l s).segTicks = if l = s.pin then s.segTicks else 0 := rfl

@[simp] theorem drivePin_segNs (l : Bool) (s : State) :
    (drivePin l s).segNs = if l = s.pin then s.segNs else 0 := rfl

@[simp] theorem drivePin_obs (l : Bool) (s : State) : (drivePin l s).obs = s.obs := rfl

/-! ## `emitSymbol` -/

@[simp] theorem emitSymbol_cfg (b : Bool) (s : State) : (emitSymbol b s).cfg = s.cfg := rfl

@[simp] theorem emitSymbol_buf (b : Bool) (s : State) : (emitSymbol b s).buf = s.buf >>> 1 := rfl

@[simp] theorem emitSymbol_pin (b : Bool) (s : State) : (emitSymbol b s).pin = !s.pin := rfl

@[simp] theorem emitSymbol_es (b : Bool) (s : State) : (emitSymbol b s).es = s.es := rfl

@[simp] theorem emitSymbol_own (b : Bool) (s : State) : (emitSymbol b s).own = s.own := rfl

@[simp] theorem emitSymbol_encw (b : Bool) (s : State) : (emitSymbol b s).encw = s.encw := rfl

@[simp] theorem emitSymbol_rep (b : Bool) (s : State) : (emitSymbol b s).rep = s.rep := rfl

@[simp] theorem emitSymbol_ph (b : Bool) (s : State) : (emitSymbol b s).ph = s.ph := rfl

@[simp] theorem emitSymbol_hwsel (b : Bool) (s : State) : (emitSymbol b s).hwsel = s.hwsel := rfl

@[simp] theorem emitSymbol_cur (b : Bool) (s : State) : (emitSymbol b s).cur = s.cur := rfl

@[simp] theorem emitSymbol_rdySent (b : Bool) (s : State) : (emitSymbol b s).rdySent = s.rdySent := rfl

@[simp] theorem emitSymbol_snap (b : Bool) (s : State) : (emitSymbol b s).snap = s.snap := rfl

@[simp] theorem emitSymbol_cnt (b : Bool) (s : State) : (emitSymbol b s).cnt = s.cnt := rfl

@[simp] theorem emitSymbol_tctl (b : Bool) (s : State) : (emitSymbol b s).tctl = s.tctl := rfl

@[simp] theorem emitSymbol_tien (b : Bool) (s : State) : (emitSymbol b s).tien = s.tien := rfl

@[simp] theorem emitSymbol_tifr (b : Bool) (s : State) : (emitSymbol b s).tifr = s.tifr := rfl

@[simp] theorem emitSymbol_cmpa (b : Bool) (s : State) :
    (emitSymbol b s).cmpa = if b then s.cfg.tFull else 2 * s.cfg.tHalf := rfl

@[simp] theorem emitSymbol_cmpb (b : Bool) (s : State) :
    (emitSymbol b s).cmpb = if b then s.cfg.inert else s.cfg.tHalf := rfl

@[simp] theorem emitSymbol_cmpc (b : Bool) (s : State) : (emitSymbol b s).cmpc = s.cmpc := rfl

@[simp] theorem emitSymbol_gie (b : Bool) (s : State) : (emitSymbol b s).gie = s.gie := rfl

@[simp] theorem emitSymbol_inh (b : Bool) (s : State) : (emitSymbol b s).inh = s.inh := rfl

@[simp] theorem emitSymbol_iq (b : Bool) (s : State) : (emitSymbol b s).iq = s.iq := rfl

@[simp] theorem emitSymbol_oq (b : Bool) (s : State) : (emitSymbol b s).oq = s.oq := rfl

@[simp] theorem emitSymbol_todo (b : Bool) (s : State) : (emitSymbol b s).todo = s.todo := rfl

@[simp] theorem emitSymbol_agenda (b : Bool) (s : State) : (emitSymbol b s).agenda = s.agenda := rfl

@[simp] theorem emitSymbol_drawn (b : Bool) (s : State) : (emitSymbol b s).drawn = s.drawn := rfl

@[simp] theorem emitSymbol_xport (b : Bool) (s : State) : (emitSymbol b s).xport = s.xport := rfl

@[simp] theorem emitSymbol_served (b : Bool) (s : State) : (emitSymbol b s).served = s.served := rfl

@[simp] theorem emitSymbol_ret (b : Bool) (s : State) : (emitSymbol b s).ret = s.ret := rfl

@[simp] theorem emitSymbol_trace (b : Bool) (s : State) :
    (emitSymbol b s).trace = (drivePin (!s.pin) s).trace := rfl

@[simp] theorem emitSymbol_segTicks (b : Bool) (s : State) :
    (emitSymbol b s).segTicks = (drivePin (!s.pin) s).segTicks := rfl

@[simp] theorem emitSymbol_segNs (b : Bool) (s : State) :
    (emitSymbol b s).segNs = (drivePin (!s.pin) s).segNs := rfl

@[simp] theorem emitSymbol_obs (b : Bool) (s : State) : (emitSymbol b s).obs = s.obs := rfl

/-! ## `secondaryBody` -/

@[simp] theorem secondaryBody_cfg (s : State) : (secondaryBody s).cfg = s.cfg := rfl

@[simp] theorem secondaryBody_buf (s : State) : (secondaryBody s).buf = s.buf := rfl

@[simp] theorem secondaryBody_pin (s : State) : (secondaryBody s).pin = !s.pin := rfl

@[simp] theorem secondaryBody_es (s : State) : (secondaryBody s).es = s.es := rfl

@[simp] theorem secondaryBody_own (s : State) : (secondaryBody s).own = s.own := rfl

@[simp] theorem secondaryBody_encw (s : State) : (secondaryBody s).encw = s.encw := rfl

@[simp] theorem secondaryBody_rep (s : State) : (secondaryBody s).rep = s.rep := rfl

@[simp] theorem secondaryBody_ph (s : State) : (secondaryBody s).ph = s.ph := rfl

@[simp] theorem secondaryBody_hwsel (s : State) : (secondaryBody s).hwsel = s.hwsel := rfl

@[simp] theorem secondaryBody_cur (s : State) : (secondaryBody s).cur = s.cur := rfl

@[simp] theorem secondaryBody_rdySent (s : State) : (secondaryBody s).rdySent = s.rdySent := rfl

@[simp] theorem secondaryBody_snap (s : State) : (secondaryBody s).snap = s.snap := rfl

@[simp] theorem secondaryBody_cnt (s : State) : (secondaryBody s).cnt = s.cnt := rfl

@[simp] theorem secondaryBody_tctl (s : State) : (secondaryBody s).tctl = s.tctl := rfl

@[simp] theorem secondaryBody_tien (s : State) : (secondaryBody s).tien = s.tien := rfl

@[simp] theorem secondaryBody_tifr (s : State) : (secondaryBody s).tifr = s.tifr := rfl

@[simp] theorem secondaryBody_cmpa (s : State) : (secondaryBody s).cmpa = s.cmpa := rfl

@[simp] theorem secondaryBody_cmpb (s : State) : (secondaryBody s).cmpb = s.cmpb := rfl

@[simp] theorem secondaryBody_cmpc (s : State) : (secondaryBody s).cmpc = s.cmpc := rfl

@[simp] theorem secondaryBody_gie (s : State) : (secondaryBody s).gie = s.gie := rfl

@[simp] theorem secondaryBody_inh (s : State) : (secondaryBody s).inh = s.inh := rfl

@[simp] theorem secondaryBody_iq (s : State) : (secondaryBody s).iq = s.iq := rfl

@[simp] theorem secondaryBody_oq (s : State) : (secondaryBody s).oq = s.oq := rfl

@[simp] theorem secondaryBody_todo (s : State) : (secondaryBody s).todo = s.todo := rfl

@[simp] theorem secondaryBody_agenda (s : State) : (secondaryBody s).agenda = s.agenda := rfl

@[simp] theorem secondaryBody_drawn (s : State) : (secondaryBody s).drawn = s.drawn := rfl

@[simp] theorem secondaryBody_xport (s : State) : (secondaryBody s).xport = s.xport := rfl

@[simp] theorem secondaryBody_served (s : State) : (secondaryBody s).served = s.served := rfl

@[simp] theorem secondaryBody_ret (s : State) : (secondaryBody s).ret = s.ret := rfl

@[simp] theorem secondaryBody_trace (s : State) : (secondaryBody s).trace = (drivePin (!s.pin) s).trace := rfl

@[simp] theorem secondaryBody_segTicks (s : State) :
    (secondaryBody s).segTicks = (drivePin (!s.pin) s).segTicks := rfl

@[simp] theorem secondaryBody_segNs (s : State) : (secondaryBody s).segNs = (drivePin (!s.pin) s).segNs := rfl

@[simp] theorem secondaryBody_obs (s : State) : (secondaryBody s).obs = s.obs := rfl

/-! ## `irqEnter` -/

@[simp] theorem irqEnter_cfg (s : State) : (irqEnter s).cfg = s.cfg := rfl

@[simp] theorem irqEnter_buf (s : State) : (irqEnter s).buf = s.buf := rfl

@[simp] theorem irqEnter_pin (s : State) : (irqEnter s).pin = s.pin := rfl

@[simp] theorem irqEnter_es (s : State) : (irqEnter s).es = s.es := rfl

@[simp] theorem irqEnter_own (s : State) : (irqEnter s).own = s.own := rfl

@[simp] theorem irqEnter_encw (s : State) : (irqEnter s).encw = s.encw := rfl

@[simp] theorem irqEnter_rep (s : State) : (irqEnter s).rep = s.rep := rfl

@[simp] theorem irqEnter_ph (s : State) : (irqEnter s).ph = s.ph := rfl

@[simp] theorem irqEnter_hwsel (s : State) : (irqEnter s).hwsel = s.hwsel := rfl

@[simp] theorem irqEnter_cur (s : State) : (irqEnter s).cur = s.cur := rfl

@[simp] theorem irqEnter_rdySent (s : State) : (irqEnter s).rdySent = s.rdySent := rfl

@[simp] theorem irqEnter_snap (s : State) : (irqEnter s).snap = s.snap := rfl

@[simp] theorem irqEnter_cnt (s : State) : (irqEnter s).cnt = s.cnt := rfl

@[simp] theorem irqEnter_tctl (s : State) : (irqEnter s).tctl = s.tctl := rfl

@[simp] theorem irqEnter_tien (s : State) : (irqEnter s).tien = s.tien := rfl

@[simp] theorem irqEnter_tifr (s : State) : (irqEnter s).tifr = s.tifr := rfl

@[simp] theorem irqEnter_cmpa (s : State) : (irqEnter s).cmpa = s.cmpa := rfl

@[simp] theorem irqEnter_cmpb (s : State) : (irqEnter s).cmpb = s.cmpb := rfl

@[simp] theorem irqEnter_cmpc (s : State) : (irqEnter s).cmpc = s.cmpc := rfl

@[simp] theorem irqEnter_gie (s : State) : (irqEnter s).gie = false := rfl

@[simp] theorem irqEnter_inh (s : State) : (irqEnter s).inh = true := rfl

@[simp] theorem irqEnter_iq (s : State) : (irqEnter s).iq = s.iq := rfl

@[simp] theorem irqEnter_oq (s : State) : (irqEnter s).oq = s.oq := rfl

@[simp] theorem irqEnter_todo (s : State) : (irqEnter s).todo = s.todo := rfl

@[simp] theorem irqEnter_agenda (s : State) : (irqEnter s).agenda = s.agenda := rfl

@[simp] theorem irqEnter_drawn (s : State) : (irqEnter s).drawn = s.drawn := rfl

@[simp] theorem irqEnter_xport (s : State) : (irqEnter s).xport = s.xport := rfl

@[simp] theorem irqEnter_served (s : State) : (irqEnter s).served = s.served := rfl

@[simp] theorem irqEnter_ret (s : State) : (irqEnter s).ret = s.ret := rfl

@[simp] theorem irqEnter_trace (s : State) : (irqEnter s).trace = s.trace := rfl

@[simp] theorem irqEnter_segTicks (s : State) : (irqEnter s).segTicks = s.segTicks := rfl

@[simp] theorem irqEnter_segNs (s : State) : (irqEnter s).segNs = s.segNs := rfl

@[simp] theorem irqEnter_obs (s : State) : (irqEnter s).obs = s.obs := rfl

/-! ## `irqReturn` -/

@[simp] theorem irqReturn_cfg (s : State) : (irqReturn s).cfg = s.cfg := rfl

@[simp] theorem irqReturn_buf (s : State) : (irqReturn s).buf = s.buf := rfl

@[simp] theorem irqReturn_pin (s : State) : (irqReturn s).pin = s.pin := rfl

@[simp] theorem irqReturn_es (s : State) : (irqReturn s).es = s.es := rfl

@[simp] theorem irqReturn_own (s : State) : (irqReturn s).own = s.own := rfl

@[simp] theorem irqReturn_encw (s : State) : (irqReturn s).encw = s.encw := rfl

@[simp] theorem irqReturn_rep (s : State) : (irqReturn s).rep = s.rep := rfl

@[simp] theorem irqReturn_ph (s : State) : (irqReturn s).ph = s.ph := rfl

@[simp] theorem irqReturn_hwsel (s : State) : (irqReturn s).hwsel = s.hwsel := rfl

@[simp] theorem irqReturn_cur (s : State) : (irqReturn s).cur = s.cur := rfl

@[simp] theorem irqReturn_rdySent (s : State) : (irqReturn s).rdySent = s.rdySent := rfl

@[simp] theorem irqReturn_snap (s : State) : (irqReturn s).snap = s.snap := rfl

@[simp] theorem irqReturn_cnt (s : State) : (irqReturn s).cnt = s.cnt := rfl

@[simp] theorem irqReturn_tctl (s : State) : (irqReturn s).tctl = s.tctl := rfl

@[simp] theorem irqReturn_tien (s : State) : (irqReturn s).tien = s.tien := rfl

@[simp] theorem irqReturn_tifr (s : State) : (irqReturn s).tifr = s.tifr := rfl

@[simp] theorem irqReturn_cmpa (s : State) : (irqReturn s).cmpa = s.cmpa := rfl

@[simp] theorem irqReturn_cmpb (s : State) : (irqReturn s).cmpb = s.cmpb := rfl

@[simp] theorem irqReturn_cmpc (s : State) : (irqReturn s).cmpc = s.cmpc := rfl

@[simp] theorem irqReturn_gie (s : State) : (irqReturn s).gie = true := rfl

@[simp] theorem irqReturn_inh (s : State) : (irqReturn s).inh = false := rfl

@[simp] theorem irqReturn_iq (s : State) : (irqReturn s).iq = s.iq := rfl

@[simp] theorem irqReturn_oq (s : State) : (irqReturn s).oq = s.oq := rfl

@[simp] theorem irqReturn_todo (s : State) : (irqReturn s).todo = s.todo := rfl

@[simp] theorem irqReturn_agenda (s : State) : (irqReturn s).agenda = s.agenda := rfl

@[simp] theorem irqReturn_drawn (s : State) : (irqReturn s).drawn = s.drawn := rfl

@[simp] theorem irqReturn_xport (s : State) : (irqReturn s).xport = s.xport := rfl

@[simp] theorem irqReturn_served (s : State) : (irqReturn s).served = s.served := rfl

@[simp] theorem irqReturn_ret (s : State) : (irqReturn s).ret = s.ret := rfl

@[simp] theorem irqReturn_trace (s : State) : (irqReturn s).trace = s.trace := rfl

@[simp] theorem irqReturn_segTicks (s : State) : (irqReturn s).segTicks = s.segTicks := rfl

@[simp] theorem irqReturn_segNs (s : State) : (irqReturn s).segNs = s.segNs := rfl

@[simp] theorem irqReturn_obs (s : State) : (irqReturn s).obs = s.obs := rfl

/-! ## `enterPrimary` -/

@[simp] theorem enterPrimary_cfg (s : State) : (enterPrimary s).cfg = s.cfg := rfl

@[simp] theorem enterPrimary_buf (s : State) : (enterPrimary s).buf = s.buf := rfl

@[simp] theorem enterPrimary_pin (s : State) : (enterPrimary s).pin = s.pin := rfl

@[simp] theorem enterPrimary_es (s : State) : (enterPrimary s).es = s.es := rfl

@[simp] theorem enterPrimary_own (s : State) : (enterPrimary s).own = s.own := rfl

@[simp] theorem enterPrimary_encw (s : State) : (enterPrimary s).encw = s.encw := rfl

@[simp] theorem enterPrimary_rep (s : State) : (enterPrimary s).rep = s.rep := rfl

@[simp] theorem enterPrimary_ph (s : State) : (enterPrimary s).ph = s.ph := rfl

@[simp] theorem enterPrimary_hwsel (s : State) : (enterPrimary s).hwsel = s.hwsel := rfl

@[simp] theorem enterPrimary_cur (s : State) : (enterPrimary s).cur = s.cur := rfl

@[simp] theorem enterPrimary_rdySent (s : State) : (enterPrimary s).rdySent = s.rdySent := rfl

@[simp] theorem enterPrimary_snap (s : State) : (enterPrimary s).snap = s.snap := rfl

@[simp] theorem enterPrimary_cnt (s : State) : (enterPrimary s).cnt = s.cnt := rfl

@[simp] theorem enterPrimary_tctl (s : State) : (enterPrimary s).tctl = s.tctl := rfl

@[simp] theorem enterPrimary_tien (s : State) : (enterPrimary s).tien = s.tien := rfl

@[simp] theorem enterPrimary_tifr (s : State) : (enterPrimary s).tifr = clearIfa s.tifr := rfl

@[simp] theorem enterPrimary_cmpa (s : State) : (enterPrimary s).cmpa = s.cmpa := rfl

@[simp] theorem enterPrimary_cmpb (s : State) : (enterPrimary s).cmpb = s.cmpb := rfl

@[simp] theorem enterPrimary_cmpc (s : State) : (enterPrimary s).cmpc = s.cmpc := rfl

@[simp] theorem enterPrimary_gie (s : State) : (enterPrimary s).gie = false := rfl

@[simp] theorem enterPrimary_inh (s : State) : (enterPrimary s).inh = true := rfl

@[simp] theorem enterPrimary_iq (s : State) : (enterPrimary s).iq = s.iq := rfl

@[simp] theorem enterPrimary_oq (s : State) : (enterPrimary s).oq = s.oq := rfl

@[simp] theorem enterPrimary_todo (s : State) : (enterPrimary s).todo = s.todo := rfl

@[simp] theorem enterPrimary_agenda (s : State) : (enterPrimary s).agenda = s.agenda := rfl

@[simp] theorem enterPrimary_drawn (s : State) : (enterPrimary s).drawn = s.drawn := rfl

@[simp] theorem enterPrimary_xport (s : State) : (enterPrimary s).xport = s.xport := rfl

@[simp] theorem enterPrimary_served (s : State) : (enterPrimary s).served = s.served := rfl

@[simp] theorem enterPrimary_ret (s : State) : (enterPrimary s).ret = s.ret := rfl

@[simp] theorem enterPrimary_trace (s : State) : (enterPrimary s).trace = s.trace := rfl

@[simp] theorem enterPrimary_segTicks (s : State) : (enterPrimary s).segTicks = s.segTicks := rfl

@[simp] theorem enterPrimary_segNs (s : State) : (enterPrimary s).segNs = s.segNs := rfl

@[simp] theorem enterPrimary_obs (s : State) : (enterPrimary s).obs = s.obs := rfl

/-! ## `enterSecondary` -/

@[simp] theorem enterSecondary_cfg (s : State) : (enterSecondary s).cfg = s.cfg := rfl

@[simp] theorem enterSecondary_buf (s : State) : (enterSecondary s).buf = s.buf := rfl

@[simp] theorem enterSecondary_pin (s : State) : (enterSecondary s).pin = s.pin := rfl

@[simp] theorem enterSecondary_es (s : State) : (enterSecondary s).es = s.es := rfl

@[simp] theorem enterSecondary_own (s : State) : (enterSecondary s).own = s.own := rfl

@[simp] theorem enterSecondary_encw (s : State) : (enterSecondary s).encw = s.encw := rfl

@[simp] theorem enterSecondary_rep (s : State) : (enterSecondary s).rep = s.rep := rfl

@[simp] theorem enterSecondary_ph (s : State) : (enterSecondary s).ph = s.ph := rfl

@[simp] theorem enterSecondary_hwsel (s : State) : (enterSecondary s).hwsel = s.hwsel := rfl

@[simp] theorem enterSecondary_cur (s : State) : (enterSecondary s).cur = s.cur := rfl

@[simp] theorem enterSecondary_rdySent (s : State) : (enterSecondary s).rdySent = s.rdySent := rfl

@[simp] theorem enterSecondary_snap (s : State) : (enterSecondary s).snap = s.snap := rfl

@[simp] theorem enterSecondary_cnt (s : State) : (enterSecondary s).cnt = s.cnt := rfl

@[simp] theorem enterSecondary_tctl (s : State) : (enterSecondary s).tctl = s.tctl := rfl

@[simp] theorem enterSecondary_tien (s : State) : (enterSecondary s).tien = s.tien := rfl

@[simp] theorem enterSecondary_tifr (s : State) : (enterSecondary s).tifr = clearIfb s.tifr := rfl

@[simp] theorem enterSecondary_cmpa (s : State) : (enterSecondary s).cmpa = s.cmpa := rfl

@[simp] theorem enterSecondary_cmpb (s : State) : (enterSecondary s).cmpb = s.cmpb := rfl

@[simp] theorem enterSecondary_cmpc (s : State) : (enterSecondary s).cmpc = s.cmpc := rfl

@[simp] theorem enterSecondary_gie (s : State) : (enterSecondary s).gie = false := rfl

@[simp] theorem enterSecondary_inh (s : State) : (enterSecondary s).inh = true := rfl

@[simp] theorem enterSecondary_iq (s : State) : (enterSecondary s).iq = s.iq := rfl

@[simp] theorem enterSecondary_oq (s : State) : (enterSecondary s).oq = s.oq := rfl

@[simp] theorem enterSecondary_todo (s : State) : (enterSecondary s).todo = s.todo := rfl

@[simp] theorem enterSecondary_agenda (s : State) : (enterSecondary s).agenda = s.agenda := rfl

@[simp] theorem enterSecondary_drawn (s : State) : (enterSecondary s).drawn = s.drawn := rfl

@[simp] theorem enterSecondary_xport (s : State) : (enterSecondary s).xport = s.xport := rfl

@[simp] theorem enterSecondary_served (s : State) : (enterSecondary s).served = s.served := rfl

@[simp] theorem enterSecondary_ret (s : State) : (enterSecondary s).ret = s.ret := rfl

@[simp] theorem enterSecondary_trace (s : State) : (enterSecondary s).trace = s.trace := rfl

@[simp] theorem enterSecondary_segTicks (s : State) : (enterSecondary s).segTicks = s.segTicks := rfl

@[simp] theorem enterSecondary_segNs (s : State) : (enterSecondary s).segNs = s.segNs := rfl

@[simp] theorem enterSecondary_obs (s : State) : (enterSecondary s).obs = s.obs := rfl

/-! ## `countTick` -/

@[simp] theorem countTick_cfg (s : State) : (countTick s).cfg = s.cfg := rfl

@[simp] theorem countTick_buf (s : State) : (countTick s).buf = s.buf := rfl

@[simp] theorem countTick_pin (s : State) : (countTick s).pin = s.pin := rfl

@[simp] theorem countTick_es (s : State) : (countTick s).es = s.es := rfl

@[simp] theorem countTick_own (s : State) : (countTick s).own = s.own := rfl

@[simp] theorem countTick_encw (s : State) : (countTick s).encw = s.encw := rfl

@[simp] theorem countTick_rep (s : State) : (countTick s).rep = s.rep := rfl

@[simp] theorem countTick_ph (s : State) : (countTick s).ph = s.ph := rfl

@[simp] theorem countTick_hwsel (s : State) : (countTick s).hwsel = s.hwsel := rfl

@[simp] theorem countTick_cur (s : State) : (countTick s).cur = s.cur := rfl

@[simp] theorem countTick_rdySent (s : State) : (countTick s).rdySent = s.rdySent := rfl

@[simp] theorem countTick_snap (s : State) : (countTick s).snap = s.snap := rfl

@[simp] theorem countTick_cnt (s : State) :
    (countTick s).cnt = if s.nextCount = s.cmpa ∧ s.ctc = true then 0 else s.nextCount := rfl

@[simp] theorem countTick_tctl (s : State) : (countTick s).tctl = s.tctl := rfl

@[simp] theorem countTick_tien (s : State) : (countTick s).tien = s.tien := rfl

@[simp] theorem countTick_tifr (s : State) :
    (countTick s).tifr = setFlags s.tifr (s.nextCount == s.cmpa) (s.nextCount == s.cmpb) := rfl

@[simp] theorem countTick_cmpa (s : State) : (countTick s).cmpa = s.cmpa := rfl

@[simp] theorem countTick_cmpb (s : State) : (countTick s).cmpb = s.cmpb := rfl

@[simp] theorem countTick_cmpc (s : State) : (countTick s).cmpc = s.cmpc := rfl

@[simp] theorem countTick_gie (s : State) : (countTick s).gie = s.gie := rfl

@[simp] theorem countTick_inh (s : State) : (countTick s).inh = s.inh := rfl

@[simp] theorem countTick_iq (s : State) : (countTick s).iq = s.iq := rfl

@[simp] theorem countTick_oq (s : State) : (countTick s).oq = s.oq := rfl

@[simp] theorem countTick_todo (s : State) : (countTick s).todo = s.todo := rfl

@[simp] theorem countTick_agenda (s : State) : (countTick s).agenda = s.agenda := rfl

@[simp] theorem countTick_drawn (s : State) : (countTick s).drawn = s.drawn := rfl

@[simp] theorem countTick_xport (s : State) : (countTick s).xport = s.xport := rfl

@[simp] theorem countTick_served (s : State) : (countTick s).served = s.served := rfl

@[simp] theorem countTick_ret (s : State) : (countTick s).ret = s.ret := rfl

@[simp] theorem countTick_trace (s : State) : (countTick s).trace = s.trace := rfl

@[simp] theorem countTick_segTicks (s : State) : (countTick s).segTicks = s.segTicks + 1 := rfl

@[simp] theorem countTick_segNs (s : State) : (countTick s).segNs = s.segNs := rfl

@[simp] theorem countTick_obs (s : State) : (countTick s).obs = s.obs := rfl

/-! ## `consume` -/

@[simp] theorem consume_cfg (s : State) : s.consume.cfg = s.cfg := rfl

@[simp] theorem consume_buf (s : State) : s.consume.buf = s.buf := rfl

@[simp] theorem consume_pin (s : State) : s.consume.pin = s.pin := rfl

@[simp] theorem consume_es (s : State) : s.consume.es = s.es := rfl

@[simp] theorem consume_own (s : State) : s.consume.own = s.own := rfl

@[simp] theorem consume_encw (s : State) : s.consume.encw = s.encw := rfl

@[simp] theorem consume_rep (s : State) : s.consume.rep = s.rep := rfl

@[simp] theorem consume_ph (s : State) : s.consume.ph = s.ph := rfl

@[simp] theorem consume_hwsel (s : State) : s.consume.hwsel = s.hwsel := rfl

@[simp] theorem consume_cur (s : State) : s.consume.cur = s.cur := rfl

@[simp] theorem consume_rdySent (s : State) : s.consume.rdySent = s.rdySent := rfl

@[simp] theorem consume_snap (s : State) : s.consume.snap = s.snap := rfl

@[simp] theorem consume_cnt (s : State) : s.consume.cnt = s.cnt := rfl

@[simp] theorem consume_tctl (s : State) : s.consume.tctl = s.tctl := rfl

@[simp] theorem consume_tien (s : State) : s.consume.tien = s.tien := rfl

@[simp] theorem consume_tifr (s : State) : s.consume.tifr = s.tifr := rfl

@[simp] theorem consume_cmpa (s : State) : s.consume.cmpa = s.cmpa := rfl

@[simp] theorem consume_cmpb (s : State) : s.consume.cmpb = s.cmpb := rfl

@[simp] theorem consume_cmpc (s : State) : s.consume.cmpc = s.cmpc := rfl

@[simp] theorem consume_gie (s : State) : s.consume.gie = s.gie := rfl

@[simp] theorem consume_inh (s : State) : s.consume.inh = s.inh := rfl

@[simp] theorem consume_iq (s : State) : s.consume.iq = s.iq := rfl

@[simp] theorem consume_oq (s : State) : s.consume.oq = s.oq := rfl

@[simp] theorem consume_todo (s : State) : s.consume.todo = s.todo := rfl

@[simp] theorem consume_agenda (s : State) : s.consume.agenda = s.agenda.tail := rfl

@[simp] theorem consume_drawn (s : State) :
    s.consume.drawn = if s.agenda.isEmpty then s.drawn + 1 else s.drawn := rfl

@[simp] theorem consume_xport (s : State) : s.consume.xport = s.xport := rfl

@[simp] theorem consume_served (s : State) : s.consume.served = s.served := rfl

@[simp] theorem consume_ret (s : State) : s.consume.ret = s.ret := rfl

@[simp] theorem consume_trace (s : State) : s.consume.trace = s.trace := rfl

@[simp] theorem consume_segTicks (s : State) : s.consume.segTicks = s.segTicks := rfl

@[simp] theorem consume_segNs (s : State) : s.consume.segNs = s.segNs := rfl

@[simp] theorem consume_obs (s : State) : s.consume.obs = s.obs := rfl

/-! ## `enqueue` -/

@[simp] theorem enqueue_cfg (q : QueueId) (r : Record) (s : State) : (enqueue q r s).cfg = s.cfg := rfl

@[simp] theorem enqueue_buf (q : QueueId) (r : Record) (s : State) : (enqueue q r s).buf = s.buf := rfl

@[simp] theorem enqueue_pin (q : QueueId) (r : Record) (s : State) : (enqueue q r s).pin = s.pin := rfl

@[simp] theorem enqueue_es (q : QueueId) (r : Record) (s : State) : (enqueue q r s).es = s.es := rfl

@[simp] theorem enqueue_own (q : QueueId) (r : Record) (s : State) : (enqueue q r s).own = s.own := rfl

@[simp] theorem enqueue_encw (q : QueueId) (r : Record) (s : State) : (enqueue q r s).encw = s.encw := rfl

@[simp] theorem enqueue_rep (q : QueueId) (r : Record) (s : State) : (enqueue q r s).rep = s.rep := rfl

@[simp] theorem enqueue_ph (q : QueueId) (r : Record) (s : State) : (enqueue q r s).ph = s.ph := rfl

@[simp] theorem enqueue_hwsel (q : QueueId) (r : Record) (s : State) : (enqueue q r s).hwsel = s.hwsel := rfl

@[simp] theorem enqueue_cur (q : QueueId) (r : Record) (s : State) : (enqueue q r s).cur = s.cur := rfl

@[simp] theorem enqueue_rdySent (q : QueueId) (r : Record) (s : State) : (enqueue q r s).rdySent = s.rdySent := rfl

@[simp] theorem enqueue_snap (q : QueueId) (r : Record) (s : State) : (enqueue q r s).snap = s.snap := rfl

@[simp] theorem enqueue_cnt (q : QueueId) (r : Record) (s : State) : (enqueue q r s).cnt = s.cnt := rfl

@[simp] theorem enqueue_tctl (q : QueueId) (r : Record) (s : State) : (enqueue q r s).tctl = s.tctl := rfl

@[simp] theorem enqueue_tien (q : QueueId) (r : Record) (s : State) : (enqueue q r s).tien = s.tien := rfl

@[simp] theorem enqueue_tifr (q : QueueId) (r : Record) (s : State) : (enqueue q r s).tifr = s.tifr := rfl

@[simp] theorem enqueue_cmpa (q : QueueId) (r : Record) (s : State) : (enqueue q r s).cmpa = s.cmpa := rfl

@[simp] theorem enqueue_cmpb (q : QueueId) (r : Record) (s : State) : (enqueue q r s).cmpb = s.cmpb := rfl

@[simp] theorem enqueue_cmpc (q : QueueId) (r : Record) (s : State) : (enqueue q r s).cmpc = s.cmpc := rfl

@[simp] theorem enqueue_gie (q : QueueId) (r : Record) (s : State) : (enqueue q r s).gie = s.gie := rfl

@[simp] theorem enqueue_inh (q : QueueId) (r : Record) (s : State) : (enqueue q r s).inh = s.inh := rfl

@[simp] theorem enqueue_iq (q : QueueId) (r : Record) (s : State) :
    (enqueue q r s).iq = (s.setQueue q ((s.queue q).write r).1).iq := rfl

@[simp] theorem enqueue_oq (q : QueueId) (r : Record) (s : State) :
    (enqueue q r s).oq = (s.setQueue q ((s.queue q).write r).1).oq := rfl

@[simp] theorem enqueue_todo (q : QueueId) (r : Record) (s : State) : (enqueue q r s).todo = s.todo := rfl

@[simp] theorem enqueue_agenda (q : QueueId) (r : Record) (s : State) : (enqueue q r s).agenda = s.agenda := rfl

@[simp] theorem enqueue_drawn (q : QueueId) (r : Record) (s : State) : (enqueue q r s).drawn = s.drawn := rfl

@[simp] theorem enqueue_xport (q : QueueId) (r : Record) (s : State) : (enqueue q r s).xport = s.xport := rfl

@[simp] theorem enqueue_served (q : QueueId) (r : Record) (s : State) : (enqueue q r s).served = s.served := rfl

@[simp] theorem enqueue_ret (q : QueueId) (r : Record) (s : State) :
    (enqueue q r s).ret = .stored ((s.queue q).write r).2 := rfl

@[simp] theorem enqueue_trace (q : QueueId) (r : Record) (s : State) : (enqueue q r s).trace = s.trace := rfl

@[simp] theorem enqueue_segTicks (q : QueueId) (r : Record) (s : State) :
    (enqueue q r s).segTicks = s.segTicks := rfl

@[simp] theorem enqueue_segNs (q : QueueId) (r : Record) (s : State) : (enqueue q r s).segNs = s.segNs := rfl

@[simp] theorem enqueue_obs (q : QueueId) (r : Record) (s : State) :
    (enqueue q r s).obs = .wrote q ((s.queue q).write r).2 :: s.obs := rfl

/-! ## `dequeue` -/

@[simp] theorem dequeue_cfg (q : QueueId) (s : State) : (dequeue q s).cfg = s.cfg := rfl

@[simp] theorem dequeue_buf (q : QueueId) (s : State) : (dequeue q s).buf = s.buf := rfl

@[simp] theorem dequeue_pin (q : QueueId) (s : State) : (dequeue q s).pin = s.pin := rfl

@[simp] theorem dequeue_es (q : QueueId) (s : State) : (dequeue q s).es = s.es := rfl

@[simp] theorem dequeue_own (q : QueueId) (s : State) : (dequeue q s).own = s.own := rfl

@[simp] theorem dequeue_encw (q : QueueId) (s : State) : (dequeue q s).encw = s.encw := rfl

@[simp] theorem dequeue_rep (q : QueueId) (s : State) : (dequeue q s).rep = s.rep := rfl

@[simp] theorem dequeue_ph (q : QueueId) (s : State) : (dequeue q s).ph = s.ph := rfl

@[simp] theorem dequeue_hwsel (q : QueueId) (s : State) : (dequeue q s).hwsel = s.hwsel := rfl

@[simp] theorem dequeue_cur (q : QueueId) (s : State) : (dequeue q s).cur = s.cur := rfl

@[simp] theorem dequeue_rdySent (q : QueueId) (s : State) : (dequeue q s).rdySent = s.rdySent := rfl

@[simp] theorem dequeue_snap (q : QueueId) (s : State) : (dequeue q s).snap = s.snap := rfl

@[simp] theorem dequeue_cnt (q : QueueId) (s : State) : (dequeue q s).cnt = s.cnt := rfl

@[simp] theorem dequeue_tctl (q : QueueId) (s : State) : (dequeue q s).tctl = s.tctl := rfl

@[simp] theorem dequeue_tien (q : QueueId) (s : State) : (dequeue q s).tien = s.tien := rfl

@[simp] theorem dequeue_tifr (q : QueueId) (s : State) : (dequeue q s).tifr = s.tifr := rfl

@[simp] theorem dequeue_cmpa (q : QueueId) (s : State) : (dequeue q s).cmpa = s.cmpa := rfl

@[simp] theorem dequeue_cmpb (q : QueueId) (s : State) : (dequeue q s).cmpb = s.cmpb := rfl

@[simp] theorem dequeue_cmpc (q : QueueId) (s : State) : (dequeue q s).cmpc = s.cmpc := rfl

@[simp] theorem dequeue_gie (q : QueueId) (s : State) : (dequeue q s).gie = s.gie := rfl

@[simp] theorem dequeue_inh (q : QueueId) (s : State) : (dequeue q s).inh = s.inh := rfl

@[simp] theorem dequeue_iq (q : QueueId) (s : State) :
    (dequeue q s).iq = (s.setQueue q (s.queue q).read.1).iq := rfl

@[simp] theorem dequeue_oq (q : QueueId) (s : State) :
    (dequeue q s).oq = (s.setQueue q (s.queue q).read.1).oq := rfl

@[simp] theorem dequeue_todo (q : QueueId) (s : State) : (dequeue q s).todo = s.todo := rfl

@[simp] theorem dequeue_agenda (q : QueueId) (s : State) : (dequeue q s).agenda = s.agenda := rfl

@[simp] theorem dequeue_drawn (q : QueueId) (s : State) : (dequeue q s).drawn = s.drawn := rfl

@[simp] theorem dequeue_xport (q : QueueId) (s : State) : (dequeue q s).xport = s.xport := rfl

@[simp] theorem dequeue_served (q : QueueId) (s : State) : (dequeue q s).served = s.served := rfl

@[simp] theorem dequeue_ret (q : QueueId) (s : State) : (dequeue q s).ret = .taken (s.queue q).read.2 := rfl

@[simp] theorem dequeue_trace (q : QueueId) (s : State) : (dequeue q s).trace = s.trace := rfl

@[simp] theorem dequeue_segTicks (q : QueueId) (s : State) : (dequeue q s).segTicks = s.segTicks := rfl

@[simp] theorem dequeue_segNs (q : QueueId) (s : State) : (dequeue q s).segNs = s.segNs := rfl

@[simp] theorem dequeue_obs (q : QueueId) (s : State) :
    (dequeue q s).obs = readObs q (s.queue q).read.2 ++ s.obs := rfl

/-! ## `armBody` -/

@[simp] theorem armBody_cfg (s : State) : (armBody s).cfg = s.cfg := rfl

@[simp] theorem armBody_buf (s : State) : (armBody s).buf = s.encw := rfl

@[simp] theorem armBody_pin (s : State) : (armBody s).pin = s.cfg.pinInit := rfl

@[simp] theorem armBody_es (s : State) : (armBody s).es = .running := rfl

@[simp] theorem armBody_own (s : State) : (armBody s).own = s.own := rfl

@[simp] theorem armBody_encw (s : State) : (armBody s).encw = s.encw := rfl

@[simp] theorem armBody_rep (s : State) : (armBody s).rep = s.rep := rfl

@[simp] theorem armBody_ph (s : State) : (armBody s).ph = s.ph := rfl

@[simp] theorem armBody_hwsel (s : State) : (armBody s).hwsel = s.hwsel := rfl

@[simp] theorem armBody_cur (s : State) : (armBody s).cur = s.cur := rfl

@[simp] theorem armBody_rdySent (s : State) : (armBody s).rdySent = s.rdySent := rfl

@[simp] theorem armBody_snap (s : State) : (armBody s).snap = s.snap := rfl

@[simp] theorem armBody_cnt (s : State) : (armBody s).cnt = 0 := rfl

@[simp] theorem armBody_tctl (s : State) : (armBody s).tctl = s.cfg.cfgTctl := rfl

@[simp] theorem armBody_tien (s : State) : (armBody s).tien = 0x03#8 := rfl

@[simp] theorem armBody_tifr (s : State) : (armBody s).tifr = clearFlags s.tifr := rfl

@[simp] theorem armBody_cmpa (s : State) : (armBody s).cmpa = s.cfg.tStart := rfl

@[simp] theorem armBody_cmpb (s : State) : (armBody s).cmpb = s.cfg.inert := rfl

@[simp] theorem armBody_cmpc (s : State) : (armBody s).cmpc = s.cfg.inert := rfl

@[simp] theorem armBody_gie (s : State) : (armBody s).gie = s.gie := rfl

@[simp] theorem armBody_inh (s : State) : (armBody s).inh = s.inh := rfl

@[simp] theorem armBody_iq (s : State) : (armBody s).iq = s.iq := rfl

@[simp] theorem armBody_oq (s : State) : (armBody s).oq = s.oq := rfl

@[simp] theorem armBody_todo (s : State) : (armBody s).todo = s.todo := rfl

@[simp] theorem armBody_agenda (s : State) : (armBody s).agenda = s.agenda := rfl

@[simp] theorem armBody_drawn (s : State) : (armBody s).drawn = s.drawn := rfl

@[simp] theorem armBody_xport (s : State) : (armBody s).xport = s.xport := rfl

@[simp] theorem armBody_served (s : State) : (armBody s).served = s.served := rfl

@[simp] theorem armBody_ret (s : State) : (armBody s).ret = s.ret := rfl

@[simp] theorem armBody_trace (s : State) :
    (armBody s).trace = if s.cfg.pinInit = s.pin then s.trace else ⟨s.pin, s.segTicks, s.segNs⟩ :: s.trace := rfl

@[simp] theorem armBody_segTicks (s : State) :
    (armBody s).segTicks = if s.cfg.pinInit = s.pin then s.segTicks else 0 := rfl

@[simp] theorem armBody_segNs (s : State) : (armBody s).segNs = if s.cfg.pinInit = s.pin then s.segNs else 0 := rfl

@[simp] theorem armBody_obs (s : State) : (armBody s).obs = s.obs := rfl

/-! ## `stopBody` -/

@[simp] theorem stopBody_cfg (s : State) : (stopBody s).cfg = s.cfg := rfl

@[simp] theorem stopBody_buf (s : State) : (stopBody s).buf = 0#24 := rfl

@[simp] theorem stopBody_pin (s : State) : (stopBody s).pin = s.pin := rfl

@[simp] theorem stopBody_es (s : State) : (stopBody s).es = .stopped := rfl

@[simp] theorem stopBody_own (s : State) : (stopBody s).own = s.own := rfl

@[simp] theorem stopBody_encw (s : State) : (stopBody s).encw = s.encw := rfl

@[simp] theorem stopBody_rep (s : State) : (stopBody s).rep = s.rep := rfl

@[simp] theorem stopBody_ph (s : State) : (stopBody s).ph = s.ph := rfl

@[simp] theorem stopBody_hwsel (s : State) : (stopBody s).hwsel = s.hwsel := rfl

@[simp] theorem stopBody_cur (s : State) : (stopBody s).cur = s.cur := rfl

@[simp] theorem stopBody_rdySent (s : State) : (stopBody s).rdySent = s.rdySent := rfl

@[simp] theorem stopBody_snap (s : State) : (stopBody s).snap = s.snap := rfl

@[simp] theorem stopBody_cnt (s : State) : (stopBody s).cnt = s.cnt := rfl

@[simp] theorem stopBody_tctl (s : State) : (stopBody s).tctl = s.tctl := rfl

@[simp] theorem stopBody_tien (s : State) : (stopBody s).tien = 0x00#8 := rfl

@[simp] theorem stopBody_tifr (s : State) : (stopBody s).tifr = clearFlags s.tifr := rfl

@[simp] theorem stopBody_cmpa (s : State) : (stopBody s).cmpa = s.cfg.inert := rfl

@[simp] theorem stopBody_cmpb (s : State) : (stopBody s).cmpb = s.cfg.inert := rfl

@[simp] theorem stopBody_cmpc (s : State) : (stopBody s).cmpc = s.cfg.inert := rfl

@[simp] theorem stopBody_gie (s : State) : (stopBody s).gie = s.gie := rfl

@[simp] theorem stopBody_inh (s : State) : (stopBody s).inh = s.inh := rfl

@[simp] theorem stopBody_iq (s : State) : (stopBody s).iq = s.iq := rfl

@[simp] theorem stopBody_oq (s : State) : (stopBody s).oq = s.oq := rfl

@[simp] theorem stopBody_todo (s : State) : (stopBody s).todo = s.todo := rfl

@[simp] theorem stopBody_agenda (s : State) : (stopBody s).agenda = s.agenda := rfl

@[simp] theorem stopBody_drawn (s : State) : (stopBody s).drawn = s.drawn := rfl

@[simp] theorem stopBody_xport (s : State) : (stopBody s).xport = s.xport := rfl

@[simp] theorem stopBody_served (s : State) : (stopBody s).served = s.served := rfl

@[simp] theorem stopBody_ret (s : State) : (stopBody s).ret = s.ret := rfl

@[simp] theorem stopBody_trace (s : State) : (stopBody s).trace = s.trace := rfl

@[simp] theorem stopBody_segTicks (s : State) : (stopBody s).segTicks = s.segTicks := rfl

@[simp] theorem stopBody_segNs (s : State) : (stopBody s).segNs = s.segNs := rfl

@[simp] theorem stopBody_obs (s : State) : (stopBody s).obs = s.obs := rfl

/-! ## `acquireBody` -/

@[simp] theorem acquireBody_cfg (s : State) : (acquireBody s).cfg = s.cfg := rfl

@[simp] theorem acquireBody_buf (s : State) : (acquireBody s).buf = s.buf := rfl

@[simp] theorem acquireBody_pin (s : State) : (acquireBody s).pin = s.pin := rfl

@[simp] theorem acquireBody_es (s : State) : (acquireBody s).es = s.es := rfl

@[simp] theorem acquireBody_own (s : State) : (acquireBody s).own = true := rfl

@[simp] theorem acquireBody_encw (s : State) : (acquireBody s).encw = s.encw := rfl

@[simp] theorem acquireBody_rep (s : State) : (acquireBody s).rep = s.rep := rfl

@[simp] theorem acquireBody_ph (s : State) : (acquireBody s).ph = s.ph := rfl

@[simp] theorem acquireBody_hwsel (s : State) : (acquireBody s).hwsel = s.hwsel := rfl

@[simp] theorem acquireBody_cur (s : State) : (acquireBody s).cur = s.cur := rfl

@[simp] theorem acquireBody_rdySent (s : State) : (acquireBody s).rdySent = s.rdySent := rfl

@[simp] theorem acquireBody_snap (s : State) : (acquireBody s).snap = s.timerRegs := rfl

@[simp] theorem acquireBody_cnt (s : State) : (acquireBody s).cnt = s.cnt := rfl

@[simp] theorem acquireBody_tctl (s : State) : (acquireBody s).tctl = s.tctl := rfl

@[simp] theorem acquireBody_tien (s : State) : (acquireBody s).tien = s.tien := rfl

@[simp] theorem acquireBody_tifr (s : State) : (acquireBody s).tifr = s.tifr := rfl

@[simp] theorem acquireBody_cmpa (s : State) : (acquireBody s).cmpa = s.cmpa := rfl

@[simp] theorem acquireBody_cmpb (s : State) : (acquireBody s).cmpb = s.cmpb := rfl

@[simp] theorem acquireBody_cmpc (s : State) : (acquireBody s).cmpc = s.cmpc := rfl

@[simp] theorem acquireBody_gie (s : State) : (acquireBody s).gie = s.gie := rfl

@[simp] theorem acquireBody_inh (s : State) : (acquireBody s).inh = s.inh := rfl

@[simp] theorem acquireBody_iq (s : State) : (acquireBody s).iq = s.iq := rfl

@[simp] theorem acquireBody_oq (s : State) : (acquireBody s).oq = s.oq := rfl

@[simp] theorem acquireBody_todo (s : State) : (acquireBody s).todo = s.todo := rfl

@[simp] theorem acquireBody_agenda (s : State) : (acquireBody s).agenda = s.agenda := rfl

@[simp] theorem acquireBody_drawn (s : State) : (acquireBody s).drawn = s.drawn := rfl

@[simp] theorem acquireBody_xport (s : State) : (acquireBody s).xport = s.xport := rfl

@[simp] theorem acquireBody_served (s : State) : (acquireBody s).served = s.served := rfl

@[simp] theorem acquireBody_ret (s : State) : (acquireBody s).ret = s.ret := rfl

@[simp] theorem acquireBody_trace (s : State) : (acquireBody s).trace = s.trace := rfl

@[simp] theorem acquireBody_segTicks (s : State) : (acquireBody s).segTicks = s.segTicks := rfl

@[simp] theorem acquireBody_segNs (s : State) : (acquireBody s).segNs = s.segNs := rfl

@[simp] theorem acquireBody_obs (s : State) : (acquireBody s).obs = s.obs := rfl

/-! ## `releaseBody` -/

@[simp] theorem releaseBody_cfg (s : State) : (releaseBody s).cfg = s.cfg := rfl

@[simp] theorem releaseBody_buf (s : State) : (releaseBody s).buf = s.buf := rfl

@[simp] theorem releaseBody_pin (s : State) : (releaseBody s).pin = s.pin := rfl

@[simp] theorem releaseBody_es (s : State) : (releaseBody s).es = .idle := rfl

@[simp] theorem releaseBody_own (s : State) : (releaseBody s).own = false := rfl

@[simp] theorem releaseBody_encw (s : State) : (releaseBody s).encw = s.encw := rfl

@[simp] theorem releaseBody_rep (s : State) : (releaseBody s).rep = s.rep := rfl

@[simp] theorem releaseBody_ph (s : State) : (releaseBody s).ph = s.ph := rfl

@[simp] theorem releaseBody_hwsel (s : State) : (releaseBody s).hwsel = s.hwsel := rfl

@[simp] theorem releaseBody_cur (s : State) : (releaseBody s).cur = s.cur := rfl

@[simp] theorem releaseBody_rdySent (s : State) : (releaseBody s).rdySent = s.rdySent := rfl

@[simp] theorem releaseBody_snap (s : State) : (releaseBody s).snap = s.snap := rfl

@[simp] theorem releaseBody_cnt (s : State) : (releaseBody s).cnt = s.cnt := rfl

@[simp] theorem releaseBody_tctl (s : State) : (releaseBody s).tctl = s.snap.tctl := rfl

@[simp] theorem releaseBody_tien (s : State) : (releaseBody s).tien = s.snap.tien := rfl

@[simp] theorem releaseBody_tifr (s : State) : (releaseBody s).tifr = clearFlags s.tifr := rfl

@[simp] theorem releaseBody_cmpa (s : State) : (releaseBody s).cmpa = s.snap.cmpa := rfl

@[simp] theorem releaseBody_cmpb (s : State) : (releaseBody s).cmpb = s.snap.cmpb := rfl

@[simp] theorem releaseBody_cmpc (s : State) : (releaseBody s).cmpc = s.snap.cmpc := rfl

@[simp] theorem releaseBody_gie (s : State) : (releaseBody s).gie = s.gie := rfl

@[simp] theorem releaseBody_inh (s : State) : (releaseBody s).inh = s.inh := rfl

@[simp] theorem releaseBody_iq (s : State) : (releaseBody s).iq = s.iq := rfl

@[simp] theorem releaseBody_oq (s : State) : (releaseBody s).oq = s.oq := rfl

@[simp] theorem releaseBody_todo (s : State) : (releaseBody s).todo = s.todo := rfl

@[simp] theorem releaseBody_agenda (s : State) : (releaseBody s).agenda = s.agenda := rfl

@[simp] theorem releaseBody_drawn (s : State) : (releaseBody s).drawn = s.drawn := rfl

@[simp] theorem releaseBody_xport (s : State) : (releaseBody s).xport = s.xport := rfl

@[simp] theorem releaseBody_served (s : State) : (releaseBody s).served = s.served := rfl

@[simp] theorem releaseBody_ret (s : State) : (releaseBody s).ret = s.ret := rfl

@[simp] theorem releaseBody_trace (s : State) : (releaseBody s).trace = s.trace := rfl

@[simp] theorem releaseBody_segTicks (s : State) : (releaseBody s).segTicks = s.segTicks := rfl

@[simp] theorem releaseBody_segNs (s : State) : (releaseBody s).segNs = s.segNs := rfl

@[simp] theorem releaseBody_obs (s : State) : (releaseBody s).obs = s.obs := rfl

/-! ## `critical` -/

@[simp] theorem critical_cfg (body : State → State) (s : State) :
    (critical body s).cfg = (body { s with gie := false }).cfg := rfl

@[simp] theorem critical_buf (body : State → State) (s : State) :
    (critical body s).buf = (body { s with gie := false }).buf := rfl

@[simp] theorem critical_pin (body : State → State) (s : State) :
    (critical body s).pin = (body { s with gie := false }).pin := rfl

@[simp] theorem critical_es (body : State → State) (s : State) :
    (critical body s).es = (body { s with gie := false }).es := rfl

@[simp] theorem critical_own (body : State → State) (s : State) :
    (critical body s).own = (body { s with gie := false }).own := rfl

@[simp] theorem critical_encw (body : State → State) (s : State) :
    (critical body s).encw = (body { s with gie := false }).encw := rfl

@[simp] theorem critical_rep (body : State → State) (s : State) :
    (critical body s).rep = (body { s with gie := false }).rep := rfl

@[simp] theorem critical_ph (body : State → State) (s : State) :
    (critical body s).ph = (body { s with gie := false }).ph := rfl

@[simp] theorem critical_hwsel (body : State → State) (s : State) :
    (critical body s).hwsel = (body { s with gie := false }).hwsel := rfl

@[simp] theorem critical_cur (body : State → State) (s : State) :
    (critical body s).cur = (body { s with gie := false }).cur := rfl

@[simp] theorem critical_rdySent (body : State → State) (s : State) :
    (critical body s).rdySent = (body { s with gie := false }).rdySent := rfl

@[simp] theorem critical_snap (body : State → State) (s : State) :
    (critical body s).snap = (body { s with gie := false }).snap := rfl

@[simp] theorem critical_cnt (body : State → State) (s : State) :
    (critical body s).cnt = (body { s with gie := false }).cnt := rfl

@[simp] theorem critical_tctl (body : State → State) (s : State) :
    (critical body s).tctl = (body { s with gie := false }).tctl := rfl

@[simp] theorem critical_tien (body : State → State) (s : State) :
    (critical body s).tien = (body { s with gie := false }).tien := rfl

@[simp] theorem critical_tifr (body : State → State) (s : State) :
    (critical body s).tifr = (body { s with gie := false }).tifr := rfl

@[simp] theorem critical_cmpa (body : State → State) (s : State) :
    (critical body s).cmpa = (body { s with gie := false }).cmpa := rfl

@[simp] theorem critical_cmpb (body : State → State) (s : State) :
    (critical body s).cmpb = (body { s with gie := false }).cmpb := rfl

@[simp] theorem critical_cmpc (body : State → State) (s : State) :
    (critical body s).cmpc = (body { s with gie := false }).cmpc := rfl

@[simp] theorem critical_gie (body : State → State) (s : State) :
    (critical body s).gie = s.gie := rfl

@[simp] theorem critical_inh (body : State → State) (s : State) :
    (critical body s).inh = (body { s with gie := false }).inh := rfl

@[simp] theorem critical_iq (body : State → State) (s : State) :
    (critical body s).iq = (body { s with gie := false }).iq := rfl

@[simp] theorem critical_oq (body : State → State) (s : State) :
    (critical body s).oq = (body { s with gie := false }).oq := rfl

@[simp] theorem critical_todo (body : State → State) (s : State) :
    (critical body s).todo = (body { s with gie := false }).todo := rfl

@[simp] theorem critical_agenda (body : State → State) (s : State) :
    (critical body s).agenda = (body { s with gie := false }).agenda := rfl

@[simp] theorem critical_drawn (body : State → State) (s : State) :
    (critical body s).drawn = (body { s with gie := false }).drawn := rfl

@[simp] theorem critical_xport (body : State → State) (s : State) :
    (critical body s).xport = (body { s with gie := false }).xport := rfl

@[simp] theorem critical_served (body : State → State) (s : State) :
    (critical body s).served = (body { s with gie := false }).served := rfl

@[simp] theorem critical_ret (body : State → State) (s : State) :
    (critical body s).ret = (body { s with gie := false }).ret := rfl

@[simp] theorem critical_trace (body : State → State) (s : State) :
    (critical body s).trace = (body { s with gie := false }).trace := rfl

@[simp] theorem critical_segTicks (body : State → State) (s : State) :
    (critical body s).segTicks = (body { s with gie := false }).segTicks := rfl

@[simp] theorem critical_segNs (body : State → State) (s : State) :
    (critical body s).segNs = (body { s with gie := false }).segNs := rfl

@[simp] theorem critical_obs (body : State → State) (s : State) :
    (critical body s).obs = (body { s with gie := false }).obs := rfl

/-! ## `offerReady` -/

@[simp] theorem offerReady_cfg (s : State) : (offerReady s).cfg = s.cfg :=
  enqueue_cfg .oq s.cfg.readyRecord s

@[simp] theorem offerReady_buf (s : State) : (offerReady s).buf = s.buf :=
  enqueue_buf .oq s.cfg.readyRecord s

@[simp] theorem offerReady_pin (s : State) : (offerReady s).pin = s.pin :=
  enqueue_pin .oq s.cfg.readyRecord s

@[simp] theorem offerReady_es (s : State) : (offerReady s).es = s.es :=
  enqueue_es .oq s.cfg.readyRecord s

@[simp] theorem offerReady_own (s : State) : (offerReady s).own = s.own :=
  enqueue_own .oq s.cfg.readyRecord s

@[simp] theorem offerReady_encw (s : State) : (offerReady s).encw = s.encw :=
  enqueue_encw .oq s.cfg.readyRecord s

@[simp] theorem offerReady_rep (s : State) : (offerReady s).rep = s.rep :=
  enqueue_rep .oq s.cfg.readyRecord s

@[simp] theorem offerReady_ph (s : State) : (offerReady s).ph = s.ph :=
  enqueue_ph .oq s.cfg.readyRecord s

@[simp] theorem offerReady_hwsel (s : State) : (offerReady s).hwsel = s.hwsel :=
  enqueue_hwsel .oq s.cfg.readyRecord s

@[simp] theorem offerReady_cur (s : State) : (offerReady s).cur = s.cur :=
  enqueue_cur .oq s.cfg.readyRecord s

@[simp] theorem offerReady_rdySent (s : State) : (offerReady s).rdySent = s.rdySent :=
  enqueue_rdySent .oq s.cfg.readyRecord s

@[simp] theorem offerReady_snap (s : State) : (offerReady s).snap = s.snap :=
  enqueue_snap .oq s.cfg.readyRecord s

@[simp] theorem offerReady_cnt (s : State) : (offerReady s).cnt = s.cnt :=
  enqueue_cnt .oq s.cfg.readyRecord s

@[simp] theorem offerReady_tctl (s : State) : (offerReady s).tctl = s.tctl :=
  enqueue_tctl .oq s.cfg.readyRecord s

@[simp] theorem offerReady_tien (s : State) : (offerReady s).tien = s.tien :=
  enqueue_tien .oq s.cfg.readyRecord s

@[simp] theorem offerReady_tifr (s : State) : (offerReady s).tifr = s.tifr :=
  enqueue_tifr .oq s.cfg.readyRecord s

@[simp] theorem offerReady_cmpa (s : State) : (offerReady s).cmpa = s.cmpa :=
  enqueue_cmpa .oq s.cfg.readyRecord s

@[simp] theorem offerReady_cmpb (s : State) : (offerReady s).cmpb = s.cmpb :=
  enqueue_cmpb .oq s.cfg.readyRecord s

@[simp] theorem offerReady_cmpc (s : State) : (offerReady s).cmpc = s.cmpc :=
  enqueue_cmpc .oq s.cfg.readyRecord s

@[simp] theorem offerReady_gie (s : State) : (offerReady s).gie = s.gie :=
  enqueue_gie .oq s.cfg.readyRecord s

@[simp] theorem offerReady_inh (s : State) : (offerReady s).inh = s.inh :=
  enqueue_inh .oq s.cfg.readyRecord s

@[simp] theorem offerReady_iq (s : State) : (offerReady s).iq = s.iq :=
  enqueue_iq .oq s.cfg.readyRecord s

@[simp] theorem offerReady_oq (s : State) :
    (offerReady s).oq = (enqueue .oq s.cfg.readyRecord s).oq := rfl

@[simp] theorem offerReady_todo (s : State) : (offerReady s).todo = .prim .readySent :: s.todo :=
  congrArg (List.cons (Task.prim .readySent)) (enqueue_todo .oq s.cfg.readyRecord s)

@[simp] theorem offerReady_agenda (s : State) : (offerReady s).agenda = s.agenda :=
  enqueue_agenda .oq s.cfg.readyRecord s

@[simp] theorem offerReady_drawn (s : State) : (offerReady s).drawn = s.drawn :=
  enqueue_drawn .oq s.cfg.readyRecord s

@[simp] theorem offerReady_xport (s : State) : (offerReady s).xport = s.xport :=
  enqueue_xport .oq s.cfg.readyRecord s

@[simp] theorem offerReady_served (s : State) : (offerReady s).served = s.served :=
  enqueue_served .oq s.cfg.readyRecord s

@[simp] theorem offerReady_ret (s : State) :
    (offerReady s).ret = (enqueue .oq s.cfg.readyRecord s).ret := rfl

@[simp] theorem offerReady_trace (s : State) : (offerReady s).trace = s.trace :=
  enqueue_trace .oq s.cfg.readyRecord s

@[simp] theorem offerReady_segTicks (s : State) : (offerReady s).segTicks = s.segTicks :=
  enqueue_segTicks .oq s.cfg.readyRecord s

@[simp] theorem offerReady_segNs (s : State) : (offerReady s).segNs = s.segNs :=
  enqueue_segNs .oq s.cfg.readyRecord s

@[simp] theorem offerReady_obs (s : State) :
    (offerReady s).obs = (enqueue .oq s.cfg.readyRecord s).obs := rfl

end Sys2Proof.Machine
end

