-- ==== Sys2Proof/Laws/Ops.lean ====
section
/-! SUPPORT. For each shared operation one lemma that says everything it can do. -/

namespace Sys2Proof.Machine

open Sys2Proof

/-- Everything a write of the pin does (R13). -/
theorem drivePin_cases (l : Bool) (s : State) :
    (l = s.pin ∧ drivePin l s = s) ∨
    (l ≠ s.pin ∧ drivePin l s =
      { s with pin := l, trace := ⟨s.pin, s.segTicks, s.segNs⟩ :: s.trace, segTicks := 0, segNs := 0 }) := by
  by_cases h : l = s.pin
  · left
    subst h
    exact ⟨rfl, by simp [drivePin]⟩
  · exact .inr ⟨h, by simp [drivePin, h]⟩

/-- An inversion of the pin always makes an edge. -/
theorem drivePin_not (s : State) :
    drivePin (!s.pin) s =
      { s with pin := !s.pin, trace := ⟨s.pin, s.segTicks, s.segNs⟩ :: s.trace, segTicks := 0, segNs := 0 } := by
  rcases drivePin_cases (!s.pin) s with ⟨h, -⟩ | ⟨-, e⟩
  · cases hp : s.pin <;> simp [hp] at h
  · exact e

/-- The primary handler's body as one update (R124). -/
theorem emitSymbol_eq (b : Bool) (s : State) :
    emitSymbol b s =
      { s with
        pin := !s.pin
        trace := ⟨s.pin, s.segTicks, s.segNs⟩ :: s.trace
        segTicks := 0
        segNs := 0
        cmpa := if b then s.cfg.tFull else 2 * s.cfg.tHalf
        cmpb := if b then s.cfg.inert else s.cfg.tHalf
        buf := s.buf >>> 1 } := by
  rw [emitSymbol, drivePin_not]

/-- Everything a `Q_WRITE` does to the state (R176). -/
theorem enqueue_cases (q : QueueId) (r : Record) (s : State) :
    ((s.queue q).full = true ∧
      enqueue q r s = { s with ret := .stored false, obs := .wrote q false :: s.obs }) ∨
    ((s.queue q).full = false ∧
      enqueue q r s =
        { s.setQueue q ⟨memWrite (s.queue q).mem (s.queue q).head r, (s.queue q).head + 1#4, (s.queue q).tail⟩ with
          ret := .stored true, obs := .wrote q true :: s.obs }) := by
  rcases (s.queue q).write_cases r with ⟨h, e⟩ | ⟨h, e⟩
  · left
    refine ⟨h, ?_⟩
    rw [enqueue, e]
    cases q <;> rfl
  · right
    exact ⟨h, by rw [enqueue, e]⟩

/-- Everything a `Q_READ` does to the state (R177). -/
theorem dequeue_cases (q : QueueId) (s : State) :
    ((s.queue q).empty = true ∧ dequeue q s = { s with ret := .taken none }) ∨
    ((s.queue q).empty = false ∧
      dequeue q s =
        { s.setQueue q ⟨(s.queue q).mem, (s.queue q).head, (s.queue q).tail + 1#4⟩ with
          ret := .taken (some (memRead (s.queue q).mem (s.queue q).tail))
          obs := readObs q (some (memRead (s.queue q).mem (s.queue q).tail)) ++ s.obs }) := by
  rcases (s.queue q).read_cases with ⟨h, e⟩ | ⟨h, e⟩
  · left
    refine ⟨h, ?_⟩
    rw [dequeue, e]
    cases q <;> rfl
  · right
    exact ⟨h, by rw [dequeue, e]⟩

/-- Everything one interrupt does (R221 to R223). -/
theorem serveIrq_cases (s : State) :
    (s.primaryReady = true ∧ serveIrq s =
      { s with
        gie := true
        inh := false
        tifr := clearIfa s.tifr
        pin := !s.pin
        trace := ⟨s.pin, s.segTicks, s.segNs⟩ :: s.trace
        segTicks := 0
        segNs := 0
        cmpa := if s.buf.getLsbD 0 then s.cfg.tFull else 2 * s.cfg.tHalf
        cmpb := if s.buf.getLsbD 0 then s.cfg.inert else s.cfg.tHalf
        buf := s.buf >>> 1 }) ∨
    (s.primaryReady = false ∧ serveIrq s =
      { s with
        gie := true
        inh := false
        tifr := clearIfb s.tifr
        pin := !s.pin
        trace := ⟨s.pin, s.segTicks, s.segNs⟩ :: s.trace
        segTicks := 0
        segNs := 0 }) := by
  cases h : s.primaryReady
  · right
    refine ⟨rfl, ?_⟩
    rw [serveIrq, h, if_neg (by simp), secondaryBody, drivePin_not]
    rfl
  · left
    refine ⟨rfl, ?_⟩
    rw [serveIrq, h, if_pos rfl, primaryBody, emitSymbol_eq]
    rfl

/-- Everything a step of the machine is (R224): the next choice, taken, is a step of MAIN, an interrupt, a tick, or a
move of the timer's other owner. -/
theorem step_eq (s : State) :
    step s =
      match s.choice with
      | .agent .main => mainStep s.consume
      | .agent .irq => exec .irqEntry s.consume
      | .agent .tmr => exec .tick s.consume
      | .owner w => ownerWrite w s.consume := by
  rw [step]
  rcases s.choice with (_ | _ | _) | _ <;> rfl

/-- Both stores stay in canonical form under a `Q_WRITE`. -/
theorem enqueue_wf {s : State} (hi : s.iq.mem.wf) (ho : s.oq.mem.wf) (q : QueueId) (r : Record) :
    (enqueue q r s).iq.mem.wf ∧ (enqueue q r s).oq.mem.wf := by
  cases q
  · exact ⟨Queue.write_wf hi r, ho⟩
  · exact ⟨hi, Queue.write_wf ho r⟩

/-- A `Q_READ` leaves both stores as they are. -/
theorem dequeue_mem (q : QueueId) (s : State) :
    (dequeue q s).iq.mem = s.iq.mem ∧ (dequeue q s).oq.mem = s.oq.mem := by
  cases q
  · exact ⟨Queue.read_mem s.iq, rfl⟩
  · exact ⟨rfl, Queue.read_mem s.oq⟩

end Sys2Proof.Machine
end

