-- ==== Sys2Proof/Laws/Paths.lean ====
section
/-! SUPPORT. A path of chosen moves is a run of the machine whose agenda lists them: no step but the choice itself reads the
schedule. -/

namespace Sys2Proof.Machine

open Sys2Proof

/-- No primitive statement of MAIN reads or writes the schedule. -/
theorem primStep_withSchedule (p : Prim) (s : State) (ms : List Move) (d : Nat) :
    primStep p (s.withSchedule ms d) = (primStep p s).withSchedule ms d := by
  cases p with
  | hwLoop idle =>
    simp only [primStep, hwLoopStep]
    rw [apply_ite (State.withSchedule · ms d)]
    rfl
  | legacyLoop rid key =>
    simp only [primStep, legacyLoopStep]
    rw [apply_ite (State.withSchedule · ms d)]
    rfl
  | fetch =>
    have hq : (s.withSchedule ms d).iq = s.iq := rfl
    simp only [primStep, fetchStep, hq]
    cases s.iq.read.2 <;> rfl
  | _ => rfl

/-- No instruction reads or writes the schedule. -/
theorem exec_withSchedule {i : Instr} {s t : State} (h : exec i s = .next t) (ms : List Move) (d : Nat) :
    exec i (s.withSchedule ms d) = .next (t.withSchedule ms d) := by
  have pick (c : Bool) (a b : State) (ha : Host.Outcome.next (if c then a else b) = exec i s) :
      t.withSchedule ms d = if c then a.withSchedule ms d else b.withSchedule ms d := by
    injection ha.trans h with e
    rw [← e, apply_ite (State.withSchedule · ms d)]
  cases i with
  | dispatch =>
    simp only [exec, execDispatch] at h ⊢
    by_cases h1 : s.cur.kind = s.cfg.kindSwitch
    · rw [if_pos h1] at h
      rw [if_pos (show (s.withSchedule ms d).cur.kind = (s.withSchedule ms d).cfg.kindSwitch from h1)]
      injection h with h; subst h; rfl
    · by_cases h2 : s.cur.kind = s.cfg.kindSwitchLegacy
      · rw [if_neg h1, if_pos h2] at h
        rw [if_neg (show ¬(s.withSchedule ms d).cur.kind = (s.withSchedule ms d).cfg.kindSwitch from h1),
          if_pos (show (s.withSchedule ms d).cur.kind = (s.withSchedule ms d).cfg.kindSwitchLegacy from h2)]
        injection h with h; subst h; rfl
      · rw [if_neg h1, if_neg h2] at h
        rw [if_neg (show ¬(s.withSchedule ms d).cur.kind = (s.withSchedule ms d).cfg.kindSwitch from h1),
          if_neg (show ¬(s.withSchedule ms d).cur.kind = (s.withSchedule ms d).cfg.kindSwitchLegacy from h2)]
        injection h with h; subst h; rfl
  | tick => exact congrArg _ (pick _ _ _ rfl).symm
  | poll idle => exact congrArg _ (pick _ _ _ rfl).symm
  | bootReady => exact congrArg _ (pick _ _ _ rfl).symm
  | irqEntry =>
    simp only [exec, execIrqEntry] at h ⊢
    injection h with h
    subst h
    rw [apply_ite (State.withSchedule · ms d), serveIrq, serveIrq, apply_ite (State.withSchedule · ms d)]
    rfl
  | _ => injection h with h; subst h; rfl

/-- MAIN's step neither reads nor writes the schedule. -/
theorem mainStep_withSchedule {s t : State} (h : mainStep s = .next t) (ms : List Move) (d : Nat) :
    mainStep (s.withSchedule ms d) = .next (t.withSchedule ms d) := by
  have hq : (s.withSchedule ms d).todo = s.todo := rfl
  simp only [mainStep, hq] at h ⊢
  rcases ht : s.todo with _ | ⟨i | p, k⟩ <;> simp only [ht] at h ⊢
  · injection h with h
    rw [h]
  · exact exec_withSchedule (s := { s with todo := k }) h ms d
  · injection h with h
    rw [← h]
    exact congrArg _ (primStep_withSchedule p { s with todo := k } ms d)

/-- No move reads or writes the schedule. -/
theorem moveStep_withSchedule {m : Move} {s t : State} (h : moveStep m s = .next t) (ms : List Move) (d : Nat) :
    moveStep m (s.withSchedule ms d) = .next (t.withSchedule ms d) := by
  rcases m with (_ | _ | _) | w
  · exact mainStep_withSchedule h ms d
  · exact exec_withSchedule (i := .irqEntry) h ms d
  · exact exec_withSchedule (i := .tick) h ms d
  · simp only [moveStep, ownerWrite] at h ⊢
    by_cases h1 : s.own = true
    · rw [if_pos h1] at h; cases h
    · by_cases h2 : (!enginesOff w.tien) = true
      · rw [if_neg h1, if_pos h2] at h; cases h
      · rw [if_neg h1, if_neg h2] at h
        rw [if_neg (show ¬(s.withSchedule ms d).own = true from h1), if_neg h2]
        injection h with h; subst h; rfl

/-- A path is a run: the machine whose agenda begins with the path's choices follows it. -/
theorem run_of_path {m : Nat → Move} {e : Nat → State} {n : Nat} (h : Path m e n) (ms : List Move) (d : Nat) :
    run n ((e 0).withSchedule ((List.range n).map m ++ ms) d) = .next ((e n).withSchedule ms d) := by
  induction n generalizing m e with
  | zero => rfl
  | succ n ih =>
    have ih' := ih (m := fun i => m (i + 1)) (e := fun i => e (i + 1)) (fun i hi => h (i + 1) (by omega))
    have h0 := moveStep_withSchedule (h 0 n.succ_pos) ((List.range n).map (fun i => m (i + 1)) ++ ms) d
    have hs : step ((e 0).withSchedule ((List.range (n + 1)).map m ++ ms) d) =
        .next ((e 1).withSchedule ((List.range n).map (fun i => m (i + 1)) ++ ms) d) := by
      rw [List.range_succ_eq_map, List.map_cons, List.map_map]
      exact h0
    show Sys2Proof.core.run (n + 1) _ = _
    simp only [Host.Core.run]
    rw [show Sys2Proof.core.step = step from rfl, hs]
    exact ih'

end Sys2Proof.Machine
end

