-- ==== Sys2Proof/Laws/PerInstr.lean ====
section
/-! SUPPORT. Statements about every instruction as syntax, one lemma per constructor. -/

namespace Sys2Proof.Laws.RowFormat

open Sys2Proof

/-- The instruction's bits, if it has any, are of one format under all parameters; an operation has none (R2, R100). -/
def Statement (i : Instr) : Prop :=
  ∃ f : Format, ∀ c : Config, (encode c i).map Encoded.format = if f = .operation then none else some f

theorem switch (tag : Byte) (rid : RemoteId) (key : Byte) (pad : BitVec 24) : Statement (.switch tag rid key pad) :=
  ⟨.record, fun _ => rfl⟩

theorem switchLegacy (tag : Byte) (rid : RemoteId) (key : Byte) (pad : BitVec 24) : Statement (.switchLegacy tag rid key pad) :=
  ⟨.record, fun _ => rfl⟩

theorem unknown (tag kind : Byte) (rid : RemoteId) (key : Byte) (pad : BitVec 24) : Statement (.unknown tag kind rid key pad) :=
  ⟨.record, fun _ => rfl⟩

theorem ready : Statement .ready :=
  ⟨.record, fun _ => rfl⟩

theorem errUnknown (tag : Byte) (rid : RemoteId) (key : Byte) (pad : BitVec 24) : Statement (.errUnknown tag rid key pad) :=
  ⟨.record, fun _ => rfl⟩

theorem sym1 : Statement .sym1 :=
  ⟨.symbol, fun _ => rfl⟩

theorem sym0 : Statement .sym0 :=
  ⟨.symbol, fun _ => rfl⟩

theorem txw (rid : RemoteId) (key : BitVec 7) : Statement (.txw rid key) :=
  ⟨.word, fun _ => rfl⟩

theorem encode (rid : RemoteId) (key : Byte) : Statement (.encode rid key) :=
  ⟨.operation, fun _ => rfl⟩

theorem tick : Statement .tick :=
  ⟨.operation, fun _ => rfl⟩

theorem arm : Statement .arm :=
  ⟨.operation, fun _ => rfl⟩

theorem isrP : Statement .isrP :=
  ⟨.operation, fun _ => rfl⟩

theorem isrS : Statement .isrS :=
  ⟨.operation, fun _ => rfl⟩

theorem stop : Statement .stop :=
  ⟨.operation, fun _ => rfl⟩

theorem transmit (rid : RemoteId) (key : Byte) (useHw idle : Bool) : Statement (.transmit rid key useHw idle) :=
  ⟨.operation, fun _ => rfl⟩

theorem acquire : Statement .acquire :=
  ⟨.operation, fun _ => rfl⟩

theorem transmitHw (rid : RemoteId) (key : Byte) (idle : Bool) : Statement (.transmitHw rid key idle) :=
  ⟨.operation, fun _ => rfl⟩

theorem poll (idle : Bool) : Statement (.poll idle) :=
  ⟨.operation, fun _ => rfl⟩

theorem release : Statement .release :=
  ⟨.operation, fun _ => rfl⟩

theorem transmitLegacy (rid : RemoteId) (key : Byte) : Statement (.transmitLegacy rid key) :=
  ⟨.operation, fun _ => rfl⟩

theorem qWrite (q : QueueId) (r : Record) : Statement (.qWrite q r) :=
  ⟨.operation, fun _ => rfl⟩

theorem qRead (q : QueueId) : Statement (.qRead q) :=
  ⟨.operation, fun _ => rfl⟩

theorem mainLoop : Statement .mainLoop :=
  ⟨.operation, fun _ => rfl⟩

theorem dispatch : Statement .dispatch :=
  ⟨.operation, fun _ => rfl⟩

theorem bootReady : Statement .bootReady :=
  ⟨.operation, fun _ => rfl⟩

theorem xportService : Statement .xportService :=
  ⟨.operation, fun _ => rfl⟩

theorem hostVerify (sent reply : Record) : Statement (.hostVerify sent reply) :=
  ⟨.operation, fun _ => rfl⟩

theorem irqEntry : Statement .irqEntry :=
  ⟨.operation, fun _ => rfl⟩

end Sys2Proof.Laws.RowFormat
end

