-- ==== Sys2Proof/Tests/Slice0.lean ====
section
/-! SUPPORT. Tests: the ill-formed terms the check refuses, words written out from the spec's encodings, the one-step
vectors of spec/95_test_vectors.md, and for every statement with hypotheses a state and operands that meet them. -/

namespace Sys2Proof.Tests

open Sys2Proof Sys2Proof.Machine

/-! ## Helpers -/

/-- What a field, or several, hold in the next state; none for a stop. -/
def after {α : Type} (o : Host.Outcome State Fault Refusal) (f : State → α) : Option α :=
  match o with
  | .next t => some (f t)
  | .fault _ => none
  | .refused _ => none

/-- The reset state with these choices ahead and these statements of MAIN. -/
def placed (ms : List Move) (ts : List Task) : State := { State.reset with agenda := ms, todo := ts }

/-- The record of 8 bytes written as the spec writes them, offset 0 first. -/
def bytes (b0 b1 b2 b3 b4 b5 b6 b7 : Byte) : Record := ⟨b0, b1, b3 ++ b2, b4, b7 ++ b6 ++ b5⟩

/-- The other owner's timer of vector C1, before a command. -/
def lent : State := { State.reset with tctl := 0x06#8, tien := 0x04#8, cmpa := 0, cmpb := 0, cmpc := 0xFF, cnt := 77 }

/-- The state after the `ARM` of vector A1. -/
def armed : State :=
  { lent with
    own := true, snap := ⟨0x06#8, 0x04#8, 0, 0, 0xFF⟩, es := .running, ph := .wait, rep := 1#8
    encw := 0xAAB284#24, buf := 0xAAB284#24, pin := true, tctl := 0x81#8, tien := 0x03#8
    cmpa := 250, cmpb := 255, cmpc := 255, cnt := 0
    todo := [.op (.poll true), .prim (.phase .stop), .op .stop, .prim (.hwLoop true)] }

/-- The state of vector I1's event: the primary flag is set. -/
def firing : State := { armed with tifr := 0x01#8 }

/-- A stopped last frame, just before the critical section of `RELEASE`. -/
def releasing : State :=
  { armed with
    es := .stopped, ph := .rel, rep := 128#8, buf := 0#24, tien := 0x00#8, cmpa := 255, cmpb := 255, cmpc := 255
    pin := false, todo := [.prim .releaseRegs] }

/-- The state of vector F5 at `t_24`: the buffer is empty and the engine runs. -/
def tail : State := { armed with buf := 0#24, cmpa := 150, cmpb := 255 }

/-! ## WellFormed -/

/-- R91: a record of kind `KIND_SWITCH` is not the row `UNKNOWN`. -/
theorem test_unknown_of_kind_switch_refused :
    (Instr.unknown 0#8 0x01#8 1#16 1#8 0#24).wellFormed Config.default = false := by decide

/-- R91: nor is one of kind `KIND_SWITCH_LEGACY`. -/
theorem test_unknown_of_kind_switch_legacy_refused :
    (Instr.unknown 0#8 0x02#8 1#16 1#8 0#24).wellFormed Config.default = false := by decide

/-- R98: inbound records of the kinds the device emits are of the row `UNKNOWN`. -/
theorem test_unknown_of_emitted_kinds_accepted :
    (Instr.unknown 0#8 0x10#8 1#16 1#8 0#24).wellFormed Config.default = true ∧
      (Instr.unknown 0#8 0x81#8 1#16 1#8 0#24).wellFormed Config.default = true := by decide

/-! ## Decoding: words written out from R85, R93 and R95 -/

/-- R192's record `4C 01 4D 21 2A 00 00 00`, as the 64-bit number of R85. -/
theorem test_decode_switch :
    decodeTableWord 64 0x0000002A214D014C = some (.switch 0x4C#8 8525#16 42#8 0#24) := by decide

/-- R193's record `4C 02 4D 21 2A 00 00 00`. -/
theorem test_decode_switch_legacy :
    decodeTableWord 64 0x0000002A214D024C = some (.switchLegacy 0x4C#8 8525#16 42#8 0#24) := by decide

/-- H4's record `99 00 FF FF 00 11 22 33`: the bytes of `pad` in R85's order. -/
theorem test_decode_unknown :
    decodeTableWord 64 0x33221100FFFF0099 = some (.unknown 0x99#8 0x00#8 0xFFFF#16 0x00#8 0x332211#24) := by decide

/-- R195's record `4C 10 CD AB EF 00 00 00`, as one the device emits. -/
theorem test_decode_ready : decodeTableWord 64 0x000000EFABCD104C = some .ready := by decide

/-- R98: the same record, inbound, is an unknown command. -/
theorem test_decode_inbound_ready :
    decodeCommand Config.default (bytes 0x4C#8 0x10#8 0xCD#8 0xAB#8 0xEF#8 0#8 0#8 0#8) =
      .unknown 0x4C#8 0x10#8 0xABCD#16 0xEF#8 0#24 := by decide

/-- R194's reply `4C 81 4D 21 2A 00 00 00`, as one the device emits. -/
theorem test_decode_err_unknown :
    decodeTableWord 64 0x0000002A214D814C = some (.errUnknown 0x4C#8 8525#16 42#8 0#24) := by decide

/-- R95: bit 0 of the buffer. -/
theorem test_decode_symbols : decodeTableWord 8 1 = some .sym1 ∧ decodeTableWord 8 0 = some .sym0 := by decide

/-- R93, vectors E1 and E4. -/
theorem test_decode_txw :
    decodeTableWord 24 0xAAB284 = some (.txw 8525#16 42#7) ∧ decodeTableWord 24 0xC08000 = some (.txw 1#16 1#7) := by
  decide

/-- R85: the byte at offset `k` of H4's record. -/
theorem test_record_bytes :
    (List.range 8).map (bytes 0x99#8 0x00#8 0xFF#8 0xFE#8 0x00#8 0x11#8 0x22#8 0x33#8).byte =
      [0x99#8, 0x00#8, 0xFF#8, 0xFE#8, 0x00#8, 0x11#8, 0x22#8, 0x33#8] := by decide

/-! ## One step of each instruction -/

/-- Vector H6: the record is latched, key bit 7 included, and goes to the hardware-timed path with the callback. -/
theorem test_switch_takes_hardware_path :
    after (exec (.switch 0x4C#8 8525#16 0xAA#8 0#24) (placed [] [])) (fun t => (t.cur, t.todo)) =
      some (bytes 0x4C#8 0x01#8 0x4D#8 0x21#8 0xAA#8 0#8 0#8 0#8,
        [.op (.transmit 8525#16 0xAA#8 true true), .prim .reply]) := by decide

/-- Vector H10. -/
theorem test_switch_legacy_takes_legacy_path :
    after (exec (.switchLegacy 0x4C#8 8525#16 42#8 0#24) (placed [] [])) (fun t => (t.cur, t.todo)) =
      some (bytes 0x4C#8 0x02#8 0x4D#8 0x21#8 0x2A#8 0#8 0#8 0#8,
        [.op (.transmit 8525#16 42#8 false false), .prim .reply]) := by decide

/-- Vector H4: every byte but the kind is copied. -/
theorem test_unknown_replies :
    after (exec (.unknown 0x99#8 0x00#8 0xFFFF#16 0x00#8 0x332211#24) (placed [] [])) (fun t => (memRead t.oq.mem 0#4, t.oq.head)) =
      some (bytes 0x99#8 0x81#8 0xFF#8 0xFF#8 0x00#8 0x11#8 0x22#8 0x33#8, 1#4) := by decide

/-- Vector H8's record. -/
theorem test_ready_emits :
    after (exec .ready (placed [] [])) (fun t => (memRead t.oq.mem 0#4, t.oq.head, t.todo)) =
      some (bytes 0x4C#8 0x10#8 0xCD#8 0xAB#8 0xEF#8 0#8 0#8 0#8, 1#4, [.prim .readySent]) := by decide

/-- Vector H5's second reply. -/
theorem test_err_unknown_emits :
    after (exec (.errUnknown 0x4C#8 1#16 1#8 0#24) (placed [] [])) (fun t => (memRead t.oq.mem 0#4, t.oq.head)) =
      some (bytes 0x4C#8 0x81#8 0x01#8 0x00#8 0x01#8 0#8 0#8 0#8, 1#4) := by decide

/-- Vector I2. -/
theorem test_sym1 :
    after (exec .sym1 { armed with buf := 0x2AACA1#24 }) (fun t => (t.pin, t.cmpa, t.cmpb, t.buf)) =
      some (false, 150, 255, 0x155650#24) := by decide

/-- Vector I1's body. -/
theorem test_sym0 :
    after (exec .sym0 armed) (fun t => (t.pin, t.cmpa, t.cmpb, t.buf)) = some (false, 120, 60, 0x555942#24) := by decide

/-- Vector E10's word in the latch. -/
theorem test_txw : after (exec (.txw 0x00FF#16 0x55#7) (placed [] [])) (fun t => t.encw) = some 0xD5FF00#24 := by decide

/-- Vectors E6 and E11. -/
theorem test_encode :
    after (exec (.encode 8525#16 0xAA#8) (placed [] [])) (fun t => t.ret) = some (.word 0xAAB284#24) ∧
      after (exec (.encode 0xFF00#16 0x2A#8) (placed [] [])) (fun t => t.ret) = some (.word 0xAA00FF#24) := by decide

/-- Vector T2: both compare registers match. -/
theorem test_tick_both :
    after (exec .tick { armed with cnt := 4, cmpa := 5, cmpb := 5 }) (fun t => (t.cnt, t.tifr)) = some (0, 0x03#8) := by
  decide

/-- Vector T4, second tick: no clear, the counter wraps. -/
theorem test_tick_wraps :
    after (exec .tick { armed with tctl := 0x01#8, cnt := 255, cmpa := 255, cmpb := 0, tifr := 0x01#8 })
      (fun t => (t.cnt, t.tifr)) = some (0, 0x03#8) := by decide

/-- Vector A1. -/
theorem test_arm :
    after (exec .arm { lent with encw := 0xAAB284#24, tifr := 0x03#8 })
        (fun t => ((t.timerRegs, t.cnt, t.tifr), t.pin, t.buf, t.es, t.gie)) =
      some ((⟨0x81#8, 0x03#8, 250, 255, 255⟩, 0, 0#8), true, 0xAAB284#24, .running, true) := by decide

/-- Vector I3: the terminator. -/
theorem test_isr_p_terminator :
    after (exec .isrP { armed with buf := 1#24, pin := false }) (fun t => (t.pin, t.cmpa, t.cmpb, t.buf)) =
      some (true, 150, 255, 0#24) := by decide

/-- Vector I4: the empty buffer. -/
theorem test_isr_p_empty :
    after (exec .isrP { armed with buf := 0#24 }) (fun t => (t.pin, t.cmpa, t.cmpb, t.buf)) =
      some (false, 120, 60, 0#24) := by decide

/-- Vector I5's body. -/
theorem test_isr_s :
    after (exec .isrS { armed with pin := false, buf := 0x555942#24 }) (fun t => (t.pin, t.cmpa, t.cmpb, t.buf)) =
      some (true, 250, 255, 0x555942#24) := by decide

/-- Vector ST1. -/
theorem test_stop :
    after (exec .stop { tail with cnt := 10 }) (fun t => (t.timerRegs, t.tifr, t.buf, t.es, t.cnt, t.pin)) =
      some (⟨0x81#8, 0x00#8, 255, 255, 255⟩, 0#8, 0#24, .stopped, 10, true) := by decide

/-- Vector ST2: force-stop. -/
theorem test_stop_forced :
    after (exec .stop { firing with buf := 0x00AAB2#24 }) (fun t => (t.tien, t.tifr, t.buf, t.es, t.irqEnabled)) =
      some (0#8, 0#8, 0#24, .stopped, false) := by decide

/-- Vector C4: the hardware-timed path. -/
theorem test_transmit_hw_path :
    after (exec (.transmit 1#16 1#8 true true) (placed [] [])) (fun t => (t.hwsel, t.todo)) =
      some (true, [.op (.transmitHw 1#16 1#8 true), .prim (.phase .idle)]) := by decide

/-- Vector C4: hardware timing asked for and not available. -/
theorem test_transmit_falls_back :
    after (exec (.transmit 1#16 1#8 true true)
        { placed [] [] with cfg := { Config.default with hwTimerAvailable := false } }) (fun t => (t.hwsel, t.todo)) =
      some (true, [.op (.transmitLegacy 1#16 1#8), .prim (.phase .idle)]) := by decide

/-- Vector C1, after `ACQUIRE`. -/
theorem test_acquire :
    after (exec .acquire lent) (fun t => (t.snap, t.own, t.timerRegs, t.es)) =
      some (⟨0x06#8, 0x04#8, 0, 0, 0xFF⟩, true, ⟨0x06#8, 0x04#8, 0, 0, 0xFF⟩, .idle) := by decide

/-- R152: the word is latched before the timer is taken. -/
theorem test_transmit_hw :
    after (exec (.transmitHw 8525#16 42#8 true) lent) (fun t => (t.encw, t.own, t.todo.head?)) =
      some (0xAAB284#24, false, some (.prim (.phase .acq))) := by decide

/-- Vector C3: the buffer is not empty, the callback is called. -/
theorem test_poll_again :
    after (exec (.poll true) { tail with buf := 1#24, todo := [] }) (fun t => t.todo) =
      some [.op .xportService, .op (.poll true)] := by decide

/-- Vector C3: the buffer is empty, no further callback. -/
theorem test_poll_ends : after (exec (.poll true) { tail with todo := [] }) (fun t => t.todo) = some [] := by decide

/-- Vector C1: the pin first. -/
theorem test_release :
    after (exec .release { releasing with pin := true, todo := [] }) (fun t => (t.pin, t.own, t.todo)) =
      some (false, true, [.prim .releaseRegs]) := by decide

/-- Vector C1, after `RELEASE`. -/
theorem test_release_restores :
    after (.next (primStep .releaseRegs releasing)) (fun t => (t.timerRegs, t.own, t.es, t.tifr)) =
      some (⟨0x06#8, 0x04#8, 0, 0, 0xFF⟩, false, .idle, 0#8) := by decide

/-- R160: the phase, and the counter next. -/
theorem test_transmit_legacy :
    after (exec (.transmitLegacy 1#16 1#8) { lent with rep := 9#8 }) (fun t => (t.ph, t.todo.head?, t.timerRegs)) =
      some (.legacy, some (.prim .repZero), ⟨0x06#8, 0x04#8, 0, 0, 0xFF⟩) := by decide

/-- R176's worked example: `HEAD = 15`, `TAIL = 3`. -/
theorem test_q_write_wraps :
    after (exec (.qWrite .iq (bytes 1#8 2#8 3#8 4#8 5#8 6#8 7#8 8#8)) { placed [] [] with iq := ⟨[], 15#4, 3#4⟩ })
        (fun t => (t.iq.head, t.ret, memRead t.iq.mem 15#4)) =
      some (0#4, .stored true, bytes 1#8 2#8 3#8 4#8 5#8 6#8 7#8 8#8) := by decide

/-- Vector Q2: the 16th write. -/
theorem test_q_write_full :
    after (exec (.qWrite .oq (bytes 1#8 2#8 3#8 4#8 5#8 6#8 7#8 8#8)) { placed [] [] with oq := ⟨[], 15#4, 0#4⟩ })
        (fun t => (t.oq, t.ret)) = some (⟨[], 15#4, 0#4⟩, .stored false) := by decide

/-- R177's worked example: `HEAD = 0`, `TAIL = 15`. -/
theorem test_q_read_wraps :
    after (exec (.qRead .iq) { placed [] [] with iq := ⟨[(120, 0x4C#8)], 0#4, 15#4⟩ }) (fun t => (t.iq.tail, t.ret)) =
      some (0#4, .taken (some (bytes 0x4C#8 0#8 0#8 0#8 0#8 0#8 0#8 0#8))) := by decide

/-- Vector Q1. -/
theorem test_q_read_empty :
    after (exec (.qRead .oq) (placed [] [])) (fun t => (t.oq, t.ret)) = some (⟨[], 0#4, 0#4⟩, .taken none) := by decide

/-- R197. -/
theorem test_main_loop_boots :
    after (exec .mainLoop (placed [] [])) (fun t => t.todo) = some [.op .bootReady, .prim .loop] := by decide

/-- Vector H3, through `DISPATCH`. -/
theorem test_dispatch_unknown :
    after (exec .dispatch { placed [] [] with cur := bytes 0x4C#8 0x77#8 0x4D#8 0x21#8 0x2A#8 0#8 0#8 0#8 })
        (fun t => (memRead t.oq.mem 0#4, t.todo, t.pin)) =
      some (bytes 0x4C#8 0x81#8 0x4D#8 0x21#8 0x2A#8 0#8 0#8 0#8, [], false) := by decide

/-- Vector H8. -/
theorem test_boot_ready :
    after (exec .bootReady (placed [] [])) (fun t => (memRead t.oq.mem 0#4, t.oq.head, t.todo)) =
      some (bytes 0x4C#8 0x10#8 0xCD#8 0xAB#8 0xEF#8 0#8 0#8 0#8, 1#4, [.prim .readySent]) := by decide

/-- Vector H8: the second time. -/
theorem test_boot_ready_once :
    after (exec .bootReady { placed [] [] with rdySent := true }) (fun t => t.oq) = some ⟨[], 0#4, 0#4⟩ := by decide

/-- R200: the queue ends the transport has. -/
theorem test_xport_service :
    after (exec .xportService { placed [] [] with xport := [[.serve, .enqueue (bytes 1#8 2#8 3#8 4#8 5#8 6#8 7#8 8#8)]] })
        (fun t => (t.todo, t.xport)) =
      some ([.op (.qRead .oq), .op (.qWrite .iq (bytes 1#8 2#8 3#8 4#8 5#8 6#8 7#8 8#8))], []) := by decide

/-- Vector H2: only tag and pad differ. -/
theorem test_host_verify_accepts :
    after (exec (.hostVerify (bytes 0x4C#8 1#8 0x4D#8 0x21#8 0x2A#8 0#8 0#8 0#8)
        (bytes 0#8 1#8 0x4D#8 0x21#8 0x2A#8 0xFF#8 0xFF#8 0xFF#8)) (placed [] [])) (fun t => t.ret) =
      some (.accepted true) := by decide

/-- Vector H2: another key, another kind, another rid. -/
theorem test_host_verify_rejects :
    [bytes 0x4C#8 1#8 0x4D#8 0x21#8 0x2B#8 0#8 0#8 0#8, bytes 0x4C#8 0x81#8 0x4D#8 0x21#8 0x2A#8 0#8 0#8 0#8,
        bytes 0x4C#8 1#8 0x4E#8 0x21#8 0x2A#8 0#8 0#8 0#8].map
      (hostAccepts (bytes 0x4C#8 1#8 0x4D#8 0x21#8 0x2A#8 0#8 0#8 0#8)) = [false, false, false] := by decide

/-- Vector I6, first entry: the primary source. -/
theorem test_irq_primary_first :
    after (exec .irqEntry { firing with tifr := 0x03#8, buf := 2#24 })
        (fun t => ((t.pin, t.cmpa, t.cmpb, t.buf), t.tifr, t.gie, t.inh)) =
      some ((false, 120, 60, 1#24), 0x02#8, true, false) := by decide

/-- Vector T5: a flag without its enable starts no handler. -/
theorem test_irq_masked :
    after (exec .irqEntry { firing with tien := 0#8 }) (fun t => (t.tifr, t.pin)) = some (0x01#8, true) := by decide

/-- The step fetches what `withFetchWord` placed: a command through `CUR`, a symbol through `BUF`. -/
theorem test_step_runs_placed_word :
    after (step (State.reset.withFetchWord 16 0x0100)) (fun t => t.todo.head?) =
        some (some (.op (.transmit 0#16 0#8 true true))) ∧
      after (step (State.reset.withFetchWord 8 1)) (fun t => (t.cmpa, t.tifr)) = some (150, 0#8) := by decide

/-! ## States that meet the statements' hypotheses -/

/-- A state that starts `MAIN_LOOP` meets the invariant. -/
theorem witness_inv_start : (placed [] [.op .mainLoop]).Inv :=
  ⟨⟨.free, by decide, by simp only [Region.holds]; decide⟩, rfl, rfl, by decide, by decide⟩

/-- So does one with a first choice of the schedule. -/
theorem witness_inv_free (m : Move) : (placed [m] [.op .mainLoop]).Inv := witness_inv_start

/-- A running frame meets the invariant. -/
theorem witness_inv_running : armed.Inv :=
  ⟨⟨.running, by decide, by simp only [Region.holds]; decide⟩, rfl, rfl, by decide, by decide⟩

theorem witness_StepRunsMainStatement :
    (placed [.agent .main] [.op .arm]).choice = .agent .main ∧ (placed [.agent .main] [.op .arm]).todo = .op .arm :: [] ∧
      (placed [.agent .main] [.prim .repInc]).choice = .agent .main ∧
      (placed [.agent .main] [.prim .repInc]).todo = .prim .repInc :: [] ∧
      (placed [.agent .irq] []).choice = .agent .irq ∧ (placed [.agent .tmr] []).choice = .agent .tmr := by decide

theorem witness_StepRunsDecodedCommand :
    (placed [.agent .main] [.op .dispatch]).choice = .agent .main ∧
      (placed [.agent .main] [.op .dispatch]).todo = .op .dispatch :: [] := by decide

theorem witness_StepRunsDecodedSymbol :
    ({ firing with agenda := [.agent .irq] } : State).choice = .agent .irq ∧
      ({ firing with agenda := [.agent .irq] } : State).irqEnabled = true ∧
      ({ firing with agenda := [.agent .irq] } : State).primaryReady = true := by decide

/-- An instruction of each format that is well formed and has an encoding. -/
theorem witness_EncodedInstructionReadsBack :
    (Instr.switch 0x4C#8 8525#16 42#8 0#24).wellFormed Config.default = true ∧
      encode Config.default (.switch 0x4C#8 8525#16 42#8 0#24) = some (.record 0x0000002A214D014C#64) ∧
      Instr.ready.wellFormed Config.default = true ∧
      encode Config.default .ready = some (.record 0x000000EFABCD104C#64) ∧
      Instr.sym1.wellFormed Config.default = true ∧ encode Config.default .sym1 = some (.symbol 1#24) ∧
      (Instr.txw 8525#16 42#7).wellFormed Config.default = true ∧
      encode Config.default (.txw 8525#16 42#7) = some (.word 0xAAB284#24) := by decide

theorem witness_EveryTransmitWordWritesBack :
    (0x800000#24).getLsbD 23 = true ∧ (0x7FFFFF#24).getLsbD 23 = false := by decide

/-- Two commands of one word, and the first and last number of shifts before it is empty. -/
theorem witness_EncodedWordHasItsProperties :
    encodeWord 8525#16 42#8 = encodeWord 8525#16 0xAA#8 ∧ 0 ≤ 23 ∧ 23 ≤ 23 := by decide

theorem witness_PinWriteExtendsTrace : true = armed.pin ∧ false ≠ armed.pin := by decide

theorem witness_TickCountsAndCompares :
    armed.tctl.extractLsb' 0 4 ≠ 0#4 ∧ (placed [] []).tctl.extractLsb' 0 4 = 0#4 := by decide

/-- The first and the last number of ticks. -/
theorem witness_CompareValueIsInterval :
    armed.clocked = true ∧ armed.ctc = true ∧ armed.cnt = 0 ∧ 0 < armed.cmpa ∧ armed.cmpa < 2 ^ armed.cfg.w ∧
      armed.ifa = false ∧ 0 ≤ armed.cmpa ∧ 250 = armed.cmpa := by decide

theorem witness_EngineStateChangesOnlyByMain :
    after (step { releasing with agenda := [.agent .main] }) (fun t => t.es) = some .idle ∧
      .idle ≠ ({ releasing with agenda := [.agent .main] } : State).es := by decide

/-- The first interrupt of a frame changes the buffer. -/
theorem witness_BufferHasThreeWriters :
    ({ firing with agenda := [.agent .irq] } : State).Inv ∧
      after (step { firing with agenda := [.agent .irq] }) (fun t => t.buf) = some 0x555942#24 ∧
      0x555942#24 ≠ firing.buf :=
  ⟨⟨⟨.running, by decide, by simp only [Region.holds]; decide⟩, rfl, rfl, by decide, by decide⟩, by decide, by decide⟩

/-- The armed frame: no shift yet; its first interrupt shifts once and leaves it running. -/
theorem witness_RunningBufferIsShiftedWord :
    ({ firing with agenda := [.agent .irq] } : State).Inv ∧ firing.buf = firing.encw >>> 0 ∧
      after (step { firing with agenda := [.agent .irq] }) (fun t => t.es) = some .running :=
  ⟨⟨⟨.running, by decide, by simp only [Region.holds]; decide⟩, rfl, rfl, by decide, by decide⟩, by decide, by decide⟩

/-- The states of an execution from `a` by the choices `m`. -/
def follow (m : Nat → Move) (a : State) : Nat → State
  | 0 => a
  | i + 1 =>
    match moveStep (m i) (follow m a i) with
    | .next t => t
    | .fault _ => a
    | .refused _ => a

/-- An execution in which the timer and the interrupt take turns. -/
def turns (i : Nat) : Move := if i % 2 = 0 then .agent .tmr else .agent .irq

/-- Ticks and interrupts that take turns are a fair execution of the armed frame. -/
theorem witness_FrameEndsUnderFairness :
    Execution turns (follow turns armed) ∧ Fair turns (follow turns armed) ∧ (follow turns armed 0).Inv ∧
      (follow turns armed 0).es = .running := by
  refine ⟨fun n i _ => ?_, ⟨fun n _ => ⟨2 * n, by omega, ?_⟩, fun n _ => ⟨2 * n + 1, by omega, ?_⟩⟩,
    witness_inv_running, rfl⟩
  · by_cases h : i % 2 = 0 <;> simp only [follow, turns, h, if_true, if_false] <;> rfl
  · simp [turns]
  · simp [turns, Nat.add_mod]

/-- The shortest intervals the parameters allow in 3 bits. -/
def quick : Config :=
  { Config.default with
    w := 3, tStart := 1, tFull := 2, tHalf := 1
    two_le_w := by decide, tStart_pos := by decide, tStart_lt_inert := by decide, tFull_lt_inert := by decide
    tHalf_pos := by decide, tHalf_lt_tFull := by decide, tBit_lt_inert := by decide }

/-- The state before an `ARM` of the word of 23 ones, with the timer held and `POLL` to come. -/
def quickStart : State :=
  { State.reset with
    cfg := quick, own := true, encw := 0xFFFFFF#24
    todo := [.prim .repInc, .prim (.phase .wait), .op (.poll true), .prim (.phase .stop), .op .stop] }

/-- That state after the `ARM`. -/
def quickArmed : State := critical armBody quickStart

/-- One tick to the start event, then two to each event, each event served at once. -/
def quickMoves (i : Nat) : Move := if i % 3 = 1 then .agent .irq else .agent .tmr

/-- Checks the choices from `i` on: no stop, no tick with an enabled interrupt, the buffer empty first after `n` of
them. -/
def promptTo (m : Nat → Move) : Nat → Nat → State → Bool
  | 0, _, s => s.buf == 0#24
  | n + 1, i, s =>
    s.buf != 0#24 && !(m i == .agent .tmr && s.irqEnabled) &&
      match moveStep (m i) s with
      | .next t => promptTo m n (i + 1) t
      | .fault _ => false
      | .refused _ => false

/-- What the check says of the execution. -/
theorem promptTo_spec (m : Nat → Move) (a : State) (n : Nat) :
    ∀ i, promptTo m n i (follow m a i) = true →
      (∀ j, i ≤ j → j < i + n → moveStep (m j) (follow m a j) = .next (follow m a (j + 1)) ∧
        (m j = .agent .tmr → (follow m a j).irqEnabled = false) ∧ (follow m a j).buf ≠ 0#24) ∧
      (follow m a (i + n)).buf = 0#24 := by
  induction n with
  | zero => exact fun i h => ⟨fun j h1 h2 => by omega, by simpa [promptTo] using h⟩
  | succ n ih =>
    intro i h
    simp only [promptTo, Bool.and_eq_true] at h
    obtain ⟨⟨hb, hq⟩, hm⟩ := h
    cases e : moveStep (m i) (follow m a i) with
    | next t =>
      have ht : follow m a (i + 1) = t := by rw [follow, e]
      rw [e] at hm
      obtain ⟨h1, h2⟩ := ih (i + 1) (ht ▸ hm)
      refine ⟨fun j hj hn => ?_, by rw [← h2]; congr 2; omega⟩
      rcases Nat.eq_or_lt_of_le hj with rfl | hj
      · refine ⟨e.trans (by rw [ht]), fun ht' => ?_, by simpa using hb⟩
        simpa [ht'] using hq
      · exact h1 j hj (by omega)
    | fault r => rw [e] at hm; cases hm
    | refused r => rw [e] at hm; cases hm

/-- The quick frame's 71 choices: the buffer is empty first after the last. -/
theorem quick_prompt : promptTo quickMoves 71 0 quickArmed = true := by decide +kernel

/-- An `ARM`, MAIN waiting after it, and an execution under `ISR_PROMPT` up to the first empty buffer. -/
theorem witness_IdealFrameOnPin :
    quickStart.encw = encodeWord 65535#16 127#8 ∧ quickStart.gie = true ∧ quickStart.inh = false ∧
      exec .arm quickStart = .next quickArmed ∧ quickArmed.waiting ∧ follow quickMoves quickArmed 0 = quickArmed ∧
      Path quickMoves (follow quickMoves quickArmed) 71 ∧ IsrPrompt quickMoves (follow quickMoves quickArmed) 71 ∧
      (∀ i < 71, (follow quickMoves quickArmed i).buf ≠ 0#24) ∧ (follow quickMoves quickArmed 71).buf = 0#24 := by
  obtain ⟨h, hz⟩ := promptTo_spec quickMoves quickArmed 71 0 quick_prompt
  exact ⟨by decide, rfl, rfl, rfl, ⟨rfl, true, _, rfl⟩, rfl, fun i hi => (h i (by omega) (by omega)).1,
    fun i hi => (h i (by omega) (by omega)).2.1, fun i hi => (h i (by omega) (by omega)).2.2, hz⟩

/-- The same execution up to its last tick but one, and the first and the last number of ticks before `t_24` of the
shortest and the longest default frame. -/
theorem witness_BufferHoldsUntilLastEvent :
    quickStart.encw = encodeWord 65535#16 127#8 ∧ exec .arm quickStart = .next quickArmed ∧ quickArmed.waiting ∧
      Path quickMoves (follow quickMoves quickArmed) 69 ∧ IsrPrompt quickMoves (follow quickMoves quickArmed) 69 ∧
      tickCount quickMoves 69 = 46 ∧ 46 < frameTicks quick (wireBits 65535#16 127#8) ∧
      0 < frameTicks Config.default (wireBits 0#16 0#8) ∧ 3009 < frameTicks Config.default (wireBits 0#16 0#8) ∧
      3699 < frameTicks Config.default (wireBits 65535#16 127#8) := by
  obtain ⟨h, -⟩ := promptTo_spec quickMoves quickArmed 71 0 quick_prompt
  exact ⟨by decide, rfl, ⟨rfl, true, _, rfl⟩, fun i hi => (h i (by omega) (by omega)).1,
    fun i hi => (h i (by omega) (by omega)).2.1, by decide +kernel, by decide, by decide, by decide, by decide⟩

/-- The empty buffer at `t_24`; no tick, the last tick of the clean tail, and the extra event. -/
theorem witness_TailEndsInExtraEvent :
    tail.buf = 0#24 ∧ tail.cnt = 0 ∧ tail.cmpa = tail.cfg.tFull ∧ tail.cmpb = tail.cfg.inert ∧ tail.tien = 0x03#8 ∧
      tail.tctl = tail.cfg.cfgTctl ∧ tail.ifa = false ∧ tail.ifb = false ∧ tail.gie = true ∧ tail.inh = false ∧
      0 < tail.cfg.tFull ∧ 149 < tail.cfg.tFull ∧ 150 = tail.cfg.tFull := by decide

theorem witness_SegmentsReadBackToBits : hwFull Config.default ≠ hwHalf Config.default := by decide

/-- The same execution as for the ideal frame. -/
theorem witness_FrameReadsBackToCommand :
    quickStart.encw = encodeWord 65535#16 127#8 ∧ exec .arm quickStart = .next quickArmed ∧ quickArmed.waiting ∧
      Path quickMoves (follow quickMoves quickArmed) 71 ∧ IsrPrompt quickMoves (follow quickMoves quickArmed) 71 ∧
      (∀ i < 71, (follow quickMoves quickArmed i).buf ≠ 0#24) ∧ (follow quickMoves quickArmed 71).buf = 0#24 := by
  obtain ⟨h1, -, -, h2, h3, -, h4⟩ := witness_IdealFrameOnPin
  exact ⟨h1, h2, h3, h4⟩

/-- Both sources pending (the primary clause), the secondary alone, and none enabled. -/
theorem witness_InterruptServesOneSource :
    (let s : State := { firing with tifr := 0x03#8 }
     s.gie = true ∧ s.inh = false ∧ s.ifa = true ∧ s.iea = true) ∧
    (let s : State := { firing with tifr := 0x02#8 }
     s.gie = true ∧ s.inh = false ∧ ¬(s.ifa = true ∧ s.iea = true) ∧ s.ifb = true ∧ s.ieb = true) ∧
    (let s : State := { firing with tien := 0x00#8 }
     ¬(s.gie = true ∧ s.inh = false ∧ ((s.ifa = true ∧ s.iea = true) ∨ (s.ifb = true ∧ s.ieb = true)))) := by decide

theorem witness_NoInterruptWhileTimerNotHeld :
    (placed [.agent .irq] [.op .mainLoop]).Inv ∧ (placed [.agent .irq] [.op .mainLoop]).own = false ∧
      (placed [.agent .irq] [.op .mainLoop]).choice = .agent .irq :=
  ⟨witness_inv_free _, rfl, rfl⟩

/-- The last test that starts a frame and the first that ends the loop. -/
theorem witness_TransmitHwRunsItsLoop :
    ({ armed with rep := 127#8 } : State).rep.toNat < armed.cfg.nRepeat ∧
      armed.cfg.nRepeat ≤ ({ armed with rep := 128#8 } : State).rep.toNat := by decide

theorem witness_PollReadsBuffer : tail.buf = 0#24 ∧ armed.buf ≠ 0#24 := by decide

/-- A state whose next step takes the timer, for one frame of the empty word (X1), which `POLL` ends at once. -/
def acquiring : State :=
  { lent with
    cfg := { Config.default with nRepeat := 1, nRepeat_pos := by decide, nRepeat_le := by decide }
    ph := .acq, agenda := mainMoves 14, todo := [.op .acquire, .prim .repZero, .prim (.hwLoop true)] }

/-- The step that takes the timer, and the 13 steps of MAIN after it, of which the last gives it back. -/
theorem witness_SnapshotRestoredWhenTimerGivenBack :
    acquiring.Inv ∧ acquiring.own = false ∧
      (List.range 14).map (fun m => after (run (m + 1) acquiring) (fun u => u.own)) =
        List.replicate 13 (some true) ++ [some false] :=
  ⟨⟨⟨.acquiring, by decide, by simp only [Region.holds]; decide⟩, rfl, rfl, by decide, by decide⟩, rfl, by decide⟩

theorem witness_TransmitLegacyRunsItsLoop :
    ({ lent with rep := 179#8 } : State).rep.toNat < lent.cfg.nRepeatLegacy ∧
      lent.cfg.nRepeatLegacy ≤ ({ lent with rep := 180#8 } : State).rep.toNat := by decide

/-- From either level of the pin. -/
theorem witness_LegacyFrameOnPin :
    (placed [] [.prim (.legacyLoop 1#16 1#8)]).todo = .prim (.legacyLoop 1#16 1#8) :: [] ∧
      (placed [] [.prim (.legacyLoop 1#16 1#8)]).rep.toNat < Config.default.nRepeatLegacy ∧
      (placed [] [.prim (.legacyLoop 1#16 1#8)]).pin ≠ Config.default.pinInit ∧
      ({ placed [] [.prim (.legacyLoop 1#16 1#8)] with pin := true } : State).pin = Config.default.pinInit := by decide

/-- Tails of length 0 and of the greatest clean length. -/
theorem witness_SwitchCommandCompletes :
    (placed [] [.op (.switch 0x4C#8 8525#16 42#8 0#24)]).todo = .op (.switch 0x4C#8 8525#16 42#8 0#24) :: [] ∧
      Config.default.hwTimerAvailable = true ∧ (placed [] [.op (.switch 0x4C#8 8525#16 42#8 0#24)]).gie = true ∧
      (placed [] [.op (.switch 0x4C#8 8525#16 42#8 0#24)]).inh = false ∧
      (0 :: List.replicate 127 149).length = Config.default.nRepeat ∧
      ∀ d ∈ 0 :: List.replicate 127 149, d < Config.default.tFull := by
  refine ⟨by decide, by decide, by decide, by decide, by simp [Config.default], fun d hd => ?_⟩
  simp only [List.mem_cons, List.mem_replicate] at hd
  show d < 150
  omega

/-- A legacy switch command, and a switch command where hardware timing is not available. -/
theorem witness_SwitchLegacyCommandCompletes :
    (let r : Record := ⟨0x4C#8, 0x02#8, 1#16, 1#8, 0#24⟩
     let s : State := placed [] [.op (.switchLegacy 0x4C#8 1#16 1#8 0#24)]
     s.todo = .op (.switchLegacy r.tag r.rid r.key r.pad) :: [] ∧ r.kind = s.cfg.kindSwitchLegacy) ∧
    (let r : Record := ⟨0x4C#8, 0x01#8, 1#16, 1#8, 0#24⟩
     let s : State :=
       { placed [] [.op (.switch 0x4C#8 1#16 1#8 0#24)] with cfg := { Config.default with hwTimerAvailable := false } }
     s.todo = .op (.switch r.tag r.rid r.key r.pad) :: [] ∧ r.kind = s.cfg.kindSwitch ∧
       s.cfg.hwTimerAvailable = false) := by decide

/-- One place left, in each queue, and a full one. -/
theorem witness_QueueWriteStoresOrRefuses :
    (let s : State := { placed [] [] with iq := ⟨[], 14#4, 0#4⟩, oq := ⟨[], 15#4, 1#4⟩ }
     s.iq.head + 1#4 ≠ s.iq.tail ∧ s.oq.head + 1#4 ≠ s.oq.tail) ∧
    (let s : State := { placed [] [] with iq := ⟨[], 15#4, 0#4⟩ }
     (s.queue .iq).head + 1#4 = (s.queue .iq).tail) := by decide

/-- One record held, in each queue, and an empty one. -/
theorem witness_QueueReadTakesOrFindsNone :
    (let s : State := { placed [] [] with iq := ⟨[], 0#4, 15#4⟩, oq := ⟨[], 1#4, 0#4⟩ }
     s.iq.head ≠ s.iq.tail ∧ s.oq.head ≠ s.oq.tail) ∧
    ((placed [] []).queue .oq).head = ((placed [] []).queue .oq).tail := by decide

/-- The last slot, and an offset on each side of another slot. -/
theorem witness_QueueWriteChangesOnlyItsSlot :
    (let s : State := { placed [] [] with iq := ⟨[], 15#4, 3#4⟩ }
     s.iq.mem.wf ∧ s.oq.mem.wf ∧ (s.queue .iq).full = false ∧
       (∀ k < 8, 119 ≠ slotOffset (s.queue .iq).head k) ∧ (∀ k < 8, 128 ≠ slotOffset (s.queue .iq).head k)) ∧
    ∃ t : State, exec (.qWrite .iq (bytes 1#8 2#8 3#8 4#8 5#8 6#8 7#8 8#8))
      { placed [] [] with iq := ⟨[], 15#4, 3#4⟩ } = .next t :=
  ⟨by decide, _, rfl⟩

theorem witness_OtherInstructionsStoreNothing :
    storesRecord .arm = false ∧ ∃ t : State, exec .arm lent = .next t :=
  ⟨rfl, _, rfl⟩

theorem witness_QueueIsBoundedFifo : Queue.reset.mem.wf := by decide

theorem witness_QueueStoresFifteen : Queue.reset.mem.wf ∧ Queue.reset.empty = true := by decide

theorem witness_BootReadyOffersReadyOnce :
    (placed [] []).rdySent = false ∧ ({ placed [] [] with rdySent := true } : State).rdySent = true := by decide

theorem witness_DispatchRunsTheArm :
    (let s : State := { placed [] [] with cur := bytes 0x4C#8 0x01#8 0#8 0#8 0#8 0#8 0#8 0#8 }
     s.cur.kind = s.cfg.kindSwitch) ∧
    (let s : State := { placed [] [] with cur := bytes 0x4C#8 0x02#8 0#8 0#8 0#8 0#8 0#8 0#8 }
     s.cur.kind = s.cfg.kindSwitchLegacy) ∧
    (let s : State := { placed [] [] with cur := bytes 0x4C#8 0x03#8 0#8 0#8 0#8 0#8 0#8 0#8 }
     s.cur.kind ≠ s.cfg.kindSwitch ∧ s.cur.kind ≠ s.cfg.kindSwitchLegacy) := by decide

theorem witness_MainLoopServesFetchesDispatches :
    (placed [] []).iq.head = (placed [] []).iq.tail ∧
      (let s : State := { placed [] [] with iq := ⟨[(0, 0x4C#8)], 1#4, 0#4⟩ }
       s.iq.head ≠ s.iq.tail) := by decide

/-- The model's own map of actions meets the hypotheses; one list is fixed in advance, and none. -/
theorem witness_ServicePointRunsTransportActions :
    (∀ r : Record, TransportAction.task (.enqueue r) = .op (.qWrite .iq r)) ∧
      TransportAction.task .serve = .op (.qRead .oq) ∧
      ({ placed [] [] with xport := [[.serve]] } : State).xport = [.serve] :: [] ∧ (placed [] []).xport = [] :=
  ⟨fun _ => rfl, rfl, rfl, rfl⟩

/-- The other owner's move while the timer is lent, one that enables an engine interrupt, and one that does not. -/
theorem witness_OtherOwnerKeepsThePremise :
    (let s : State := { armed with agenda := [.owner ⟨0#8, 0#8, 0#8, 0, 0, 0, 0⟩] }
     s.choice = .owner ⟨0#8, 0#8, 0#8, 0, 0, 0, 0⟩ ∧ s.own = true) ∧
    (let s : State := { lent with agenda := [.owner ⟨6#8, 2#8, 0#8, 0, 0, 0, 0⟩] }
     s.choice = .owner ⟨6#8, 2#8, 0#8, 0, 0, 0, 0⟩ ∧ s.own = false ∧ enginesOff 2#8 = false) ∧
    (let s : State := { lent with agenda := [.owner ⟨6#8, 4#8, 0xFF#8, 9, 0, 0, 0⟩] }
     s.choice = .owner ⟨6#8, 4#8, 0xFF#8, 9, 0, 0, 0⟩ ∧ s.own = false ∧ enginesOff 4#8 = true) := by decide

theorem witness_StepKeepsInvariant :
    (placed [.agent .main] [.op .mainLoop]).Inv ∧ ∃ t : State, step (placed [.agent .main] [.op .mainLoop]) = .next t :=
  ⟨witness_inv_free _, _, rfl⟩

theorem witness_InvariantGivesR42 : armed.Inv ∧ (placed [.agent .tmr] [.op .mainLoop]).Inv :=
  ⟨witness_inv_running, witness_inv_free _⟩

theorem witness_StepKeepsStoresCanonical :
    (placed [.agent .main] [.op .bootReady]).iq.mem.wf ∧ (placed [.agent .main] [.op .bootReady]).oq.mem.wf ∧
      ∃ t : State, step (placed [.agent .main] [.op .bootReady]) = .next t :=
  ⟨by decide, by decide, _, rfl⟩

theorem witness_AgentStepAlwaysAnswers :
    (placed [.agent .main] []).choice = .agent .main ∧ (placed [.agent .irq] []).choice = .agent .irq ∧
      (placed [.agent .tmr] []).choice = .agent .tmr := by decide

theorem witness_StepKeepsParameters :
    ∃ t : State, step (placed [.agent .tmr] [.op .mainLoop]) = .next t :=
  ⟨_, rfl⟩

end Sys2Proof.Tests
end

section
/-! SUPPORT. The ProtocolEncoder (spec/40_encoder.md): the bits of the transmit word, and R110 to R113 from them. -/

namespace Sys2Proof.Machine

open Sys2Proof

/-! ## The bits of the transmit word -/

/-- The reversal of R110 on the bits: `TXW[i] = P[23-i]`. -/
theorem getLsbD_txWord {i : Nat} (hi : i < 24) (rid : RemoteId) (key : BitVec 7) :
    (txWord rid key).getLsbD i = (preWord rid key).getLsbD (23 - i) := by
  rw [txWord, rev24, BitVec.getLsbD_reverse, BitVec.getMsbD_eq_getLsbD, decide_eq_true hi, Bool.true_and]

/-- The on-wire order of `rid` is most significant bit first (R112 (c)). -/
theorem getLsbD_txWord_rid {i : Nat} (hi : i < 16) (rid : RemoteId) (key : BitVec 7) :
    (txWord rid key).getLsbD i = rid.getLsbD (15 - i) := by
  rw [getLsbD_txWord (by omega), preWord, BitVec.getLsbD_append, if_neg (by omega), BitVec.getLsbD_append,
    if_neg (by omega)]
  congr 1
  omega

/-- The key follows `rid`, most significant bit first (R112 (c)). -/
theorem getLsbD_txWord_key {j : Nat} (hj : j < 7) (rid : RemoteId) (key : BitVec 7) :
    (txWord rid key).getLsbD (16 + j) = key.getLsbD (6 - j) := by
  rw [getLsbD_txWord (by omega), preWord, BitVec.getLsbD_append, if_neg (by omega), BitVec.getLsbD_append,
    if_pos (by omega)]
  congr 1
  omega

/-- The terminator (R112 (a)). -/
theorem getLsbD_txWord_terminator (rid : RemoteId) (key : BitVec 7) : (txWord rid key).getLsbD 23 = true := by
  rw [getLsbD_txWord (by omega), preWord, BitVec.getLsbD_append, if_pos (by omega)]
  rfl

/-- The 23 significant bits read back from the word (R112 (c)). -/
theorem txWord_inj {rid rid' : RemoteId} {key key' : BitVec 7} (h : txWord rid key = txWord rid' key') :
    rid = rid' ∧ key = key' := by
  constructor
  · refine BitVec.eq_of_getLsbD_eq fun i hi => ?_
    have hbit := congrArg (·.getLsbD (15 - i)) h
    simpa only [getLsbD_txWord_rid (show 15 - i < 16 by omega), show 15 - (15 - i) = i by omega] using hbit
  · refine BitVec.eq_of_getLsbD_eq fun j hj => ?_
    have hbit := congrArg (·.getLsbD (16 + (6 - j))) h
    simpa only [getLsbD_txWord_key (show 6 - j < 7 by omega), show 6 - (6 - j) = j by omega] using hbit

/-! ## Shifts -/

/-- The terminator keeps a shifted word nonzero until it is shifted out (R94, R112 (e)). -/
theorem txWord_ushiftRight_ne_zero {n : Nat} (hn : n ≤ 23) (rid : RemoteId) (key : BitVec 7) :
    txWord rid key >>> n ≠ 0#24 := by
  intro h
  have hbit : (txWord rid key >>> n).getLsbD (23 - n) = true := by
    rw [BitVec.getLsbD_ushiftRight, Nat.add_sub_cancel' hn, getLsbD_txWord_terminator]
  simp [h] at hbit

/-! ## The encoder's result -/

/-- `ENCODE` answers and writes no state of the spec (R110). -/
theorem exec_encode (rid : RemoteId) (key : Byte) (s : State) :
    exec (.encode rid key) s = .next { s with ret := .word (encodeWord rid key) } := rfl

/-- The bits of `key[6:0]`. -/
theorem getLsbD_keyBits {j : Nat} (hj : j < 7) (key : Byte) : (keyBits key).getLsbD j = key.getLsbD j := by
  simp [keyBits, hj]

/-- `key[7]` is no significant bit (R111). -/
theorem keyBits_and_mask (key : Byte) : keyBits (key &&& 0x7F#8) = keyBits key := by
  refine BitVec.eq_of_getLsbD_eq fun j hj => ?_
  have hmask : ∀ j < 7, (0x7F#8).getLsbD j = true := by decide
  rw [getLsbD_keyBits hj, getLsbD_keyBits hj, BitVec.getLsbD_and, hmask j hj, Bool.and_true]

theorem getLsbD_encodeWord_rid {i : Nat} (hi : i < 16) (rid : RemoteId) (key : Byte) :
    (encodeWord rid key).getLsbD i = rid.getLsbD (15 - i) :=
  getLsbD_txWord_rid hi rid _

theorem getLsbD_encodeWord_key {j : Nat} (hj : j < 7) (rid : RemoteId) (key : Byte) :
    (encodeWord rid key).getLsbD (16 + j) = key.getLsbD (6 - j) := by
  rw [encodeWord, getLsbD_txWord_key hj, getLsbD_keyBits (by omega)]

theorem getLsbD_encodeWord_terminator (rid : RemoteId) (key : Byte) : (encodeWord rid key).getLsbD 23 = true :=
  getLsbD_txWord_terminator rid _

/-! ## The bytes of the word -/

/-- Bit `k` of a reversed slice is bit `n - 1 - k` of the slice. -/
theorem getLsbD_reverse_extractLsb' {w n k : Nat} (hk : k < n) (start : Nat) (x : BitVec w) :
    (x.extractLsb' start n).reverse.getLsbD k = x.getLsbD (start + (n - 1 - k)) := by
  rw [BitVec.getLsbD_reverse, BitVec.getMsbD_eq_getLsbD, BitVec.getLsbD_extractLsb', decide_eq_true hk,
    decide_eq_true (show n - 1 - k < n by omega), Bool.true_and, Bool.true_and]

/-- A byte of the word that lies in `rid`'s bits is the byte of `rid` at the mirrored place, reversed (R113). -/
theorem encodeWord_rid_byte {start : Nat} (hs : start ≤ 8) (rid : RemoteId) (key : Byte) :
    (encodeWord rid key).extractLsb' start 8 = (rid.extractLsb' (8 - start) 8).reverse := by
  refine BitVec.eq_of_getLsbD_eq fun k hk => ?_
  rw [getLsbD_reverse_extractLsb' hk, BitVec.getLsbD_extractLsb', decide_eq_true hk, Bool.true_and,
    getLsbD_encodeWord_rid (by omega)]
  congr 1
  omega

/-- The last byte: the terminator above the reversed key (R113). -/
theorem encodeWord_key_byte (rid : RemoteId) (key : Byte) :
    (encodeWord rid key).extractLsb' 16 8 = 0x80#8 ||| ((key.extractLsb' 0 7).reverse).setWidth 8 := by
  refine BitVec.eq_of_getLsbD_eq fun k hk => ?_
  have hlow : ∀ k < 7, (0x80#8).getLsbD k = false := by decide
  rw [BitVec.getLsbD_extractLsb', decide_eq_true hk, Bool.true_and, BitVec.getLsbD_or, BitVec.getLsbD_setWidth,
    decide_eq_true hk, Bool.true_and]
  rcases Nat.lt_succ_iff_lt_or_eq.mp hk with hk | rfl
  · rw [getLsbD_encodeWord_key hk, hlow k hk, getLsbD_reverse_extractLsb' hk, Bool.false_or, Nat.zero_add]
  · exact getLsbD_encodeWord_terminator rid key

/-! ## The statements -/

/-- Settles O11: each property is one of the word's bits, or follows from them all. -/
theorem encodedWordHasItsProperties : Obligations.EncodedWordHasItsProperties := by
  intro rid key
  refine ⟨exec_encode rid key, ?mask, getLsbD_encodeWord_terminator rid key, fun rid' key' h => txWord_inj h,
    fun i hi => (getLsbD_encodeWord_rid hi rid key).symm, fun j hj => (getLsbD_encodeWord_key hj rid key).symm,
    ?nonzero, fun n hn => txWord_ushiftRight_ne_zero hn rid _, BitVec.ushiftRight_eq_zero (Nat.le_refl 24)⟩
  case mask => rw [encodeWord, encodeWord, keyBits_and_mask]
  case nonzero => simpa [encodeWord] using txWord_ushiftRight_ne_zero (Nat.zero_le 23) rid (keyBits key)

/-- Settles O12: two bytes of `rid` and the byte of the key. -/
theorem encodedWordHasItsBytes : Obligations.EncodedWordHasItsBytes := fun rid key =>
  ⟨encodeWord_rid_byte (Nat.zero_le 8) rid key, encodeWord_rid_byte (Nat.le_refl 8) rid key,
    encodeWord_key_byte rid key⟩

/-- Settles O10: the word is `encodeWord rid key`, whose bits are known. -/
theorem encodeAnswersTransmitWord : Obligations.EncodeAnswersTransmitWord := fun rid key s =>
  ⟨encodeWord rid key, exec_encode rid key s, fun _ hi => getLsbD_encodeWord_rid hi rid key,
    fun _ hj => getLsbD_encodeWord_key hj rid key, getLsbD_encodeWord_terminator rid key⟩

end Sys2Proof.Machine
end


section
/-! SUPPORT. The PulseTimingEngine (spec/41_pulse_engine.md): the next state of `STOP`, and R126 from it. -/

namespace Sys2Proof.Machine

open Sys2Proof

/-- Clearing both flags is one mask: the other six bits stay. -/
theorem clearFlags_eq_and (tifr : Byte) : clearFlags tifr = tifr &&& 0xFC#8 := by
  have hmasks : 0xFE#8 &&& 0xFD#8 = 0xFC#8 := by decide
  rw [clearFlags, clearIfb, clearIfa, BitVec.and_assoc, hmasks]

/-- `STOP`'s body neither reads nor writes `GIE`, so the critical section around it leaves no mark (R11). -/
theorem critical_stopBody (s : State) : critical stopBody s = stopBody s := rfl

/-- The whole effect of `STOP` is its body (R126). -/
theorem exec_stop (s : State) : exec .stop s = .next (stopBody s) := by
  rw [← critical_stopBody]
  rfl

/-! ## The statement -/

/-- Settles O19: the body's writes, with the inert value and the clear of the flags written out. -/
theorem stopStopsFrame : Obligations.StopStopsFrame := by
  intro s
  rw [exec_stop, stopBody, clearFlags_eq_and, Config.inert]

end Sys2Proof.Machine
end

section
/-! SUPPORT. The TransmissionController (spec/42_transmission_controller.md): `ACQUIRE` and `RELEASE`, who writes `OWN` and
`SNAP`, and R159: the statements between taking the timer and giving it back. -/

namespace Sys2Proof.Machine

open Sys2Proof

/-! ## `ACQUIRE` and `RELEASE` -/

/-- `ACQUIRE`'s body neither reads nor writes `GIE`, so the critical section around it leaves no mark (R11). -/
theorem critical_acquireBody (s : State) : critical acquireBody s = acquireBody s := rfl

/-- The whole effect of `ACQUIRE` is its body (R151). -/
theorem exec_acquire (s : State) : exec .acquire s = .next (acquireBody s) := by
  rw [← critical_acquireBody]
  rfl

/-- The same for `RELEASE`'s body. -/
theorem critical_releaseBody (s : State) : critical releaseBody s = releaseBody s := rfl

/-- The whole effect of `RELEASE`'s critical section is its body (R158). -/
theorem primStep_releaseRegs (s : State) : primStep .releaseRegs s = releaseBody s := by
  rw [← critical_releaseBody]
  rfl

/-- The first statement of `RELEASE` drives the pin; the critical section is MAIN's next (R158). -/
theorem exec_release (s : State) :
    exec .release s = .next ((drivePin s.cfg.pinRest s).push [.prim .releaseRegs]) := rfl

/-- Giving the timer back puts the snapshot into the five registers (R158). -/
@[simp] theorem releaseBody_timerRegs (s : State) : (releaseBody s).timerRegs = s.snap := rfl

/-- Settles O32: the critical section is its body, which writes `SNAP` and `OWN` only. -/
theorem acquireSavesTimer : Obligations.AcquireSavesTimer := by
  intro s
  rw [exec_acquire, acquireBody, State.timerRegs]

/-- Settles O35: the pin, then the critical section's writes with the clear of the flags as one mask. -/
theorem releaseRestoresTimer : Obligations.ReleaseRestoresTimer := by
  intro s
  constructor
  · rw [exec_release, State.push, drivePin_todo]
    rfl
  · rw [primStep_releaseRegs, releaseBody, clearFlags_eq_and]

/-! ## Who writes `OWN` and `SNAP` -/

/-- `DISPATCH` writes neither (R191): it starts a command or replies. -/
theorem execDispatch_own_snap {s t : State} (h : execDispatch s = .next t) : t.own = s.own ∧ t.snap = s.snap := by
  unfold execDispatch at h
  split at h
  · cases h; exact ⟨rfl, rfl⟩
  · split at h
    · cases h; exact ⟨rfl, rfl⟩
    · cases h; exact ⟨enqueue_own _ _ _, enqueue_snap _ _ _⟩

/-- An interrupt writes neither, nor what MAIN has still to run. -/
theorem exec_irqEntry_own_snap_todo {s t : State} (h : exec .irqEntry s = .next t) :
    t.own = s.own ∧ t.snap = s.snap ∧ t.todo = s.todo := by
  cases h
  split
  · rcases serveIrq_cases s with ⟨-, e⟩ | ⟨-, e⟩ <;> rw [e] <;> exact ⟨rfl, rfl, rfl⟩
  · exact ⟨rfl, rfl, rfl⟩

/-- A tick writes neither, nor what MAIN has still to run. -/
theorem exec_tick_own_snap_todo {s t : State} (h : exec .tick s = .next t) :
    t.own = s.own ∧ t.snap = s.snap ∧ t.todo = s.todo := by
  cases h
  split <;> exact ⟨rfl, rfl, rfl⟩

/-- The timer's other owner writes neither, nor what MAIN has still to run (R248). -/
theorem ownerWrite_own_snap_todo {w : OwnerWrite} {s t : State} (h : ownerWrite w s = .next t) :
    t.own = s.own ∧ t.snap = s.snap ∧ t.todo = s.todo := by
  unfold ownerWrite at h
  split at h
  · cases h
  · split at h
    · cases h
    · cases h; exact ⟨rfl, rfl, rfl⟩

/-- `ACQUIRE` is the only instruction that writes `OWN` or `SNAP`. -/
theorem exec_own_snap {i : Instr} {s t : State} (hi : i ≠ .acquire) (h : exec i s = .next t) :
    t.own = s.own ∧ t.snap = s.snap := by
  cases i with
  | acquire => exact absurd rfl hi
  | dispatch => exact execDispatch_own_snap h
  | irqEntry =>
    obtain ⟨hown, hsnap, -⟩ := exec_irqEntry_own_snap_todo h
    exact ⟨hown, hsnap⟩
  | tick =>
    obtain ⟨hown, hsnap, -⟩ := exec_tick_own_snap_todo h
    exact ⟨hown, hsnap⟩
  | poll idle => cases h; split <;> exact ⟨rfl, rfl⟩
  | bootReady =>
    cases h
    split
    · exact ⟨rfl, rfl⟩
    · exact ⟨offerReady_own s, offerReady_snap s⟩
  | unknown tag kind rid key pad => cases h; exact ⟨enqueue_own _ _ _, enqueue_snap _ _ _⟩
  | ready => cases h; exact ⟨offerReady_own s, offerReady_snap s⟩
  | errUnknown tag rid key pad => cases h; exact ⟨enqueue_own _ _ _, enqueue_snap _ _ _⟩
  | qWrite q r => cases h; exact ⟨enqueue_own q r s, enqueue_snap q r s⟩
  | qRead q => cases h; exact ⟨dequeue_own q s, dequeue_snap q s⟩
  | xportService => cases h; exact ⟨push_own _ _, push_snap _ _⟩
  | _ => cases h; exact ⟨rfl, rfl⟩

/-- The critical section of `RELEASE` is the only other statement of MAIN that writes `OWN` or `SNAP`. -/
theorem primStep_own_snap {p : Prim} (hp : p ≠ .releaseRegs) (s : State) :
    (primStep p s).own = s.own ∧ (primStep p s).snap = s.snap := by
  cases p with
  | releaseRegs => exact absurd rfl hp
  | hwLoop idle => unfold primStep hwLoopStep; dsimp only; split <;> exact ⟨rfl, rfl⟩
  | legacyLoop rid key => unfold primStep legacyLoopStep; dsimp only; split <;> exact ⟨rfl, rfl⟩
  | fetch =>
    unfold primStep fetchStep
    dsimp only
    split <;> exact ⟨dequeue_own .iq s, dequeue_snap .iq s⟩
  | reply => exact ⟨enqueue_own .oq s.cur s, enqueue_snap .oq s.cur s⟩
  | _ => exact ⟨rfl, rfl⟩

/-- A statement of MAIN takes the timer, gives it back, or leaves `OWN` and `SNAP` as they are. -/
theorem runTask_own_snap_cases {x : Task} {s t : State} (h : runTask x s = .next t) :
    (x = .op .acquire ∧ t = acquireBody s) ∨ (x = .prim .releaseRegs ∧ t = releaseBody s) ∨
      (x ≠ .prim .releaseRegs ∧ t.own = s.own ∧ t.snap = s.snap) := by
  cases x with
  | op i =>
    by_cases hi : i = .acquire
    · subst hi
      rw [runTask, exec_acquire] at h
      cases h
      exact .inl ⟨rfl, rfl⟩
    · exact .inr (.inr ⟨Task.noConfusion, exec_own_snap hi h⟩)
  | prim p =>
    cases h
    by_cases hp : p = .releaseRegs
    · subst hp
      exact .inr (.inl ⟨rfl, primStep_releaseRegs s⟩)
    · exact .inr (.inr ⟨fun e => hp (Task.prim.inj e), primStep_own_snap hp s⟩)

/-- A step of the machine runs MAIN's next statement, or leaves `OWN`, `SNAP` and what MAIN has still to run as they
are: an interrupt, a tick, and a move of the timer's other owner write none of them. -/
theorem step_runs_task_or_keeps {s t : State} (h : step s = .next t) :
    (∃ (x : Task) (k : List Task), s.todo = x :: k ∧ runTask x { s.consume with todo := k } = .next t) ∨
      (t.own = s.own ∧ t.snap = s.snap ∧ t.todo = s.todo) := by
  rw [step_eq] at h
  split at h
  case h_1 =>
    rw [mainStep, consume_todo] at h
    split at h
    · cases h; exact .inr ⟨rfl, rfl, rfl⟩
    case h_2 x k hk => exact .inl ⟨x, k, hk, h⟩
  case h_2 => exact .inr (exec_irqEntry_own_snap_todo (s := s.consume) h)
  case h_3 => exact .inr (exec_tick_own_snap_todo (s := s.consume) h)
  case h_4 => exact .inr (ownerWrite_own_snap_todo (s := s.consume) h)

/-- `OWN` is set by MAIN's `ACQUIRE` only (R23, R151). -/
theorem step_takes_timer {s u : State} (hs : s.own = false) (h : step s = .next u) (hu : u.own = true) :
    ∃ k : List Task, s.todo = .op .acquire :: k ∧ u = acquireBody { s.consume with todo := k } := by
  rcases step_runs_task_or_keeps h with ⟨x, k, hk, hx⟩ | ⟨hown, -, -⟩
  · rcases runTask_own_snap_cases hx with ⟨rfl, e⟩ | ⟨-, e⟩ | ⟨-, hown, -⟩
    · exact ⟨k, hk, e⟩
    · rw [e, releaseBody_own] at hu
      cases hu
    · rw [hown, show State.own { s.consume with todo := k } = s.own from rfl, hs] at hu
      cases hu
  · rw [hown, hs] at hu
    cases hu

/-! ## The statements between `ACQUIRE` and the end of `RELEASE`

What MAIN has still to run while it holds the timer begins with statements that keep it, up to one that leads to the
critical section of `RELEASE`. This is all R159 needs of the invariant: no second `ACQUIRE` comes before the release. -/

/-- A statement of a hardware-timed command that takes no timer and gives none back, nor lays out one that does. -/
def Task.keepsTimer : Task → Bool
  | .prim (.phase _) => true
  | .prim .repZero => true
  | .prim .repInc => true
  | .op .arm => true
  | .op (.poll _) => true
  | .op .stop => true
  | .op .xportService => true
  | .op (.qWrite _ _) => true
  | .op (.qRead _) => true
  | _ => false

/-- A statement that gives the timer back, or from which MAIN goes on to the one that does (R152, R158). -/
def Task.leadsToRelease : Task → Bool
  | .prim (.hwLoop _) => true
  | .op .release => true
  | .prim .releaseRegs => true
  | _ => false

/-- A continuation that keeps the timer up to a statement that leads to the release. -/
def returnsTimer : List Task → Bool
  | [] => false
  | t :: ts => t.leadsToRelease || (t.keepsTimer && returnsTimer ts)

theorem returnsTimer_append {ts k : List Task} (hts : ∀ x ∈ ts, x.keepsTimer = true) (hk : returnsTimer k = true) :
    returnsTimer (ts ++ k) = true := by
  induction ts with
  | nil => exact hk
  | cons x ts ih =>
    have hx : x.keepsTimer = true := hts x List.mem_cons_self
    have hrest : returnsTimer (ts ++ k) = true := ih fun y hy => hts y (List.mem_cons_of_mem x hy)
    rw [List.cons_append, returnsTimer, hx, hrest, Bool.and_self, Bool.or_true]

/-- The places at which MAIN holds the timer. -/
abbrev Region.heldByMain (r : Region) : Prop := r ≠ .free ∧ r ≠ .acquiring

/-- The form of most rows of `Task.after`: from the places `c` says, to the place `q`. -/
theorem Region.heldByMain_of_ite {c : Prop} [Decidable c] {q r' : Region} (hq : q.heldByMain)
    (h : (if c then some q else none) = some r') : r'.heldByMain := by
  obtain ⟨-, h⟩ := Option.ite_none_right_eq_some.mp h
  cases h
  exact hq

/-- At a place where MAIN holds the timer its next statement leads to the release, or keeps the timer and leaves MAIN at
such a place. -/
theorem Task.after_of_heldByMain {t : Task} {r r' : Region} (hr : r.heldByMain) (h : t.after r = some r') :
    t.leadsToRelease = true ∨ (t.keepsTimer = true ∧ r'.heldByMain) := by
  have hfree : r ≠ .free := hr.1
  have hacq : r ≠ .acquiring := hr.2
  cases t with
  | prim p =>
    cases p with
    | hwLoop idle => exact .inl rfl
    | releaseRegs => exact .inl rfl
    | phase q =>
      refine .inr ⟨rfl, ?_⟩
      simp only [Task.after] at h
      split at h
      case h_1 => exact absurd rfl hfree
      case h_2 => exact absurd rfl hfree
      case h_6 => cases h
      all_goals cases h; decide
    | repZero =>
      refine .inr ⟨rfl, ?_⟩
      simp only [Task.after] at h
      split at h
      · cases h; decide
      · exact absurd rfl hfree
      · cases h
    | repInc => exact .inr ⟨rfl, Region.heldByMain_of_ite hr h⟩
    | _ => simp [Task.after, hfree] at h
  | op i =>
    cases i with
    | release => exact .inl rfl
    | arm => exact .inr ⟨rfl, Region.heldByMain_of_ite (q := .running) (by decide) h⟩
    | poll idle => exact .inr ⟨rfl, Region.heldByMain_of_ite (q := .running) (by decide) h⟩
    | stop => exact .inr ⟨rfl, Region.heldByMain_of_ite (q := .stopped) (by decide) h⟩
    | xportService => exact .inr ⟨rfl, Region.heldByMain_of_ite hr h⟩
    | qWrite q rec => exact .inr ⟨rfl, Region.heldByMain_of_ite hr h⟩
    | qRead q => exact .inr ⟨rfl, Region.heldByMain_of_ite hr h⟩
    | _ => simp [Task.after, hfree, hacq] at h

/-- A continuation in the controller's order, from a place where MAIN holds the timer, comes to the release. -/
theorem returnsTimer_of_follows {k : List Task} {r : Region} (hr : r.heldByMain) (h : follows r k = true) :
    returnsTimer k = true := by
  induction k generalizing r with
  | nil => exact absurd (beq_iff_eq.mp h) hr.1
  | cons x k ih =>
    rw [follows] at h
    split at h
    · cases h
    case h_2 r' hafter =>
      rw [returnsTimer]
      rcases Task.after_of_heldByMain hr hafter with hx | ⟨hx, hr'⟩
      · rw [hx, Bool.true_or]
      · rw [hx, ih hr' h, Bool.and_self, Bool.or_true]

/-- Under the invariant, after `ACQUIRE` MAIN comes to the release. -/
theorem returnsTimer_after_acquire {s : State} {k : List Task} (hinv : s.Inv) (hs : s.todo = .op .acquire :: k) :
    returnsTimer k = true := by
  obtain ⟨⟨r, hfollows, -⟩, -⟩ := hinv
  rw [hs, follows] at hfollows
  split at hfollows
  · cases hfollows
  case h_2 r' hafter =>
    have hheld : r'.heldByMain := Region.heldByMain_of_ite (q := .acquired) (by decide) hafter
    exact returnsTimer_of_follows hheld hfollows

theorem keepsTimer_of_mem_pollAgain (idle : Bool) : ∀ x ∈ pollAgain idle, x.keepsTimer = true := by
  cases idle <;> decide

theorem keepsTimer_transportTask (a : TransportAction) : (TransportAction.task a).keepsTimer = true := by
  cases a <;> rfl

/-- A statement that keeps the timer lays out only statements that keep it. -/
theorem runTask_returnsTimer_of_keepsTimer {x : Task} {s t : State} (hx : x.keepsTimer = true)
    (hk : returnsTimer s.todo = true) (h : runTask x s = .next t) : returnsTimer t.todo = true := by
  cases x with
  | prim p =>
    cases p with
    | phase q => cases h; exact hk
    | repZero => cases h; exact hk
    | repInc => cases h; exact hk
    | _ => cases hx
  | op i =>
    cases i with
    | arm => cases h; exact hk
    | stop => cases h; exact hk
    | qWrite q r => cases h; exact hk
    | qRead q => cases h; exact hk
    | poll idle =>
      cases h
      split
      · exact hk
      · exact returnsTimer_append (keepsTimer_of_mem_pollAgain idle) hk
    | xportService =>
      cases h
      refine returnsTimer_append (fun y hy => ?_) hk
      obtain ⟨a, -, rfl⟩ := List.mem_map.mp hy
      exact keepsTimer_transportTask a
    | _ => cases hx

/-- A statement that leads to the release gives the timer back, or lays out statements that come to the release: another
frame and the loop's next test, `RELEASE`, or its critical section. -/
theorem runTask_returnsTimer_of_leadsToRelease {x : Task} {s t : State} (hx : x.leadsToRelease = true)
    (h : runTask x s = .next t) : x = .prim .releaseRegs ∨ returnsTimer t.todo = true := by
  cases x with
  | prim p =>
    cases p with
    | releaseRegs => exact .inl rfl
    | hwLoop idle =>
      cases h
      right
      rw [primStep, hwLoopStep]
      split <;> rfl
    | _ => cases hx
  | op i =>
    cases i with
    | release => cases h; exact .inr rfl
    | _ => cases hx

/-! ## R159 -/

/-- MAIN holds the timer, took it when the five registers were `regs`, and comes to the release. -/
structure State.Borrowed (s : State) (regs : Snapshot) : Prop where
  own : s.own = true
  snap : s.snap = regs
  returns : returnsTimer s.todo = true

/-- The timer is given back as it was taken, when the five registers were `regs`. -/
structure State.GivenBack (s : State) (regs : Snapshot) : Prop where
  own : s.own = false
  snap : s.snap = regs
  timerRegs : s.timerRegs = regs

/-- The step that takes the timer saves the five registers, changes none of them, and starts a loan. -/
theorem step_takes_timer_borrowed {s u : State} (hinv : s.Inv) (hs : s.own = false) (h : step s = .next u)
    (hu : u.own = true) : u.timerRegs = s.timerRegs ∧ u.Borrowed s.timerRegs := by
  obtain ⟨k, hk, rfl⟩ := step_takes_timer hs h hu
  exact ⟨rfl, rfl, rfl, returnsTimer_after_acquire hinv hk⟩

/-- A statement of MAIN keeps a loan, or ends it. -/
theorem runTask_borrowed {x : Task} {s t : State} {regs : Snapshot} (hown : s.own = true) (hsnap : s.snap = regs)
    (hreturns : returnsTimer (x :: s.todo) = true) (h : runTask x s = .next t) :
    t.Borrowed regs ∨ t.GivenBack regs := by
  rcases runTask_own_snap_cases h with ⟨rfl, -⟩ | ⟨-, rfl⟩ | ⟨hx, hown', hsnap'⟩
  · cases hreturns
  · exact .inr ⟨releaseBody_own s, (releaseBody_snap s).trans hsnap, (releaseBody_timerRegs s).trans hsnap⟩
  · refine .inl ⟨hown'.trans hown, hsnap'.trans hsnap, ?_⟩
    rw [returnsTimer, Bool.or_eq_true, Bool.and_eq_true] at hreturns
    rcases hreturns with hleads | ⟨hkeeps, hk⟩
    · exact (runTask_returnsTimer_of_leadsToRelease hleads h).resolve_left hx
    · exact runTask_returnsTimer_of_keepsTimer hkeeps hk h

/-- A step of the machine keeps a loan, or ends it, whatever the schedule. -/
theorem step_borrowed {s t : State} {regs : Snapshot} (hs : s.Borrowed regs) (h : step s = .next t) :
    t.Borrowed regs ∨ t.GivenBack regs := by
  obtain ⟨hown, hsnap, hreturns⟩ := hs
  rcases step_runs_task_or_keeps h with ⟨x, k, hk, hx⟩ | ⟨hown', hsnap', htodo⟩
  · rw [hk] at hreturns
    exact runTask_borrowed (s := { s.consume with todo := k }) hown hsnap hreturns hx
  · exact .inl ⟨hown'.trans hown, hsnap'.trans hsnap, htodo ▸ hreturns⟩

/-- A run of `n + 1` steps begins with one step. -/
theorem run_succ {n : Nat} {s t : State} (h : run (n + 1) s = .next t) :
    ∃ v : State, step s = .next v ∧ run n v = .next t := by
  simp only [run, Host.Core.run] at h
  split at h
  case h_1 v hv => exact ⟨v, hv, h⟩
  all_goals cases h

theorem run_succ_of_step {s v : State} (h : step s = .next v) (n : Nat) : run (n + 1) s = run n v := by
  simp only [run, Host.Core.run]
  rw [show Sys2Proof.core.step = step from rfl, h]

/-- At the end of a run that holds the timer up to its last state the loan stands, or has just ended. -/
theorem run_borrowed {n : Nat} {u t : State} {regs : Snapshot} (hu : u.Borrowed regs) (h : run n u = .next t)
    (hheld : ∀ m < n, ∀ v : State, run m u = .next v → v.own = true) : t.Borrowed regs ∨ t.GivenBack regs := by
  induction n generalizing u with
  | zero => cases h; exact .inl hu
  | succ n ih =>
    obtain ⟨v, hv, hrun⟩ := run_succ h
    rcases step_borrowed hu hv with hb | hg
    · refine ih hb hrun fun m hm w hw => hheld (m + 1) (by omega) w ?_
      rw [run_succ_of_step hv, hw]
    · cases n with
      | zero => cases hrun; exact .inr hg
      | succ n =>
        have hown : v.own = true := hheld 1 (by omega) v (run_succ_of_step hv 0)
        rw [hg.own] at hown
        cases hown

/-- Settles O36: the loan the taking step starts, carried along the run. -/
theorem snapshotRestoredWhenTimerGivenBack : Obligations.SnapshotRestoredWhenTimerGivenBack := by
  intro s u hinv hs hstep hu
  obtain ⟨hregs, hborrowed⟩ := step_takes_timer_borrowed hinv hs hstep hu
  refine ⟨hregs, fun n t hrun hheld => ?_⟩
  rcases run_borrowed hborrowed hrun hheld with hb | hg
  · exact ⟨hb.snap, fun hown => absurd hb.own (by simp [hown])⟩
  · exact ⟨hg.snap, fun _ => hg.timerRegs⟩

end Sys2Proof.Machine
end

section
/-! SUPPORT. The CommandQueue (spec/43_command_queue.md): the next states of `Q_WRITE` and `Q_READ`, the records a queue
holds after each (R178), and after lists of them (R180). -/

namespace Sys2Proof.Machine

open Sys2Proof

/-! ## One step of `Q_WRITE` and of `Q_READ` -/

theorem exec_qWrite (q : QueueId) (r : Record) (s : State) : exec (.qWrite q r) s = .next (enqueue q r s) := rfl

theorem exec_qRead (q : QueueId) (s : State) : exec (.qRead q) s = .next (dequeue q s) := rfl

theorem Queue.full_iff (q : Queue) : q.full = true ↔ q.head + 1#4 = q.tail := beq_iff_eq

theorem Queue.empty_iff (q : Queue) : q.empty = true ↔ q.head = q.tail := beq_iff_eq

/-- `Q_WRITE` on a queue that is not full (R176). -/
theorem enqueue_of_not_full {q : QueueId} {s : State} (h : (s.queue q).head + 1#4 ≠ (s.queue q).tail) (r : Record) :
    enqueue q r s =
      { s.setQueue q ⟨memWrite (s.queue q).mem (s.queue q).head r, (s.queue q).head + 1#4, (s.queue q).tail⟩ with
        ret := .stored true, obs := .wrote q true :: s.obs } := by
  rcases enqueue_cases q r s with ⟨hfull, -⟩ | ⟨-, e⟩
  · exact absurd ((s.queue q).full_iff.mp hfull) h
  · exact e

/-- `Q_WRITE` on a full queue (R176). -/
theorem enqueue_of_full {q : QueueId} {s : State} (h : (s.queue q).head + 1#4 = (s.queue q).tail) (r : Record) :
    enqueue q r s = { s with ret := .stored false, obs := .wrote q false :: s.obs } := by
  rcases enqueue_cases q r s with ⟨-, e⟩ | ⟨hfull, -⟩
  · exact e
  · rw [(s.queue q).full_iff.mpr h] at hfull
    cases hfull

/-- `Q_READ` on a queue that is not empty (R177). -/
theorem dequeue_of_not_empty {q : QueueId} {s : State} (h : (s.queue q).head ≠ (s.queue q).tail) :
    dequeue q s =
      { s.setQueue q ⟨(s.queue q).mem, (s.queue q).head, (s.queue q).tail + 1#4⟩ with
        ret := .taken (some (memRead (s.queue q).mem (s.queue q).tail))
        obs := readObs q (some (memRead (s.queue q).mem (s.queue q).tail)) ++ s.obs } := by
  rcases dequeue_cases q s with ⟨hempty, -⟩ | ⟨-, e⟩
  · exact absurd ((s.queue q).empty_iff.mp hempty) h
  · exact e

/-- `Q_READ` on an empty queue (R177). -/
theorem dequeue_of_empty {q : QueueId} {s : State} (h : (s.queue q).head = (s.queue q).tail) :
    dequeue q s = { s with ret := .taken none } := by
  rcases dequeue_cases q s with ⟨-, e⟩ | ⟨hempty, -⟩
  · exact e
  · rw [(s.queue q).empty_iff.mpr h] at hempty
    cases hempty

/-- Settles O41: the two branches of `Q_WRITE`, the first for each queue. -/
theorem queueWriteStoresOrRefuses : Obligations.QueueWriteStoresOrRefuses := by
  intro r s
  refine ⟨fun h => ?iq, fun h => ?oq, fun q h => ?full⟩
  case iq => rw [exec_qWrite, enqueue_of_not_full (q := .iq) h]; rfl
  case oq => rw [exec_qWrite, enqueue_of_not_full (q := .oq) h]; rfl
  case full => rw [exec_qWrite, enqueue_of_full h]

/-- Settles O42: the two branches of `Q_READ`, the first for each queue. -/
theorem queueReadTakesOrFindsNone : Obligations.QueueReadTakesOrFindsNone := by
  intro s
  refine ⟨fun h => ?iq, fun h => ?oq, fun q h => ?empty⟩
  case iq => rw [exec_qRead, dequeue_of_not_empty (q := .iq) h]; rfl
  case oq => rw [exec_qRead, dequeue_of_not_empty (q := .oq) h]; rfl
  case empty => rw [exec_qRead, dequeue_of_empty h]

/-! ## The records held -/

@[simp] theorem Queue.contents_length (q : Queue) : q.contents.length = q.count := by
  simp [Queue.contents]

theorem Queue.count_lt (q : Queue) : q.count < 16 := (q.head - q.tail).isLt

/-- A full queue holds 15 records, and no other does (R39, R40). -/
theorem Queue.full_iff_count (q : Queue) : q.full = true ↔ q.count = 15 := by
  rw [q.full_iff, Queue.count]
  bv_omega

theorem Queue.empty_iff_count (q : Queue) : q.empty = true ↔ q.count = 0 := by
  rw [q.empty_iff, Queue.count]
  bv_omega

theorem Queue.contents_of_empty {q : Queue} (h : q.empty = true) : q.contents = [] :=
  List.eq_nil_of_length_eq_zero (q.contents_length.trans (q.empty_iff_count.mp h))

/-- The slot one past the newest record is the one at `HEAD`. -/
theorem Queue.tail_add_count (q : Queue) : q.tail + BitVec.ofNat 4 q.count = q.head := by
  rw [Queue.count]
  bv_omega

/-- No record held is in the slot at `HEAD`. -/
theorem Queue.tail_add_ne_head {q : Queue} {i : Nat} (hi : i < q.count) : q.tail + BitVec.ofNat 4 i ≠ q.head := by
  rw [Queue.count] at hi
  bv_omega

/-- A write that stores appends its record (R178). -/
theorem Queue.contents_stored {q : Queue} (hq : q.mem.wf) (hfull : q.full = false) (r : Record) :
    Queue.contents ⟨memWrite q.mem q.head r, q.head + 1#4, q.tail⟩ = q.contents ++ [r] := by
  have hcount : Queue.count ⟨memWrite q.mem q.head r, q.head + 1#4, q.tail⟩ = q.count + 1 := by
    have hne : q.head + 1#4 ≠ q.tail := fun e => by simp [q.full_iff.mpr e] at hfull
    simp only [Queue.count]
    bv_omega
  have hold : ∀ i ∈ List.range q.count, memRead (memWrite q.mem q.head r) (q.tail + BitVec.ofNat 4 i) =
      memRead q.mem (q.tail + BitVec.ofNat 4 i) := fun i hi => by
    rw [memRead_memWrite hq, if_neg (Queue.tail_add_ne_head (List.mem_range.mp hi))]
  have hnew : memRead (memWrite q.mem q.head r) (q.tail + BitVec.ofNat 4 q.count) = r := by
    rw [memRead_memWrite hq, if_pos q.tail_add_count]
  rw [Queue.contents, hcount, List.range_succ, List.map_append, List.map_congr_left hold, List.map_singleton, hnew,
    ← Queue.contents]

/-- The oldest record held is the one in the slot at `TAIL`; advancing `TAIL` leaves the others (R178). -/
theorem Queue.contents_of_not_empty {q : Queue} (hempty : q.empty = false) :
    q.contents = memRead q.mem q.tail :: Queue.contents ⟨q.mem, q.head, q.tail + 1#4⟩ := by
  have hcount : q.count = Queue.count ⟨q.mem, q.head, q.tail + 1#4⟩ + 1 := by
    have hne : q.head ≠ q.tail := fun e => by simp [q.empty_iff.mpr e] at hempty
    simp only [Queue.count]
    bv_omega
  have hslot (i : Nat) : q.tail + BitVec.ofNat 4 (i + 1) = q.tail + 1#4 + BitVec.ofNat 4 i := by bv_omega
  rw [Queue.contents, hcount, List.range_succ_eq_map, List.map_cons, List.map_map, Queue.contents, BitVec.add_zero]
  exact congrArg _ (List.map_congr_left fun i _ => congrArg (memRead q.mem) (hslot i))

/-- `Q_WRITE` by what the queue holds: refused at 15 records, appended below (R178, R179). -/
theorem Queue.write_contents_cases {q : Queue} (hq : q.mem.wf) (r : Record) :
    (q.count = 15 ∧ q.write r = (q, false)) ∨
    (q.count < 15 ∧ (q.write r).2 = true ∧ (q.write r).1.contents = q.contents ++ [r]) := by
  rcases q.write_cases r with ⟨hfull, e⟩ | ⟨hfull, e⟩
  · exact .inl ⟨q.full_iff_count.mp hfull, e⟩
  · right
    have hne : q.count ≠ 15 := fun h => by simp [q.full_iff_count.mpr h] at hfull
    have hlt := q.count_lt
    rw [e]
    exact ⟨by omega, rfl, Queue.contents_stored hq hfull r⟩

/-- `Q_READ` by what the queue holds: the oldest record is taken, if there is one (R178). -/
theorem Queue.read_contents (q : Queue) : q.read.2 = q.contents.head? ∧ q.read.1.contents = q.contents.tail := by
  rcases q.read_cases with ⟨hempty, e⟩ | ⟨hempty, e⟩ <;> rw [e]
  · rw [Queue.contents_of_empty hempty]
    exact ⟨rfl, rfl⟩
  · rw [Queue.contents_of_not_empty hempty]
    exact ⟨rfl, rfl⟩

/-! ## Lists of writes and of reads -/

theorem Queue.writeAll_cons (q : Queue) (r : Record) (rs : List Record) :
    q.writeAll (r :: rs) =
      (((q.write r).1.writeAll rs).1, (q.write r).2 :: ((q.write r).1.writeAll rs).2) := rfl

theorem Queue.readAll_succ (q : Queue) (n : Nat) :
    q.readAll (n + 1) = ((q.read.1.readAll n).1, q.read.2 :: (q.read.1.readAll n).2) := rfl

/-- After any writes a queue holds the first 15 of the records it held and those written. -/
theorem Queue.contents_writeAll {q : Queue} (hq : q.mem.wf) (rs : List Record) :
    (q.writeAll rs).1.contents = (q.contents ++ rs).take 15 := by
  induction rs generalizing q with
  | nil =>
    have hle : q.contents.length ≤ 15 := by
      rw [q.contents_length]
      exact Nat.le_of_lt_succ q.count_lt
    rw [List.append_nil, List.take_of_length_le hle]
    rfl
  | cons r rs ih =>
    rw [Queue.writeAll_cons, ih (Queue.write_wf hq r)]
    rcases Queue.write_contents_cases hq r with ⟨hcount, e⟩ | ⟨-, -, e⟩
    · have hlen : q.contents.length = 15 := q.contents_length.trans hcount
      rw [e, List.take_left' hlen, List.take_left' hlen]
    · rw [e, List.append_assoc, List.singleton_append]

/-- Of any writes those that find fewer than 15 records, with the ones written before them, answer true. -/
theorem Queue.writeAll_results {q : Queue} (hq : q.mem.wf) (rs : List Record) :
    (q.writeAll rs).2 = (List.range rs.length).map (fun i => decide (q.count + i < 15)) := by
  induction rs generalizing q with
  | nil => rfl
  | cons r rs ih =>
    rw [Queue.writeAll_cons, ih (Queue.write_wf hq r), List.length_cons, List.range_succ_eq_map, List.map_cons,
      List.map_map, List.cons.injEq, Nat.add_zero]
    rcases Queue.write_contents_cases hq r with ⟨hcount, e⟩ | ⟨hcount, hok, e⟩
    · rw [e]
      refine ⟨by simp [hcount], List.map_congr_left fun i _ => ?_⟩
      simp [hcount]
    · have hcount' : (q.write r).1.count = q.count + 1 := by
        rw [← Queue.contents_length, e, List.length_append, q.contents_length, List.length_singleton]
      refine ⟨by simp [hok, hcount], List.map_congr_left fun i _ => ?_⟩
      rw [hcount', Function.comp_apply, Nat.add_assoc, Nat.add_comm 1 i]

/-- Reads answer the records held, the oldest first, and then none (R178). -/
theorem Queue.readAll_results (q : Queue) (n : Nat) :
    (q.readAll n).2 = (List.range n).map (fun i => q.contents[i]?) := by
  induction n generalizing q with
  | zero => rfl
  | succ n ih =>
    obtain ⟨hfirst, hrest⟩ := q.read_contents
    rw [Queue.readAll_succ, ih, hfirst, hrest, List.range_succ_eq_map, List.map_cons, List.map_map]
    simp [Function.comp_def, List.head?_eq_getElem?]

/-- Settles O46: an empty queue holds no record, so what it holds after the writes is their first 15. -/
theorem queueStoresFifteen : Obligations.QueueStoresFifteen := by
  intro q rs n hq hempty
  constructor
  · rw [Queue.writeAll_results hq, q.empty_iff_count.mp hempty]
    simp only [Nat.zero_add]
  · rw [Queue.readAll_results, Queue.contents_writeAll hq, Queue.contents_of_empty hempty, List.nil_append]

end Sys2Proof.Machine
end

section
/-! SUPPORT. The HostExchangeProtocol (spec/44_host_exchange.md): a record offered to `OQ`, the two branches of
`BOOT_READY` (R195) and the three arms of `DISPATCH` (R191). -/

namespace Sys2Proof.Machine

open Sys2Proof

/-! ## A record offered to `OQ` -/

/-- The result of `Q_WRITE` is whether the queue had room (R176). -/
theorem Queue.write_result (q : Queue) (r : Record) : (q.write r).2 = !q.full := by
  rcases q.write_cases r with ⟨hfull, e⟩ | ⟨hfull, e⟩ <;> rw [e, hfull] <;> rfl

/-- Offering a record to `OQ` writes that queue and the result, and nothing else of the spec's state (R176, R196). -/
theorem enqueue_oq_eq (r : Record) (s : State) :
    enqueue .oq r s =
      { s with oq := (s.oq.write r).1, ret := .stored (!s.oq.full), obs := .wrote .oq (!s.oq.full) :: s.obs } := by
  rw [enqueue, State.queue, Queue.write_result, State.setQueue]

/-! ## `BOOT_READY` -/

theorem exec_bootReady_of_not_sent {s : State} (h : s.rdySent = false) :
    exec .bootReady s = .next (offerReady s) := by
  rw [exec, execBootReady, h]
  rfl

theorem exec_bootReady_of_sent {s : State} (h : s.rdySent = true) : exec .bootReady s = .next s := by
  rw [exec, execBootReady, if_pos h]

/-- The ready record is offered and `RDY_SENT <- 1` is the next statement (R195). -/
theorem offerReady_eq (s : State) :
    offerReady s =
      { s with
        oq := (s.oq.write s.cfg.readyRecord).1
        todo := .prim .readySent :: s.todo
        ret := .stored (!s.oq.full)
        obs := .wrote .oq (!s.oq.full) :: s.obs } := by
  rw [offerReady, enqueue_oq_eq]
  rfl

/-- Settles O50: the two branches of the test of `RDY_SENT`, and the write of `RDY_SENT` between them. -/
theorem bootReadyOffersReadyOnce : Obligations.BootReadyOffersReadyOnce := by
  intro s
  refine ⟨fun h => ?first, rfl, exec_bootReady_of_sent⟩
  case first => rw [exec_bootReady_of_not_sent h, offerReady_eq, Config.readyRecord]

/-! ## `DISPATCH` -/

/-- The arm `DISPATCH` runs is the instruction the command decoder reads in `CUR` (R91, R191). -/
theorem exec_dispatch (s : State) : exec .dispatch s = exec (decodeCommand s.cfg s.cur) s := by
  rw [exec, execDispatch, decodeCommand]
  split_ifs <;> rfl

/-- A `SWITCH` in `CUR`: latching it once more changes nothing. -/
theorem exec_dispatch_of_switch {s : State} (h : s.cur.kind = s.cfg.kindSwitch) :
    exec .dispatch s = .next (s.push [.op (.transmit s.cur.rid s.cur.key true true), .prim .reply]) := by
  rw [exec_dispatch, decodeCommand, if_pos h, exec, execSwitch, ← h]

/-- A `SWITCH_LEGACY` in `CUR`: the kinds are distinct, so the first test fails (R7). -/
theorem exec_dispatch_of_switchLegacy {s : State} (h : s.cur.kind = s.cfg.kindSwitchLegacy) :
    exec .dispatch s = .next (s.push [.op (.transmit s.cur.rid s.cur.key false false), .prim .reply]) := by
  have hne : s.cur.kind ≠ s.cfg.kindSwitch := fun e => s.cfg.switch_ne_legacy (e.symm.trans h)
  rw [exec_dispatch, decodeCommand, if_neg hne, if_pos h, exec, execSwitchLegacy, ← h]

/-- Any other record in `CUR` is answered with its error-marked copy. -/
theorem exec_dispatch_of_unknown {s : State} (hswitch : s.cur.kind ≠ s.cfg.kindSwitch)
    (hlegacy : s.cur.kind ≠ s.cfg.kindSwitchLegacy) :
    exec .dispatch s = .next (enqueue .oq (errorCopy s.cfg s.cur) s) := by
  rw [exec_dispatch, decodeCommand, if_neg hswitch, if_neg hlegacy, exec, execUnknown]

/-- Settles O51: the three arms of the decoder. -/
theorem dispatchRunsTheArm : Obligations.DispatchRunsTheArm := by
  intro s
  refine ⟨exec_dispatch_of_switch, exec_dispatch_of_switchLegacy, fun hswitch hlegacy => ?unknown⟩
  case unknown => rw [exec_dispatch_of_unknown hswitch hlegacy, enqueue_oq_eq, errorCopy]

end Sys2Proof.Machine
end

section
/-! SUPPORT. Reset (spec/70_reset_and_hazards.md): the values R245 states, and the first half of R248's premise at reset. -/

namespace Sys2Proof.Machine

open Sys2Proof

/-- The premise on `TIEN` is the one on its two engine bits (R33, R248). -/
theorem enginesOff_tien_iff (s : State) : enginesOff s.tien = true ↔ s.iea = false ∧ s.ieb = false := by
  rw [enginesOff, Bool.and_eq_true, Bool.not_eq_true', Bool.not_eq_true', State.iea, State.ieb]

/-- R248 at reset: no engine interrupt is enabled. -/
theorem enginesOff_reset_tien : enginesOff State.reset.tien = true := by decide

/-- Settles O1: a value R245 writes is the field's own, and the two enable bits are R248's premise at reset. -/
theorem resetHoldsSpecValues : Obligations.ResetHoldsSpecValues := by
  unfold Obligations.ResetHoldsSpecValues
  obtain ⟨hiea, hieb⟩ := (enginesOff_tien_iff State.reset).mp enginesOff_reset_tien
  refine ⟨?buf, ?pin, ?es, ?own, ?rep, ?ph, ?rdySent, ?inh, ?gie, ?iqHead, ?iqTail, ?oqHead, ?oqTail,
    hiea, hieb, ?todo⟩
  all_goals rfl

end Sys2Proof.Machine
end

section
/-! SUPPORT. What one move of the schedule can do (R224), and which registers each kind of move leaves as they were. Every
claim about all steps is read off these. -/

namespace Sys2Proof.Machine

open Sys2Proof

/-! ## The registers MAIN's other statements keep -/

/-- The engine, the timer, the snapshot and the two interrupt bits are as before. -/
structure State.SameEngine (s t : State) : Prop where
  cfg : t.cfg = s.cfg
  buf : t.buf = s.buf
  es : t.es = s.es
  own : t.own = s.own
  snap : t.snap = s.snap
  cnt : t.cnt = s.cnt
  tctl : t.tctl = s.tctl
  tien : t.tien = s.tien
  tifr : t.tifr = s.tifr
  cmpa : t.cmpa = s.cmpa
  cmpb : t.cmpb = s.cmpb
  cmpc : t.cmpc = s.cmpc
  gie : t.gie = s.gie
  inh : t.inh = s.inh

theorem State.SameEngine.refl (s : State) : s.SameEngine s := by constructor <;> rfl

theorem State.SameEngine.push (s : State) (ts : List Task) : s.SameEngine (s.push ts) := by constructor <;> rfl

theorem State.SameEngine.enqueue (q : QueueId) (r : Record) (s : State) : s.SameEngine (enqueue q r s) := by
  constructor <;> rfl

theorem State.SameEngine.offerReady (s : State) : s.SameEngine (offerReady s) := by
  rw [offerReady_eq]
  constructor <;> rfl

/-- The instructions that write one of these registers. -/
def writesEngine : Instr → Bool
  | .sym1 => true
  | .sym0 => true
  | .tick => true
  | .arm => true
  | .isrP => true
  | .stop => true
  | .acquire => true
  | .irqEntry => true
  | _ => false

/-- Every other instruction keeps them all: it works on the queues, the pin and MAIN's own registers. -/
theorem exec_sameEngine {i : Instr} {s t : State} (hi : writesEngine i = false) (h : exec i s = .next t) :
    s.SameEngine t := by
  cases i with
  | sym1 => cases hi
  | sym0 => cases hi
  | tick => cases hi
  | arm => cases hi
  | isrP => cases hi
  | stop => cases hi
  | acquire => cases hi
  | irqEntry => cases hi
  | dispatch =>
    rw [exec_dispatch, decodeCommand] at h
    split at h
    · cases h; constructor <;> rfl
    · split at h <;> (cases h; constructor <;> rfl)
  | poll idle =>
    cases h
    split
    · exact .refl s
    · exact .push s _
  | bootReady =>
    cases h
    split
    · exact .refl s
    · exact .offerReady s
  | ready => cases h; exact .offerReady s
  | _ => cases h; constructor <;> rfl

/-- The critical section of `RELEASE` is the only primitive statement of MAIN that writes one of them. -/
theorem primStep_sameEngine {p : Prim} (hp : p ≠ .releaseRegs) (s : State) : s.SameEngine (primStep p s) := by
  cases p with
  | releaseRegs => exact absurd rfl hp
  | hwLoop idle => rw [primStep, hwLoopStep]; split <;> exact .push s _
  | legacyLoop rid key => rw [primStep, legacyLoopStep]; split <;> exact .push s _
  | fetch => rw [primStep, fetchStep]; split <;> (constructor <;> rfl)
  | reply => exact .enqueue .oq s.cur s
  | _ => constructor <;> rfl

/-! ## What ticks and interrupts keep -/

/-- What MAIN and the timer's other owner write, and no tick and no interrupt, is as before. -/
structure State.SameController (s t : State) : Prop where
  cfg : t.cfg = s.cfg
  es : t.es = s.es
  own : t.own = s.own
  encw : t.encw = s.encw
  rep : t.rep = s.rep
  ph : t.ph = s.ph
  hwsel : t.hwsel = s.hwsel
  cur : t.cur = s.cur
  snap : t.snap = s.snap
  tctl : t.tctl = s.tctl
  tien : t.tien = s.tien
  cmpc : t.cmpc = s.cmpc
  iq : t.iq = s.iq
  oq : t.oq = s.oq
  todo : t.todo = s.todo
  agenda : t.agenda = s.agenda

theorem State.SameController.refl (s : State) : s.SameController s := by constructor <;> rfl

theorem State.SameController.trans {s t u : State} (h : s.SameController t) (h' : t.SameController u) :
    s.SameController u where
  cfg := h'.cfg.trans h.cfg
  es := h'.es.trans h.es
  own := h'.own.trans h.own
  encw := h'.encw.trans h.encw
  rep := h'.rep.trans h.rep
  ph := h'.ph.trans h.ph
  hwsel := h'.hwsel.trans h.hwsel
  cur := h'.cur.trans h.cur
  snap := h'.snap.trans h.snap
  tctl := h'.tctl.trans h.tctl
  tien := h'.tien.trans h.tien
  cmpc := h'.cmpc.trans h.cmpc
  iq := h'.iq.trans h.iq
  oq := h'.oq.trans h.oq
  todo := h'.todo.trans h.todo
  agenda := h'.agenda.trans h.agenda

/-- An interrupt uses no state of MAIN (R221 to R223). -/
theorem serveIrq_sameController (s : State) : s.SameController (serveIrq s) := by
  rcases serveIrq_cases s with ⟨-, e⟩ | ⟨-, e⟩ <;> rw [e] <;> constructor <;> rfl

/-- A tick writes the counter and the flags (R120). -/
theorem countTick_sameController (s : State) : s.SameController (countTick s) := by constructor <;> rfl

/-! ## The moves -/

/-- The state after the other owner's writes (R248). -/
def State.ownerWrites (s : State) (w : OwnerWrite) : State :=
  { s with
    tctl := w.tctl
    tien := w.tien
    tifr := w.tifr
    cnt := s.truncW w.cnt
    cmpa := s.truncW w.cmpa
    cmpb := s.truncW w.cmpb
    cmpc := s.truncW w.cmpc }

/-- The ways a move answers a next state (R224), one for each branch. -/
inductive Moved (s : State) : Move → State → Prop where
  /-- MAIN has no statement left -/
  | rest : s.todo = [] → Moved s (.agent .main) s
  /-- MAIN runs its next statement -/
  | statement {x : Task} {k : List Task} {t : State} :
      s.todo = x :: k → runTask x { s with todo := k } = .next t → Moved s (.agent .main) t
  /-- an interrupt, entry to return -/
  | interrupt : s.irqEnabled = true → Moved s (.agent .irq) (serveIrq s)
  /-- no entry is enabled -/
  | noInterrupt : s.irqEnabled = false → Moved s (.agent .irq) s
  /-- a tick -/
  | tick : s.clocked = true → Moved s (.agent .tmr) (countTick s)
  /-- the clock is stopped -/
  | noTick : s.clocked = false → Moved s (.agent .tmr) s
  /-- the other owner writes the timer it holds -/
  | owner {w : OwnerWrite} :
      s.own = false → enginesOff w.tien = true → Moved s (.owner w) (s.ownerWrites w)

theorem exec_irqEntry_of_enabled {s : State} (h : s.irqEnabled = true) : exec .irqEntry s = .next (serveIrq s) := by
  rw [exec, execIrqEntry, if_pos h]

theorem exec_irqEntry_of_not_enabled {s : State} (h : s.irqEnabled = false) : exec .irqEntry s = .next s := by
  rw [exec, execIrqEntry, h, if_neg Bool.false_ne_true]

theorem exec_tick_of_clocked {s : State} (h : s.clocked = true) : exec .tick s = .next (countTick s) := by
  rw [exec, execTick, if_pos h]

theorem exec_tick_of_not_clocked {s : State} (h : s.clocked = false) : exec .tick s = .next s := by
  rw [exec, execTick, h, if_neg Bool.false_ne_true]

theorem moved_of_moveStep {m : Move} {s t : State} (h : moveStep m s = .next t) : Moved s m t := by
  rcases m with (_ | _ | _) | w
  · simp only [moveStep, mainStep] at h
    split at h
    case h_1 hnil => cases h; exact .rest hnil
    case h_2 x k hcons => exact .statement hcons h
  · cases henabled : s.irqEnabled
    · cases (exec_irqEntry_of_not_enabled henabled).symm.trans h
      exact .noInterrupt henabled
    · cases (exec_irqEntry_of_enabled henabled).symm.trans h
      exact .interrupt henabled
  · cases hclocked : s.clocked
    · cases (exec_tick_of_not_clocked hclocked).symm.trans h
      exact .noTick hclocked
    · cases (exec_tick_of_clocked hclocked).symm.trans h
      exact .tick hclocked
  · simp only [moveStep, ownerWrite] at h
    split at h
    · cases h
    case isFalse hown =>
      split at h
      · cases h
      case isFalse hoff =>
        cases h
        exact .owner (by simpa using hown) (by simpa using hoff)

theorem moved_of_step {s t : State} (h : step s = .next t) : Moved s.consume s.choice t := moved_of_moveStep h

/-! ## The parameters -/

/-- No instruction writes the parameters. -/
theorem exec_cfg {i : Instr} {s t : State} (h : exec i s = .next t) : t.cfg = s.cfg := by
  cases i with
  | irqEntry =>
    cases h
    split
    · exact (serveIrq_sameController s).cfg
    · rfl
  | tick => cases h; split <;> rfl
  | sym1 => cases h; rfl
  | sym0 => cases h; rfl
  | arm => cases h; rfl
  | isrP => cases h; rfl
  | stop => cases h; rfl
  | acquire => cases h; rfl
  | _ => exact (exec_sameEngine rfl h).cfg

theorem primStep_cfg (p : Prim) (s : State) : (primStep p s).cfg = s.cfg := by
  by_cases hp : p = .releaseRegs
  · subst hp; rfl
  · exact (primStep_sameEngine hp s).cfg

theorem runTask_cfg {x : Task} {s t : State} (h : runTask x s = .next t) : t.cfg = s.cfg := by
  cases x with
  | op i => exact exec_cfg h
  | prim p => cases h; exact primStep_cfg p s

theorem Moved.cfg {m : Move} {s t : State} (h : Moved s m t) : t.cfg = s.cfg := by
  cases h with
  | rest => rfl
  | statement _ hx => exact (runTask_cfg hx).trans rfl
  | interrupt => exact (serveIrq_sameController s).cfg
  | noInterrupt => rfl
  | tick => rfl
  | noTick => rfl
  | owner => rfl

/-- Settles O60: no move writes the parameters, and taking the choice writes the schedule only. -/
theorem stepKeepsParameters : Obligations.StepKeepsParameters := by
  intro s t h
  exact (moved_of_step h).cfg.trans (consume_cfg s)

/-! ## No stop -/

/-- Every instruction answers a next state (R210). -/
theorem exec_answers (i : Instr) (s : State) : ∃ t : State, exec i s = .next t := by
  cases i with
  | dispatch =>
    rw [exec_dispatch, decodeCommand]
    split
    · exact ⟨_, rfl⟩
    · split <;> exact ⟨_, rfl⟩
  | _ => exact ⟨_, rfl⟩

/-- MAIN has a next state whatever its statement is. -/
theorem mainStep_answers (s : State) : ∃ t : State, mainStep s = .next t := by
  rw [mainStep]
  split
  · exact ⟨s, rfl⟩
  case h_2 x k hk =>
    cases x with
    | op i => exact exec_answers i _
    | prim p => exact ⟨_, rfl⟩

/-- Settles O59: each agent's move is a statement of MAIN or an instruction, and both answer. -/
theorem agentStepAlwaysAnswers : Obligations.AgentStepAlwaysAnswers := by
  intro s a hchoice
  rw [step_eq, hchoice]
  cases a with
  | main => exact mainStep_answers s.consume
  | irq => exact exec_answers .irqEntry s.consume
  | tmr => exact exec_answers .tick s.consume

/-! ## The writers of `ES` -/

/-- `ARM` and `STOP` are the only instructions that write `ES` (R134). -/
theorem exec_es {i : Instr} {s t : State} (harm : i ≠ .arm) (hstop : i ≠ .stop) (h : exec i s = .next t) :
    t.es = s.es := by
  cases i with
  | arm => exact absurd rfl harm
  | stop => exact absurd rfl hstop
  | irqEntry =>
    cases h
    split
    · exact (serveIrq_sameController s).es
    · rfl
  | tick => cases h; split <;> rfl
  | sym1 => cases h; rfl
  | sym0 => cases h; rfl
  | isrP => cases h; rfl
  | acquire => cases h; rfl
  | _ => exact (exec_sameEngine rfl h).es

/-- The statements of MAIN that write `ES`, with what each writes (R134). -/
theorem runTask_es_cases {x : Task} {s t : State} (h : runTask x s = .next t) :
    t.es = s.es ∨ (x = .op .arm ∧ t.es = .running) ∨ (x = .op .stop ∧ t.es = .stopped) ∨
      (x = .prim .releaseRegs ∧ t.es = .idle) := by
  cases x with
  | op i =>
    by_cases harm : i = .arm
    · subst harm; cases h; exact .inr (.inl ⟨rfl, rfl⟩)
    · by_cases hstop : i = .stop
      · subst hstop; cases h; exact .inr (.inr (.inl ⟨rfl, rfl⟩))
      · exact .inl (exec_es harm hstop h)
  | prim p =>
    cases h
    by_cases hp : p = .releaseRegs
    · subst hp; exact .inr (.inr (.inr ⟨rfl, rfl⟩))
    · exact .inl (primStep_sameEngine hp s).es

/-- Settles O20: of all moves only MAIN's three statements write `ES`. -/
theorem engineStateChangesOnlyByMain : Obligations.EngineStateChangesOnlyByMain := by
  intro s t h hes
  have hmoved := moved_of_step h
  generalize s.choice = m at hmoved ⊢
  cases hmoved with
  | rest => exact absurd (consume_es s) hes
  | statement htodo hx =>
    rw [consume_todo] at htodo
    rw [htodo]
    rcases runTask_es_cases hx with hsame | ⟨rfl, hnew⟩ | ⟨rfl, hnew⟩ | ⟨rfl, hnew⟩
    · exact absurd hsame hes
    · exact ⟨rfl, .inl ⟨rfl, hnew⟩⟩
    · exact ⟨rfl, .inr (.inl ⟨rfl, hnew⟩)⟩
    · exact ⟨rfl, .inr (.inr ⟨rfl, hnew⟩)⟩
  | interrupt => exact absurd (serveIrq_sameController s.consume).es hes
  | noInterrupt => exact absurd (consume_es s) hes
  | tick => exact absurd (countTick_sameController s.consume).es hes
  | noTick => exact absurd (consume_es s) hes
  | owner => exact absurd (consume_es s) hes

end Sys2Proof.Machine
end

section
/-! SUPPORT. The invariant (spec/10_state.md R42): MAIN's place in a command after each of its statements, the registers at
that place, and what ticks, interrupts and the timer's other owner keep of it. -/

namespace Sys2Proof.Machine

open Sys2Proof

/-! ## The parameters as `W`-bit values (R7) -/

theorem inert_lt (c : Config) : c.inert < 2 ^ c.w := Nat.sub_lt (Nat.two_pow_pos c.w) Nat.one_pos

theorem tStart_lt (c : Config) : c.tStart < 2 ^ c.w := c.tStart_lt_inert.trans (inert_lt c)

theorem tFull_lt (c : Config) : c.tFull < 2 ^ c.w := c.tFull_lt_inert.trans (inert_lt c)

theorem tBit_lt (c : Config) : 2 * c.tHalf < 2 ^ c.w := c.tBit_lt_inert.trans (inert_lt c)

theorem tHalf_lt (c : Config) : c.tHalf < 2 ^ c.w := c.tHalf_lt_tFull.trans (tFull_lt c)

/-- A symbol's compare values (R124) are `W`-bit values. -/
theorem symbol_compare_lt (c : Config) (b : Bool) :
    (if b then c.tFull else 2 * c.tHalf) < 2 ^ c.w ∧ (if b then c.inert else c.tHalf) < 2 ^ c.w := by
  cases b
  · exact ⟨tBit_lt c, tHalf_lt c⟩
  · exact ⟨tFull_lt c, inert_lt c⟩

/-! ## MAIN's place -/

/-- MAIN is at the place `r`: its continuation runs from there, and the registers are as the place says. -/
def State.At (s : State) (r : Region) : Prop := follows r s.todo = true ∧ r.holds s

theorem State.Inv.intro {s : State} {r : Region} (hat : s.At r) (hgie : s.gie = true) (hinh : s.inh = false)
    (hsnap : s.own = true → enginesOff s.snap.tien = true) (hfits : s.fits) : s.Inv :=
  ⟨⟨r, hat⟩, hgie, hinh, hsnap, hfits⟩

/-- The invariant with MAIN's place moved, where no register it speaks of has changed. -/
theorem State.Inv.of_sameEngine {s t : State} {r : Region} (hinv : s.Inv) (hsame : s.SameEngine t) (hat : t.At r) :
    t.Inv := by
  obtain ⟨-, hgie, hinh, hsnap, hfits⟩ := hinv
  refine .intro hat (hsame.gie.trans hgie) (hsame.inh.trans hinh) ?_ ?_
  · rw [hsame.own, hsame.snap]
    exact hsnap
  · rw [State.fits, hsame.cfg, hsame.cnt, hsame.cmpa, hsame.cmpb, hsame.cmpc, hsame.snap]
    exact hfits

theorem follows_cons {r : Region} {x : Task} {k : List Task} :
    follows r (x :: k) = true ↔ ∃ r' : Region, x.after r = some r' ∧ follows r' k = true := by
  rw [follows]
  cases x.after r <;> simp

/-- Statements that leave MAIN at one place may be put before what follows from there. -/
theorem follows_append {r : Region} {ts k : List Task} (hts : ∀ x ∈ ts, x.after r = some r)
    (hk : follows r k = true) : follows r (ts ++ k) = true := by
  induction ts with
  | nil => exact hk
  | cons x ts ih =>
    exact follows_cons.mpr ⟨r, hts x List.mem_cons_self, ih fun y hy => hts y (List.mem_cons_of_mem x hy)⟩

/-- At these three places the registers of `SameEngine` are all that is said. -/
theorem Region.holds_of_sameEngine {r : Region} {s t : State} (hr : r = .free ∨ r = .running ∨ r = .stopped)
    (hsame : s.SameEngine t) (h : r.holds s) : r.holds t := by
  rcases hr with rfl | rfl | rfl
  · rwa [Region.holds, hsame.own, hsame.es, hsame.buf, hsame.tien]
  · rwa [Region.holds, hsame.own, hsame.es, hsame.tien, hsame.tctl, hsame.cmpc, hsame.cmpa, hsame.cmpb, hsame.cfg]
  · rwa [Region.holds, hsame.own, hsame.es, hsame.tien, hsame.cmpa, hsame.cmpb, hsame.cmpc, hsame.buf, hsame.cfg]

/-- Taking a statement off the continuation changes none of these registers. -/
theorem State.SameEngine.of_todo {s t : State} {k : List Task} (h : State.SameEngine { s with todo := k } t) :
    s.SameEngine t :=
  ⟨h.cfg, h.buf, h.es, h.own, h.snap, h.cnt, h.tctl, h.tien, h.tifr, h.cmpa, h.cmpb, h.cmpc, h.gie, h.inh⟩

/-- What a place says of the registers does not depend on the schedule. -/
theorem Region.holds_consume {r : Region} {s : State} (h : r.holds s) : r.holds s.consume := by
  cases r <;> exact h

theorem State.Inv.consume {s : State} (hinv : s.Inv) : s.consume.Inv := by
  obtain ⟨⟨r, hfollows, hholds⟩, hgie, hinh, hsnap, hfits⟩ := hinv
  exact .intro ⟨hfollows, Region.holds_consume hholds⟩ hgie hinh hsnap hfits

/-! ## The statements of MAIN at each place -/

/-- The places of a named operation (R152): outside a hardware-timed command; in the callback or the `POLL` of a running
frame; and the four operations of the controller that move MAIN on. -/
theorem after_op_cases {i : Instr} {r r' : Region} (h : (Task.op i).after r = some r') :
    (r = .free ∧ r' = .free ∧ writesEngine i = false) ∨
    (r = .running ∧ r' = .running ∧ writesEngine i = false) ∨
    (i = .acquire ∧ r = .acquiring ∧ r' = .acquired) ∨
    (i = .arm ∧ (r = .arming ∨ r = .stopped) ∧ r' = .running) ∨
    (i = .stop ∧ r = .running ∧ r' = .stopped) ∨
    (i = .release ∧ r = .stopped ∧ r' = .free) := by
  cases i with
  | tick => cases h
  | isrP => cases h
  | isrS => cases h
  | sym1 => cases h
  | sym0 => cases h
  | irqEntry => cases h
  | _ =>
    obtain ⟨hr, e⟩ := Option.ite_none_right_eq_some.mp h
    cases e
    simp [writesEngine, hr]

/-- Outside a hardware-timed command an operation lays out statements that may stand there. -/
theorem exec_follows_free {i : Instr} {s t : State} (hi : (Task.op i).after .free = some .free)
    (hk : follows .free s.todo = true) (h : exec i s = .next t) : follows .free t.todo = true := by
  cases i with
  | acquire => cases hi
  | arm => cases hi
  | poll => cases hi
  | stop => cases hi
  | release => cases hi
  | tick => cases hi
  | isrP => cases hi
  | isrS => cases hi
  | sym1 => cases hi
  | sym0 => cases hi
  | irqEntry => cases hi
  | transmit rid key useHw idle =>
    cases h
    rw [push_todo, List.cons_append, follows_cons]
    split <;> exact ⟨.free, rfl, hk⟩
  | dispatch =>
    by_cases hswitch : s.cur.kind = s.cfg.kindSwitch
    · cases (exec_dispatch_of_switch hswitch).symm.trans h; exact hk
    · by_cases hlegacy : s.cur.kind = s.cfg.kindSwitchLegacy
      · cases (exec_dispatch_of_switchLegacy hlegacy).symm.trans h; exact hk
      · cases (exec_dispatch_of_unknown hswitch hlegacy).symm.trans h; exact hk
  | bootReady => cases h; split <;> exact hk
  | xportService =>
    cases h
    refine follows_append (fun x hx => ?_) hk
    obtain ⟨a, -, rfl⟩ := List.mem_map.mp hx
    cases a <;> rfl
  | _ => cases h; exact hk

/-- In a running frame the callback and `POLL` lay out statements that may stand there. -/
theorem exec_follows_running {i : Instr} {s t : State} (hi : (Task.op i).after .running = some .running)
    (hk : follows .running s.todo = true) (h : exec i s = .next t) : follows .running t.todo = true := by
  cases i with
  | poll idle =>
    cases h
    split
    · exact hk
    · cases idle <;> exact hk
  | xportService =>
    cases h
    refine follows_append (fun x hx => ?_) hk
    obtain ⟨a, -, rfl⟩ := List.mem_map.mp hx
    cases a <;> rfl
  | qWrite q r => cases h; exact hk
  | qRead q => cases h; exact hk
  | _ => cases hi

/-- An operation of MAIN keeps the invariant: it lays out its statements, or is one of the controller's four. -/
theorem exec_inv {i : Instr} {s t : State} {k : List Task} (hinv : s.Inv) (htodo : s.todo = .op i :: k)
    (h : exec i { s with todo := k } = .next t) : t.Inv := by
  have hinv' := hinv
  obtain ⟨⟨r, hfollows, hholds⟩, hgie, hinh, hsnap, hcnt, hcmpa, hcmpb, hcmpc, hsnaps⟩ := hinv'
  rw [htodo, follows_cons] at hfollows
  obtain ⟨r', hafter, hk⟩ := hfollows
  rcases after_op_cases hafter with ⟨rfl, rfl, hi⟩ | ⟨rfl, rfl, hi⟩ | ⟨rfl, rfl, rfl⟩ | ⟨rfl, hr, rfl⟩ |
    ⟨rfl, rfl, rfl⟩ | ⟨rfl, rfl, rfl⟩
  · have hsame := (exec_sameEngine hi h).of_todo
    exact hinv.of_sameEngine hsame
      ⟨exec_follows_free hafter hk h, Region.holds_of_sameEngine (.inl rfl) hsame hholds⟩
  · have hsame := (exec_sameEngine hi h).of_todo
    exact hinv.of_sameEngine hsame
      ⟨exec_follows_running hafter hk h, Region.holds_of_sameEngine (.inr (.inl rfl)) hsame hholds⟩
  · cases (exec_acquire _).symm.trans h
    obtain ⟨-, hes, hbuf, hoff, hph⟩ := hholds
    exact .intro (r := .acquired) ⟨hk, rfl, hes, hbuf, hoff, hph, rfl⟩ hgie hinh (fun _ => hoff)
      ⟨hcnt, hcmpa, hcmpb, hcmpc, hcmpa, hcmpb, hcmpc⟩
  · cases h
    have hown : s.own = true := by
      rcases hr with rfl | rfl
      · exact hholds.1
      · exact hholds.1
    exact .intro (r := .running) ⟨hk, hown, rfl, rfl, rfl, rfl, .inl rfl, .inl rfl⟩ hgie hinh hsnap
      ⟨Nat.two_pow_pos _, tStart_lt s.cfg, inert_lt s.cfg, inert_lt s.cfg, hsnaps⟩
  · cases (exec_stop _).symm.trans h
    obtain ⟨hown, -⟩ := hholds
    exact .intro (r := .stopped) ⟨hk, hown, rfl, rfl, rfl, rfl, rfl, rfl⟩ hgie hinh hsnap
      ⟨hcnt, inert_lt s.cfg, inert_lt s.cfg, inert_lt s.cfg, hsnaps⟩
  · cases (exec_release _).symm.trans h
    exact .intro (r := .stopped) ⟨hk, hholds⟩ hgie hinh hsnap ⟨hcnt, hcmpa, hcmpb, hcmpc, hsnaps⟩

/-- The statements of a legacy frame stand outside a hardware-timed command. -/
theorem after_legacyFrameTasks (c : Config) (rid : RemoteId) (key : Byte) :
    ∀ x ∈ legacyFrameTasks c rid key, x.after .free = some .free := by
  have hbit : ∀ (b : Bool), ∀ x ∈ legacyBitTasks c b, x.after .free = some .free := by
    intro b x hx
    cases b <;> simp [legacyBitTasks] at hx <;> rcases hx with rfl | rfl | rfl | rfl <;> rfl
  intro x hx
  simp only [legacyFrameTasks, List.mem_append, List.mem_cons, List.mem_flatMap, List.not_mem_nil, or_false] at hx
  rcases hx with ((rfl | rfl) | ⟨b, -, hx⟩) | rfl
  · rfl
  · rfl
  · exact hbit b x hx
  · rfl

/-- Outside a hardware-timed command a primitive statement lays out statements that may stand there. -/
theorem primStep_follows_free {p : Prim} {s : State} (hp : (Task.prim p).after .free = some .free)
    (hk : follows .free s.todo = true) : follows .free (primStep p s).todo = true := by
  cases p with
  | hwLoop => cases hp
  | releaseRegs => cases hp
  | legacyLoop rid key =>
    rw [primStep, legacyLoopStep]
    split
    · rw [push_todo, List.append_assoc]
      exact follows_append (after_legacyFrameTasks s.cfg rid key) hk
    · exact hk
  | fetch =>
    rw [primStep, fetchStep]
    split <;> exact hk
  | _ => exact hk

/-- The loop of frames lays out one more frame, whose `ARM` may follow the entry or a `STOP`, or the release. -/
theorem hwLoopStep_at {s : State} {r : Region} (hr : r = .entering ∨ r = .stopped) (idle : Bool)
    (hholds : r.holds s) (hk : follows .free s.todo = true) : (hwLoopStep idle s).At r := by
  rw [hwLoopStep]
  rcases hr with rfl | rfl
  · obtain ⟨-, -, -, -, -, hrep, -⟩ := id hholds
    have hlt : s.rep.toNat < s.cfg.nRepeat := by
      rw [hrep]
      exact s.cfg.nRepeat_pos
    rw [if_pos hlt]
    exact ⟨hk, hholds⟩
  · split <;> exact ⟨hk, hholds⟩

/-- The places of a primitive statement (R152): outside a hardware-timed command; the phases and `REP` of a command, of
which three move MAIN on; and the loop's test. -/
theorem after_prim_cases {p : Prim} {r r' : Region} (hp : p ≠ .releaseRegs)
    (h : (Task.prim p).after r = some r') :
    (r = .free ∧ r' = .free) ∨
    (p = .phase .acq ∧ r = .free ∧ r' = .acquiring) ∨
    (p = .repZero ∧ r = .acquired ∧ r' = .entering) ∨
    (p = .phase .arm ∧ r = .entering ∧ r' = .arming) ∨
    (((∃ q, p = .phase q) ∨ p = .repInc) ∧ r = r' ∧ (r = .running ∨ r = .stopped)) ∨
    (∃ idle, p = .hwLoop idle ∧ (r = .entering ∨ r = .stopped) ∧ r' = .free) := by
  cases p with
  | releaseRegs => exact absurd rfl hp
  | phase q =>
    simp only [Task.after] at h
    split at h <;> cases h <;> simp
  | repZero =>
    simp only [Task.after] at h
    split at h <;> cases h <;> simp
  | repInc =>
    obtain ⟨hr, e⟩ := Option.ite_none_right_eq_some.mp h
    cases e
    rcases hr with rfl | rfl <;> simp
  | hwLoop idle =>
    obtain ⟨hr, e⟩ := Option.ite_none_right_eq_some.mp h
    cases e
    exact .inr (.inr (.inr (.inr (.inr ⟨idle, rfl, hr, rfl⟩))))
  | _ =>
    obtain ⟨hr, e⟩ := Option.ite_none_right_eq_some.mp h
    cases e
    exact .inl ⟨hr, rfl⟩

/-- A primitive statement of MAIN keeps the invariant. -/
theorem primStep_inv {p : Prim} {s : State} {k : List Task} (hinv : s.Inv) (htodo : s.todo = .prim p :: k) :
    (primStep p { s with todo := k }).Inv := by
  have hinv' := hinv
  obtain ⟨⟨r, hfollows, hholds⟩, hgie, hinh, hsnap, hcnt, hcmpa, hcmpb, hcmpc, hsnaps⟩ := hinv'
  rw [htodo, follows_cons] at hfollows
  obtain ⟨r', hafter, hk⟩ := hfollows
  by_cases hp : p = .releaseRegs
  · subst hp
    obtain ⟨rfl, e⟩ := Option.ite_none_right_eq_some.mp hafter
    cases e
    obtain ⟨hown, -, -, -, -, -, hbuf⟩ := hholds
    rw [primStep_releaseRegs]
    exact .intro (r := .free) ⟨hk, rfl, rfl, hbuf, hsnap hown⟩ hgie hinh (fun h => by cases h)
      ⟨hcnt, hsnaps.1, hsnaps.2.1, hsnaps.2.2, hsnaps⟩
  · have hsame := (primStep_sameEngine hp { s with todo := k }).of_todo
    suffices hplace : ∃ q : Region, (primStep p { s with todo := k }).At q by
      obtain ⟨q, hat⟩ := hplace
      exact hinv.of_sameEngine hsame hat
    rcases after_prim_cases hp hafter with ⟨rfl, rfl⟩ | ⟨rfl, rfl, rfl⟩ | ⟨rfl, rfl, rfl⟩ | ⟨rfl, rfl, rfl⟩ |
      ⟨hq, rfl, hr⟩ | ⟨idle, rfl, hr, rfl⟩
    · exact ⟨.free, primStep_follows_free hafter hk, Region.holds_of_sameEngine (.inl rfl) hsame hholds⟩
    · obtain ⟨hown, hes, hbuf, hoff⟩ := hholds
      exact ⟨.acquiring, hk, hown, hes, hbuf, hoff, rfl⟩
    · obtain ⟨hown, hes, hbuf, hoff, hph, hregs⟩ := hholds
      exact ⟨.entering, hk, hown, hes, hbuf, hoff, hph, rfl, hregs⟩
    · obtain ⟨hown, hes, hbuf, hoff, -, -, hregs⟩ := hholds
      exact ⟨.arming, hk, hown, hes, hbuf, hoff, rfl, hregs⟩
    · refine ⟨r, ?_, Region.holds_of_sameEngine (.inr hr) hsame hholds⟩
      rcases hq with ⟨q, rfl⟩ | rfl <;> exact hk
    · exact ⟨r, hwLoopStep_at (s := { s with todo := k }) hr idle (by rcases hr with rfl | rfl <;> exact hholds) hk⟩

/-- A step of MAIN keeps the invariant. -/
theorem runTask_inv {x : Task} {s t : State} {k : List Task} (hinv : s.Inv) (htodo : s.todo = x :: k)
    (h : runTask x { s with todo := k } = .next t) : t.Inv := by
  cases x with
  | op i => exact exec_inv hinv htodo h
  | prim p => cases h; exact primStep_inv hinv htodo

/-! ## Ticks, interrupts and the timer's other owner -/

/-- An interrupt is enabled only in a running frame: everywhere else no engine interrupt is (R130, R248). -/
theorem State.Inv.running_of_irqEnabled {s : State} (hinv : s.Inv) (h : s.irqEnabled = true) : s.At .running := by
  obtain ⟨⟨r, hfollows, hholds⟩, -⟩ := hinv
  have hoff : enginesOff s.tien = false := by
    cases hoff : enginesOff s.tien
    · rfl
    · obtain ⟨hiea, hieb⟩ := (enginesOff_tien_iff s).mp hoff
      simp [State.irqEnabled, State.primaryReady, State.secondaryReady, hiea, hieb] at h
  cases r with
  | running => exact ⟨hfollows, hholds⟩
  | free => obtain ⟨-, -, -, h'⟩ := hholds; simp [hoff] at h'
  | acquiring => obtain ⟨-, -, -, h', -⟩ := hholds; simp [hoff] at h'
  | acquired => obtain ⟨-, -, -, h', -⟩ := hholds; simp [hoff] at h'
  | entering => obtain ⟨-, -, -, h', -⟩ := hholds; simp [hoff] at h'
  | arming => obtain ⟨-, -, -, h', -⟩ := hholds; simp [hoff] at h'
  | stopped =>
    obtain ⟨-, -, h', -⟩ := hholds
    rw [h'] at hoff
    cases hoff

/-- An interrupt keeps the invariant: the compare values it programs are those of a symbol (R124). -/
theorem serveIrq_inv {s : State} (hinv : s.Inv) (h : s.irqEnabled = true) : (serveIrq s).Inv := by
  obtain ⟨hfollows, hown, hes, htien, htctl, hcmpc, hcmpa, hcmpb⟩ := hinv.running_of_irqEnabled h
  obtain ⟨-, hgie, hinh, hsnap, hfcnt, hfcmpa, hfcmpb, hfits⟩ := hinv
  rcases serveIrq_cases s with ⟨-, e⟩ | ⟨-, e⟩ <;> rw [e]
  · obtain ⟨ha, hb⟩ := symbol_compare_lt s.cfg (s.buf.getLsbD 0)
    refine .intro (r := .running) ⟨hfollows, hown, hes, htien, htctl, hcmpc, ?_, ?_⟩ rfl rfl hsnap
      ⟨hfcnt, ha, hb, hfits⟩
    · dsimp only
      split
      · exact .inr (.inl rfl)
      · exact .inr (.inr rfl)
    · dsimp only
      split
      · exact .inl rfl
      · exact .inr rfl
  · exact .intro (r := .running) ⟨hfollows, hown, hes, htien, htctl, hcmpc, hcmpa, hcmpb⟩ rfl rfl hsnap
      ⟨hfcnt, hfcmpa, hfcmpb, hfits⟩

/-- A tick keeps the invariant: the counter stays in range (R120). -/
theorem countTick_inv {s : State} (hinv : s.Inv) : (countTick s).Inv := by
  obtain ⟨⟨r, hfollows, hholds⟩, hgie, hinh, hsnap, -, hfits⟩ := hinv
  have hcnt : (countTick s).cnt < 2 ^ s.cfg.w := by
    have hpos := Nat.two_pow_pos s.cfg.w
    rw [countTick]
    dsimp only
    split
    · exact hpos
    · exact Nat.mod_lt _ hpos
  exact .intro (r := r) ⟨hfollows, by cases r <;> exact hholds⟩ hgie hinh hsnap ⟨hcnt, hfits⟩

/-- The other owner's move keeps the invariant: the timer is not borrowed, and no engine interrupt is enabled (R248). -/
theorem ownerWrites_inv {s : State} {w : OwnerWrite} (hinv : s.Inv) (hown : s.own = false)
    (hoff : enginesOff w.tien = true) : (s.ownerWrites w).Inv := by
  obtain ⟨⟨r, hfollows, hholds⟩, hgie, hinh, -, -, -, -, -, hsnaps⟩ := hinv
  have hlt (v : Nat) : s.truncW v < 2 ^ s.cfg.w := Nat.mod_lt v (Nat.two_pow_pos s.cfg.w)
  refine .intro (r := r) ⟨hfollows, ?_⟩ hgie hinh (fun h => by cases hown.symm.trans h)
    ⟨hlt _, hlt _, hlt _, hlt _, hsnaps⟩
  cases r with
  | free => obtain ⟨-, hes, hbuf, -⟩ := hholds; exact ⟨hown, hes, hbuf, hoff⟩
  | acquiring => obtain ⟨-, hes, hbuf, -, hph⟩ := hholds; exact ⟨hown, hes, hbuf, hoff, hph⟩
  | _ => cases hown.symm.trans hholds.1

/-! ## The statements -/

/-- Every move keeps the invariant. -/
theorem Moved.inv {m : Move} {s t : State} (hinv : s.Inv) (h : Moved s m t) : t.Inv := by
  cases h with
  | rest => exact hinv
  | statement htodo hx => exact runTask_inv hinv htodo hx
  | interrupt henabled => exact serveIrq_inv hinv henabled
  | noInterrupt => exact hinv
  | tick => exact countTick_inv hinv
  | noTick => exact hinv
  | owner hown hoff => exact ownerWrites_inv hinv hown hoff

/-- Settles O56: taking the choice writes the schedule only, and every move keeps the invariant. -/
theorem stepKeepsInvariant : Obligations.StepKeepsInvariant := fun _ _ hinv h =>
  Moved.inv hinv.consume (moved_of_step h)

/-- Settles O2: `MAIN_LOOP` stands outside a hardware-timed command, and every register is 0. -/
theorem resetMeetsInvariant : Obligations.ResetMeetsInvariant :=
  ⟨.intro (r := .free) ⟨rfl, rfl, rfl, rfl, enginesOff_reset_tien⟩ rfl rfl (fun h => by cases h) (by decide),
    reset_mem_wf⟩

/-- Settles O57: what R42 says of a state is said of the place MAIN is at. -/
theorem invariantGivesR42 : Obligations.InvariantGivesR42 := by
  intro s hinv
  obtain ⟨⟨r, -, hholds⟩, -⟩ := hinv
  have hcounts : s.iq.count ≤ 15 ∧ s.oq.count ≤ 15 :=
    ⟨Nat.le_of_lt_succ s.iq.count_lt, Nat.le_of_lt_succ s.oq.count_lt⟩
  rw [State.R42]
  cases r with
  | free => obtain ⟨hown, hes, hbuf, -⟩ := hholds; simp [hown, hes, hbuf, hcounts]
  | acquiring => obtain ⟨hown, hes, hbuf, -⟩ := hholds; simp [hown, hes, hbuf, hcounts]
  | acquired => obtain ⟨hown, hes, hbuf, -, hph, -⟩ := hholds; simp [hown, hes, hbuf, hph, hcounts]
  | entering => obtain ⟨hown, hes, hbuf, -, hph, -⟩ := hholds; simp [hown, hes, hbuf, hph, hcounts]
  | arming => obtain ⟨hown, hes, hbuf, -, hph, -⟩ := hholds; simp [hown, hes, hbuf, hph, hcounts]
  | running =>
    obtain ⟨hown, hes, htien, htctl, hcmpc, hcmpa, hcmpb⟩ := hholds
    have hiea : s.iea = true := by rw [State.iea, htien]; rfl
    have hieb : s.ieb = true := by rw [State.ieb, htien]; rfl
    simp [hown, hes, hiea, hieb, htctl, hcmpc, hcmpa, hcmpb, hcounts]
  | stopped =>
    obtain ⟨hown, hes, htien, hcmpa, hcmpb, hcmpc, hbuf⟩ := hholds
    simp [hown, hes, htien, hcmpa, hcmpb, hcmpc, hbuf, hcounts]

/-- Settles O30: an enabled interrupt means a running frame, which holds the timer. -/
theorem noInterruptWhileTimerNotHeld : Obligations.NoInterruptWhileTimerNotHeld := by
  intro s hinv hown hchoice
  rw [step_eq, hchoice]
  refine exec_irqEntry_of_not_enabled ?_
  cases henabled : s.consume.irqEnabled
  · rfl
  · obtain ⟨-, hheld, -⟩ := hinv.consume.running_of_irqEnabled henabled
    cases hown.symm.trans hheld

end Sys2Proof.Machine
end

section
/-! SUPPORT. The buffer (spec/10_state.md R20): who writes it under the invariant, what a running frame's statements leave
as it is, and that under weak fairness every running frame empties it (R224, R131). -/

namespace Sys2Proof.Machine

open Sys2Proof

/-! ## The writers of `BUF` -/

/-- A statement of MAIN writes `BUF` only as `ARM` or as `STOP`: the symbols stand nowhere in MAIN's continuation. -/
theorem State.Inv.statement_buf {x : Task} {s t : State} {k : List Task} (hinv : s.Inv) (htodo : s.todo = x :: k)
    (h : runTask x { s with todo := k } = .next t) :
    t.buf = s.buf ∨ (x = .op .arm ∧ t.buf = s.encw) ∨ (x = .op .stop ∧ t.buf = 0#24) := by
  obtain ⟨⟨r, hfollows, -⟩, -⟩ := hinv
  rw [htodo, follows_cons] at hfollows
  obtain ⟨r', hafter, -⟩ := hfollows
  cases x with
  | prim p =>
    cases h
    by_cases hp : p = .releaseRegs
    · subst hp; exact .inl rfl
    · exact .inl (primStep_sameEngine hp _).buf
  | op i =>
    rcases after_op_cases hafter with ⟨-, -, hi⟩ | ⟨-, -, hi⟩ | ⟨rfl, -⟩ | ⟨rfl, -⟩ | ⟨rfl, -⟩ | ⟨rfl, -⟩
    · exact .inl (exec_sameEngine hi h).buf
    · exact .inl (exec_sameEngine hi h).buf
    · cases h; exact .inl rfl
    · cases h; exact .inr (.inl ⟨rfl, rfl⟩)
    · cases h; exact .inr (.inr ⟨rfl, rfl⟩)
    · cases h; exact .inl rfl

/-- Settles O21: MAIN's two writers, and the primary handler. -/
theorem bufferHasThreeWriters : Obligations.BufferHasThreeWriters := by
  intro s t hinv h hbuf
  have hmoved := moved_of_step h
  generalize s.choice = m at hmoved ⊢
  cases hmoved with
  | rest => exact absurd (consume_buf s) hbuf
  | statement htodo hx =>
    rw [show s.todo = _ from htodo]
    rcases hinv.consume.statement_buf htodo hx with hsame | ⟨rfl, hnew⟩ | ⟨rfl, hnew⟩
    · exact absurd hsame hbuf
    · exact .inl ⟨rfl, rfl, hnew⟩
    · exact .inr (.inl ⟨rfl, rfl, hnew⟩)
  | interrupt henabled =>
    rcases serveIrq_cases s.consume with ⟨hprimary, e⟩ | ⟨-, e⟩
    · exact .inr (.inr ⟨rfl, henabled, hprimary, by rw [e]; rfl⟩)
    · exact absurd (by rw [e]; rfl) hbuf
  | noInterrupt => exact absurd (consume_buf s) hbuf
  | tick => exact absurd (consume_buf s) hbuf
  | noTick => exact absurd (consume_buf s) hbuf
  | owner => exact absurd (consume_buf s) hbuf

/-! ## A running frame -/

/-- Under the invariant `ES = Running` says where MAIN is (R42 (a)). -/
theorem State.Inv.running_of_es {s : State} (hinv : s.Inv) (hes : s.es = .running) : s.At .running := by
  obtain ⟨⟨r, hfollows, hholds⟩, -⟩ := hinv
  cases r with
  | running => exact ⟨hfollows, hholds⟩
  | free => obtain ⟨-, h, -⟩ := hholds; cases hes.symm.trans h
  | acquiring => obtain ⟨-, h, -⟩ := hholds; cases hes.symm.trans h
  | acquired => obtain ⟨-, h, -⟩ := hholds; cases hes.symm.trans h
  | entering => obtain ⟨-, h, -⟩ := hholds; cases hes.symm.trans h
  | arming => obtain ⟨-, h, -⟩ := hholds; cases hes.symm.trans h
  | stopped => obtain ⟨-, h, -⟩ := hholds; cases hes.symm.trans h

/-- In a running frame a statement of MAIN is `STOP`, or writes no register of the engine, nor the encoded word. -/
theorem State.At.running_statement {x : Task} {s t : State} {k : List Task} (hat : s.At .running)
    (htodo : s.todo = x :: k) (h : runTask x { s with todo := k } = .next t) :
    (x = .op .stop ∧ t = stopBody { s with todo := k }) ∨ (s.SameEngine t ∧ t.encw = s.encw) := by
  obtain ⟨hfollows, -⟩ := hat
  rw [htodo, follows_cons] at hfollows
  obtain ⟨r', hafter, -⟩ := hfollows
  cases x with
  | prim p =>
    cases h
    cases p with
    | phase q => exact .inr ⟨by constructor <;> rfl, rfl⟩
    | repInc => exact .inr ⟨by constructor <;> rfl, rfl⟩
    | _ => cases hafter
  | op i =>
    cases i with
    | stop => exact .inl ⟨rfl, by cases (exec_stop _).symm.trans h; rfl⟩
    | poll idle =>
      refine .inr ⟨(exec_sameEngine (i := .poll idle) rfl h).of_todo, ?_⟩
      cases h
      split <;> rfl
    | xportService => exact .inr ⟨(exec_sameEngine (i := .xportService) rfl h).of_todo, by cases h; rfl⟩
    | qWrite q r => exact .inr ⟨(exec_sameEngine (i := .qWrite q r) rfl h).of_todo, by cases h; rfl⟩
    | qRead q => exact .inr ⟨(exec_sameEngine (i := .qRead q) rfl h).of_todo, by cases h; rfl⟩
    | _ => cases hafter

/-- Settles O22: `ARM` starts with the word unshifted; in a running frame only the primary handler writes the buffer, by one
more shift, which past 24 leaves it empty. -/
theorem runningBufferIsShiftedWord : Obligations.RunningBufferIsShiftedWord := by
  intro s t hinv hword h hes
  have hinv' := hinv.consume
  have hmoved := moved_of_step h
  generalize s.choice = m at hmoved
  cases hmoved with
  | rest => exact hword hes
  | statement htodo hx =>
    rcases runTask_es_cases hx with hsame | ⟨rfl, -⟩ | ⟨-, hnew⟩ | ⟨-, hnew⟩
    · rcases (hinv'.running_of_es (hsame.symm.trans hes)).running_statement htodo hx with ⟨-, rfl⟩ | ⟨hengine, hencw⟩
      · cases hes
      · rw [hengine.buf, hencw]
        exact hword (hsame.symm.trans hes)
    · cases hx
      exact ⟨0, Nat.zero_le 24, rfl⟩
    · cases hes.symm.trans hnew
    · cases hes.symm.trans hnew
  | interrupt =>
    obtain ⟨n, hn, hbuf⟩ := hword (((serveIrq_sameController s.consume).es.symm).trans hes)
    rw [(serveIrq_sameController s.consume).encw, consume_encw]
    rcases serveIrq_cases s.consume with ⟨-, e⟩ | ⟨-, e⟩ <;> rw [e]
    · show ∃ n ≤ 24, s.buf >>> 1 = s.encw >>> n
      rw [hbuf, ← BitVec.shiftRight_add]
      rcases Nat.lt_or_eq_of_le hn with hlt | rfl
      · exact ⟨n + 1, hlt, rfl⟩
      · refine ⟨24, Nat.le_refl 24, ?_⟩
        rw [BitVec.ushiftRight_eq_zero (Nat.le_add_right 24 1), BitVec.ushiftRight_eq_zero (Nat.le_refl 24)]
    · exact ⟨n, hn, hbuf⟩
  | noInterrupt => exact hword hes
  | tick => exact hword hes
  | noTick => exact hword hes
  | owner => exact hword hes

/-! ## The flags -/

/-- `TIFR.IFA` after a tick: set on the match, never cleared (R120). -/
@[simp] theorem countTick_ifa (s : State) : (countTick s).ifa = (s.ifa || (s.nextCount == s.cmpa)) := by
  simp only [State.ifa, countTick_tifr, setFlags]
  cases s.nextCount == s.cmpa <;> cases s.nextCount == s.cmpb <;> simp

/-- The same for `TIFR.IFB`. -/
@[simp] theorem countTick_ifb (s : State) : (countTick s).ifb = (s.ifb || (s.nextCount == s.cmpb)) := by
  simp only [State.ifb, countTick_tifr, setFlags]
  cases s.nextCount == s.cmpa <;> cases s.nextCount == s.cmpb <;> simp

theorem clearIfa_bits (tifr : Byte) : (clearIfa tifr).getLsbD 0 = false ∧ (clearIfa tifr).getLsbD 1 = tifr.getLsbD 1 := by
  simp [clearIfa]

theorem clearIfb_bits (tifr : Byte) : (clearIfb tifr).getLsbD 0 = tifr.getLsbD 0 ∧ (clearIfb tifr).getLsbD 1 = false := by
  simp [clearIfb]

theorem clearFlags_bits (tifr : Byte) : (clearFlags tifr).getLsbD 0 = false ∧ (clearFlags tifr).getLsbD 1 = false := by
  rw [clearFlags, (clearIfb_bits _).1, (clearIfa_bits _).1]
  exact ⟨rfl, (clearIfb_bits _).2⟩

/-! ## Progress of a running frame -/

/-- The ticks to the next match with `CMPA` (R120); none where the primary flag already is set. -/
def ticksLeft (s : State) : Nat :=
  if s.ifa then 0 else if s.cnt < s.cmpa then s.cmpa - s.cnt else s.cmpa + 2 ^ s.cfg.w - s.cnt

theorem ticksLeft_eq_zero_iff {s : State} (hcnt : s.cnt < 2 ^ s.cfg.w) : ticksLeft s = 0 ↔ s.ifa = true := by
  rw [ticksLeft]
  generalize 2 ^ s.cfg.w = M at hcnt
  cases s.ifa
  · simp only [Bool.false_eq_true, if_false, iff_false]
    split <;> omega
  · simp

theorem ticksLeft_of_sameEngine {s t : State} (h : s.SameEngine t) : ticksLeft t = ticksLeft s := by
  rw [ticksLeft, ticksLeft, State.ifa, State.ifa, h.tifr, h.cnt, h.cmpa, h.cfg]

/-- A tick comes one nearer to the match, through the wrap of the counter where it is past `CMPA`. -/
theorem ticksLeft_countTick {s : State} (hcnt : s.cnt < 2 ^ s.cfg.w) (hcmpa : s.cmpa < 2 ^ s.cfg.w)
    (hleft : ticksLeft s ≠ 0) : ticksLeft (countTick s) < ticksLeft s := by
  have hifa : s.ifa = false := by simpa [ticksLeft_eq_zero_iff hcnt] using hleft
  have hnext : s.nextCount = if s.cnt + 1 = 2 ^ s.cfg.w then 0 else s.cnt + 1 := by
    rw [State.nextCount]
    split
    case isTrue hwrap => rw [hwrap, Nat.mod_self]
    case isFalse hwrap => exact Nat.mod_eq_of_lt (by omega)
  by_cases hmatch : s.nextCount = s.cmpa
  · have hset : (countTick s).ifa = true := by simp [hmatch]
    rw [ticksLeft, hset, if_pos rfl]
    exact Nat.pos_of_ne_zero hleft
  · have hclear : (countTick s).ifa = false := by simp [hifa, hmatch]
    simp only [ticksLeft, hclear, hifa, countTick_cnt, countTick_cmpa, countTick_cfg, hmatch, false_and, if_false,
      Bool.false_eq_true]
    rw [hnext] at hmatch ⊢
    generalize 2 ^ s.cfg.w = M at *
    split_ifs at hmatch ⊢ <;> omega

/-- A running frame's clock runs (R7, R42 (a)). -/
theorem clocked_of_cfgTctl {s : State} (h : s.tctl = s.cfg.cfgTctl) : s.clocked = true := by
  rw [State.clocked, h, bne_iff_ne]
  exact s.cfg.cfgTctl_cs

/-- The move is the interrupt, and it serves the primary source. -/
def servesPrimary (m : Move) (s : State) : Prop := m = .agent .irq ∧ s.primaryReady = true

/-- A move of a running frame that does not empty the buffer keeps the frame running; it serves the primary source, or keeps
the buffer and comes no farther from the match, a tick nearer. -/
theorem Moved.running {m : Move} {s t : State} (hinv : s.Inv) (hes : s.es = .running) (h : Moved s m t)
    (hbuf : t.buf ≠ 0#24) :
    t.es = .running ∧
      ((servesPrimary m s ∧ t.buf = s.buf >>> 1) ∨
        (¬ servesPrimary m s ∧ t.buf = s.buf ∧ ticksLeft t ≤ ticksLeft s ∧
          (m = .agent .tmr → ticksLeft s ≠ 0 → ticksLeft t < ticksLeft s))) := by
  have hat := hinv.running_of_es hes
  obtain ⟨-, hgie, hinh, -, hcnt, hcmpa, -⟩ := hinv
  obtain ⟨-, hown, -, -, htctl, -⟩ := id hat
  have hother {a : Agent} (ha : a ≠ .irq) : ¬ servesPrimary (.agent a) s := fun ⟨hm, _⟩ => ha (Move.agent.inj hm)
  cases h with
  | rest => exact ⟨hes, .inr ⟨hother (by decide), rfl, Nat.le_refl _, fun h => by cases h⟩⟩
  | statement htodo hx =>
    rcases hat.running_statement htodo hx with ⟨-, rfl⟩ | ⟨hsame, -⟩
    · exact absurd rfl hbuf
    · exact ⟨hsame.es.trans hes, .inr ⟨hother (by decide), hsame.buf, (ticksLeft_of_sameEngine hsame).le,
        fun h => by cases h⟩⟩
  | interrupt =>
    refine ⟨(serveIrq_sameController s).es.trans hes, ?_⟩
    rcases serveIrq_cases s with ⟨hprimary, e⟩ | ⟨hsecondary, e⟩
    · exact .inl ⟨⟨rfl, hprimary⟩, by rw [e]⟩
    · refine .inr ⟨fun ⟨_, h⟩ => Bool.noConfusion (hsecondary.symm.trans h), by rw [e], ?_, fun h => by cases h⟩
      rw [e, ticksLeft, ticksLeft, State.ifa, (clearIfb_bits s.tifr).1, State.ifa]
  | noInterrupt hdisabled =>
    refine ⟨hes, .inr ⟨fun ⟨_, hready⟩ => ?_, rfl, Nat.le_refl _, fun h => by cases h⟩⟩
    simp [State.irqEnabled, hgie, hinh, hready] at hdisabled
  | tick =>
    refine ⟨hes, .inr ⟨hother (by decide), rfl, ?_, fun _ hleft => ticksLeft_countTick hcnt hcmpa hleft⟩⟩
    by_cases hleft : ticksLeft s = 0
    · have hset : s.ifa = true := (ticksLeft_eq_zero_iff hcnt).mp hleft
      rw [ticksLeft, countTick_ifa, hset, Bool.true_or, if_pos rfl]
      exact Nat.zero_le _
    · exact (ticksLeft_countTick hcnt hcmpa hleft).le
  | noTick hstopped => cases hstopped.symm.trans (clocked_of_cfgTctl htctl)
  | owner hfree => cases hfree.symm.trans hown

/-! ## Fair executions -/

section

variable {m : Nat → Move} {e : Nat → State}

theorem moved_of_execution (hexec : Execution m e) (n : Nat) : Moved (e n) (m n) (e (n + 1)) :=
  moved_of_moveStep (hexec (n + 1) n n.lt_succ_self)

/-- While the buffer is not empty the frame runs. -/
theorem running_of_execution (hexec : Execution m e) (hinv : (e 0).Inv) (hes : (e 0).es = .running)
    (hbuf : ∀ n, (e n).buf ≠ 0#24) (n : Nat) : (e n).Inv ∧ (e n).es = .running := by
  induction n with
  | zero => exact ⟨hinv, hes⟩
  | succ n ih =>
    have hmoved := moved_of_execution hexec n
    exact ⟨hmoved.inv ih.1, (hmoved.running ih.1 ih.2 (hbuf (n + 1))).1⟩

/-- In a fair execution that stays running the primary source is served again and again: the ticks come to the match, the
flag then stays set, and its interrupt is enabled until it is taken. -/
theorem primary_served_of_fair (hexec : Execution m e) (hfair : Fair m e) (hbuf : ∀ n, (e n).buf ≠ 0#24)
    (hrun : ∀ n, (e n).Inv ∧ (e n).es = .running) (n : Nat) : ∃ i ≥ n, servesPrimary (m i) (e i) := by
  by_contra hnever
  push Not at hnever
  have hkept (i : Nat) (hi : n ≤ i) : ticksLeft (e (i + 1)) ≤ ticksLeft (e i) ∧
      (m i = .agent .tmr → ticksLeft (e i) ≠ 0 → ticksLeft (e (i + 1)) < ticksLeft (e i)) := by
    obtain ⟨-, ⟨hserved, -⟩ | ⟨-, -, h⟩⟩ := (moved_of_execution hexec i).running (hrun i).1 (hrun i).2 (hbuf (i + 1))
    · exact absurd hserved (hnever i hi)
    · exact h
  have hmono (i : Nat) (hi : n ≤ i) (j : Nat) (hj : i ≤ j) : ticksLeft (e j) ≤ ticksLeft (e i) := by
    induction j, hj using Nat.le_induction with
    | base => exact Nat.le_refl _
    | succ j hj ih => exact (hkept j (by omega)).1.trans ih
  have hclocked (i : Nat) : (e i).clocked = true := by
    obtain ⟨-, -, -, -, htctl, -⟩ := (hrun i).1.running_of_es (hrun i).2
    exact clocked_of_cfgTctl htctl
  have hmatch (L i : Nat) (hi : n ≤ i) (hL : ticksLeft (e i) ≤ L) : ∃ j ≥ n, ticksLeft (e j) = 0 := by
    induction L generalizing i with
    | zero => exact ⟨i, hi, Nat.le_zero.mp hL⟩
    | succ L ih =>
      obtain ⟨j, hj, htick⟩ := hfair.1 i fun k _ => hclocked k
      by_cases hzero : ticksLeft (e j) = 0
      · exact ⟨j, hi.trans hj, hzero⟩
      · have hle := hmono i hi j hj
        have hlt := (hkept j (hi.trans hj)).2 htick hzero
        exact ih (j + 1) (by omega) (by omega)
  obtain ⟨i, hi, hzero⟩ := hmatch _ n (Nat.le_refl n) (Nat.le_refl _)
  have hready (j : Nat) (hj : i ≤ j) : (e j).primaryReady = true := by
    obtain ⟨hinv, hes⟩ := hrun j
    obtain ⟨-, -, -, htien, -⟩ := hinv.running_of_es hes
    obtain ⟨-, -, -, -, hcnt, -⟩ := hinv
    have hifa : (e j).ifa = true :=
      (ticksLeft_eq_zero_iff hcnt).mp (Nat.le_zero.mp (hzero ▸ hmono i hi j hj))
    rw [State.primaryReady, hifa, State.iea, htien]
    rfl
  have henabled (j : Nat) (hj : j ≥ i) : (e j).enables .irq = true := by
    obtain ⟨-, hgie, hinh, -⟩ := (hrun j).1
    simp [State.enables, State.irqEnabled, hgie, hinh, hready j hj]
  obtain ⟨j, hj, hirq⟩ := hfair.2 i henabled
  exact hnever j (hi.trans hj) ⟨hirq, hready j hj⟩

end

theorem toNat_ushiftRight_one_lt {b : TxWord} (hb : b ≠ 0#24) : (b >>> 1).toNat < b.toNat := by
  have hpos : b.toNat ≠ 0 := fun h => hb (BitVec.eq_of_toNat_eq h)
  rw [BitVec.toNat_ushiftRight, Nat.shiftRight_eq_div_pow]
  omega

/-- Settles O23: a buffer that is never empty is halved again and again by the primary handler, and never grows. -/
theorem frameEndsUnderFairness : Obligations.FrameEndsUnderFairness := by
  intro m e hexec hfair hinv hes
  by_contra hbuf
  push Not at hbuf
  have hrun := running_of_execution hexec hinv hes hbuf
  have hstep (i : Nat) : (e (i + 1)).buf.toNat ≤ (e i).buf.toNat ∧
      (servesPrimary (m i) (e i) → (e (i + 1)).buf.toNat < (e i).buf.toNat) := by
    obtain ⟨-, ⟨-, hshift⟩ | ⟨hnot, hsame, -⟩⟩ :=
      (moved_of_execution hexec i).running (hrun i).1 (hrun i).2 (hbuf (i + 1))
    · rw [hshift]
      have hlt := toNat_ushiftRight_one_lt (hbuf i)
      exact ⟨hlt.le, fun _ => hlt⟩
    · exact ⟨by rw [hsame], fun h => absurd h hnot⟩
  have hmono (i j : Nat) (hj : i ≤ j) : (e j).buf.toNat ≤ (e i).buf.toNat := by
    induction j, hj using Nat.le_induction with
    | base => exact Nat.le_refl _
    | succ j _ ih => exact (hstep j).1.trans ih
  have hnone (B : Nat) : ∀ i, B ≤ (e i).buf.toNat := by
    induction B with
    | zero => exact fun i => Nat.zero_le _
    | succ B ih =>
      intro i
      obtain ⟨j, hj, hserved⟩ := primary_served_of_fair hexec hfair hbuf hrun i
      exact (Nat.succ_le_succ (ih (j + 1))).trans (((hstep j).2 hserved).trans_le (hmono i j hj))
  exact absurd (hnone ((e 0).buf.toNat + 1) 0) (by omega)

end Sys2Proof.Machine
end

section
/-! SUPPORT. The encodings (spec/30_encoding.md): each reading undoes the writing of its format, and each writing the reading;
and a step that reads an encoding runs the instruction it decodes to. -/

namespace Sys2Proof.Machine

open Sys2Proof

/-! ## Records -/

/-- A command reads back: an instruction of the command rows is the decoding of its record (R91). -/
theorem decodeCommand_switch (c : Config) (tag : Byte) (rid : RemoteId) (key : Byte) (pad : BitVec 24) :
    decodeCommand c ⟨tag, c.kindSwitch, rid, key, pad⟩ = .switch tag rid key pad := if_pos rfl

theorem decodeCommand_switchLegacy (c : Config) (tag : Byte) (rid : RemoteId) (key : Byte) (pad : BitVec 24) :
    decodeCommand c ⟨tag, c.kindSwitchLegacy, rid, key, pad⟩ = .switchLegacy tag rid key pad := by
  rw [decodeCommand, if_neg c.switch_ne_legacy.symm, if_pos rfl]

theorem isUnknownKind_iff (c : Config) (kind : Byte) :
    c.isUnknownKind kind = true ↔ kind ≠ c.kindSwitch ∧ kind ≠ c.kindSwitchLegacy := by
  rw [Config.isUnknownKind, Bool.and_eq_true, bne_iff_ne, bne_iff_ne]

theorem decodeCommand_unknown {c : Config} {kind : Byte} (h : c.isUnknownKind kind = true) (tag : Byte)
    (rid : RemoteId) (key : Byte) (pad : BitVec 24) :
    decodeCommand c ⟨tag, kind, rid, key, pad⟩ = .unknown tag kind rid key pad := by
  obtain ⟨hswitch, hlegacy⟩ := (isUnknownKind_iff c kind).mp h
  rw [decodeCommand, if_neg hswitch, if_neg hlegacy]

theorem decodeEmitted_ready (c : Config) : decodeEmitted c c.readyRecord = some .ready := if_pos rfl

/-- An error-marked reply is not the ready record: their kinds differ (R7). -/
theorem decodeEmitted_errUnknown (c : Config) (tag : Byte) (rid : RemoteId) (key : Byte) (pad : BitVec 24) :
    decodeEmitted c ⟨tag, c.kindErrUnknown, rid, key, pad⟩ = some (.errUnknown tag rid key pad) := by
  have hne : (⟨tag, c.kindErrUnknown, rid, key, pad⟩ : Record) ≠ c.readyRecord := fun h =>
    c.ready_ne_err (congrArg Record.kind h).symm
  rw [decodeEmitted, if_neg hne, if_pos rfl]

/-- The command decoder answers a well-formed instruction on every record (R91). -/
theorem wellFormed_decodeCommand (c : Config) (r : Record) : (decodeCommand c r).wellFormed c = true := by
  rw [decodeCommand]
  split
  · rfl
  case isFalse hswitch =>
    split
    · rfl
    case isFalse hlegacy => exact (isUnknownKind_iff c r.kind).mpr ⟨hswitch, hlegacy⟩

/-- The command decoder loses no bit of the record (R85, R91). -/
theorem encode_decodeCommand (c : Config) (r : Record) : encode c (decodeCommand c r) = some (.record r.toWord) := by
  obtain ⟨tag, kind, rid, key, pad⟩ := r
  rw [decodeCommand]
  split
  case isTrue hswitch => cases hswitch; rfl
  case isFalse =>
    split
    case isTrue hlegacy => cases hlegacy; rfl
    · rfl

/-- Settles O8: the record of a word is written back to the word. -/
theorem everyRecordWritesBack : Obligations.EveryRecordWritesBack := by
  intro c w
  refine ⟨wellFormed_decodeCommand c _, ?_⟩
  rw [encode_decodeCommand, Record.toWord_ofWord]

/-! ## Transmit words -/

theorem rev24_rev24 (v : TxWord) : rev24 (rev24 v) = v := BitVec.reverse_reverse_eq

/-- The word before reversal holds `rid` and the key where the reading of R93 takes them. -/
theorem preWord_slices (rid : RemoteId) (key : BitVec 7) :
    (preWord rid key).extractLsb' 8 16 = rid ∧ (preWord rid key).extractLsb' 1 7 = key := by
  constructor
  · refine BitVec.eq_of_getLsbD_eq fun i hi => ?_
    rw [BitVec.getLsbD_extractLsb', decide_eq_true hi, Bool.true_and, preWord, BitVec.getLsbD_append,
      if_neg (by omega), BitVec.getLsbD_append, if_neg (by omega)]
    congr 1
    omega
  · refine BitVec.eq_of_getLsbD_eq fun i hi => ?_
    rw [BitVec.getLsbD_extractLsb', decide_eq_true hi, Bool.true_and, preWord, BitVec.getLsbD_append,
      if_neg (by omega), BitVec.getLsbD_append, if_pos (by omega)]
    congr 1
    omega

/-- A word with the terminator 1 in bit 0 is made of its two slices. -/
theorem preWord_of_slices {v : TxWord} (hv : v.getLsbD 0 = true) :
    preWord (v.extractLsb' 8 16) (v.extractLsb' 1 7) = v := by
  refine BitVec.eq_of_getLsbD_eq fun i hi => ?_
  rw [preWord, BitVec.getLsbD_append]
  by_cases h0 : i < 1
  · obtain rfl : i = 0 := by omega
    rw [if_pos h0, hv]
    rfl
  · rw [if_neg h0, BitVec.getLsbD_append]
    by_cases h8 : i - 1 < 7
    · rw [if_pos h8, BitVec.getLsbD_extractLsb', decide_eq_true h8, Bool.true_and]
      congr 1
      omega
    · rw [if_neg h8, BitVec.getLsbD_extractLsb', decide_eq_true (by omega), Bool.true_and]
      congr 1
      omega

/-- A transmit word reads back (R93). -/
theorem decodeTxWord_txWord (rid : RemoteId) (key : BitVec 7) : decodeTxWord (txWord rid key) = some (.txw rid key) := by
  obtain ⟨hrid, hkey⟩ := preWord_slices rid key
  rw [decodeTxWord, if_pos (getLsbD_txWord_terminator rid key), txWord, rev24_rev24, hrid, hkey]

/-- Settles O9: reversed, a word with bit 23 set has the terminator in bit 0. -/
theorem everyTransmitWordWritesBack : Obligations.EveryTransmitWordWritesBack := by
  intro w
  refine ⟨fun h => ⟨_, _, if_pos h, ?_⟩, fun h => if_neg (by rw [h]; exact Bool.false_ne_true)⟩
  have hv : (rev24 w).getLsbD 0 = true := by
    rw [rev24, BitVec.getLsbD_reverse, BitVec.getMsbD_eq_getLsbD]
    exact h
  rw [txWord, preWord_of_slices hv, rev24_rev24]

/-! ## Every format -/

/-- A record reads back as one the device emits or as a command. -/
theorem record_readsBack {c : Config} {i : Instr} (hi : i.wellFormed c = true) {w : RecordWord}
    (h : encode c i = some (.record w)) :
    decodeEmitted c (Record.ofWord w) = some i ∨ decodeCommand c (Record.ofWord w) = i := by
  cases i <;> cases h <;> rw [Record.ofWord_toWord]
  case switch => exact .inr (decodeCommand_switch c _ _ _ _)
  case switchLegacy => exact .inr (decodeCommand_switchLegacy c _ _ _ _)
  case unknown => exact .inr (decodeCommand_unknown hi _ _ _ _)
  case ready => exact .inl (decodeEmitted_ready c)
  case errUnknown => exact .inl (decodeEmitted_errUnknown c _ _ _ _)

/-- The two rows the device originates read back as such (R92). -/
theorem emitted_readsBack {c : Config} {i : Instr} {w : RecordWord} (h : encode c i = some (.record w))
    (hi : i = .ready ∨ ∃ tag rid key pad, i = .errUnknown tag rid key pad) :
    decodeEmitted c (Record.ofWord w) = some i := by
  rcases hi with rfl | ⟨tag, rid, key, pad, rfl⟩ <;> cases h <;> rw [Record.ofWord_toWord]
  · exact decodeEmitted_ready c
  · exact decodeEmitted_errUnknown c tag rid key pad

theorem symbol_readsBack {c : Config} {i : Instr} {b : TxWord} (h : encode c i = some (.symbol b)) :
    decodeSymbol b = i := by
  cases i <;> cases h
  case sym1 => rfl
  case sym0 => rfl

theorem word_readsBack {c : Config} {i : Instr} {w : TxWord} (h : encode c i = some (.word w)) :
    decodeTxWord w = some i := by
  cases i <;> cases h
  case txw rid key => exact decodeTxWord_txWord rid key

/-- Settles O7: each row with an encoding, by the lemma of its format. -/
theorem encodedInstructionReadsBack : Obligations.EncodedInstructionReadsBack := fun _ _ hi =>
  ⟨fun _ => record_readsBack hi, fun _ => emitted_readsBack, fun _ => symbol_readsBack, fun _ => word_readsBack⟩

/-- Settles O6: the readings compute. -/
theorem writtenWordsDecode : Obligations.WrittenWordsDecode := by
  refine ⟨?switch, ?switchLegacy, ?unknown, ?txw, ?sym0, ?sym1⟩ <;> decide

/-! ## Steps that read an encoding -/

/-- Settles O3: the step's own equation, at each agent. -/
theorem stepRunsMainStatement : Obligations.StepRunsMainStatement := by
  intro s k
  refine ⟨fun hchoice => ⟨fun i htodo => ?op, fun p htodo => ?prim⟩, fun hchoice => ?irq, fun hchoice => ?tmr⟩ <;>
    rw [step_eq, hchoice]
  case op => simp only [mainStep, consume_todo, htodo, runTask]
  case prim => simp only [mainStep, consume_todo, htodo, runTask]

/-- Settles O4: `DISPATCH` is the instruction the command decoder answers, and that one is well formed. -/
theorem stepRunsDecodedCommand : Obligations.StepRunsDecodedCommand := by
  intro s k hchoice htodo
  refine ⟨wellFormed_decodeCommand s.cfg s.cur, ?_⟩
  obtain ⟨hmain, -, -⟩ := stepRunsMainStatement s k
  obtain ⟨hop, -⟩ := hmain hchoice
  rw [hop .dispatch htodo, exec_dispatch]
  rfl

/-- The symbol `BUF[0]` decodes to is the primary handler's body (R95, R124). -/
theorem exec_decodeSymbol (b : TxWord) (s : State) : exec (decodeSymbol b) s = .next (emitSymbol (b.getLsbD 0) s) := by
  rw [decodeSymbol]
  cases b.getLsbD 0 <;> rfl

/-- Settles O5: the interrupt's body on the primary source is that symbol's. -/
theorem stepRunsDecodedSymbol : Obligations.StepRunsDecodedSymbol := by
  intro s hchoice henabled hprimary
  refine ⟨_, exec_decodeSymbol s.buf (enterPrimary s.consume), ?_⟩
  obtain ⟨-, hirq, -⟩ := stepRunsMainStatement s []
  rw [hirq hchoice, exec_irqEntry_of_enabled (show s.consume.irqEnabled = true from henabled), serveIrq,
    if_pos (show s.consume.primaryReady = true from hprimary)]
  rfl

end Sys2Proof.Machine
end

section
/-! SUPPORT. The queue stores (spec/20_memory.md): what the statements can do to the stores, the bytes a `Q_WRITE` stores, and
R178 to R181 from the records held. -/

namespace Sys2Proof.Machine

open Sys2Proof

/-! ## The statements that offer no record -/

/-- The instructions that offer no record change no store: they take a record or leave the queues as they are. -/
theorem exec_mem {i : Instr} {s t : State} (hi : storesRecord i = false) (h : exec i s = .next t) :
    t.iq.mem = s.iq.mem ∧ t.oq.mem = s.oq.mem := by
  cases i with
  | unknown => cases hi
  | ready => cases hi
  | errUnknown => cases hi
  | qWrite => cases hi
  | dispatch => cases hi
  | bootReady => cases hi
  | qRead q => cases h; exact dequeue_mem q s
  | poll idle => cases h; split <;> exact ⟨rfl, rfl⟩
  | tick => cases h; split <;> exact ⟨rfl, rfl⟩
  | irqEntry =>
    cases h
    split
    · have hsame := serveIrq_sameController s
      exact ⟨by rw [hsame.iq], by rw [hsame.oq]⟩
    · exact ⟨rfl, rfl⟩
  | _ => cases h; exact ⟨rfl, rfl⟩

/-- Settles O44: the stores are the same lists of bytes. -/
theorem otherInstructionsStoreNothing : Obligations.OtherInstructionsStoreNothing := by
  intro i s t hi h a
  obtain ⟨hiq, hoq⟩ := exec_mem hi h
  rw [hiq, hoq]
  exact ⟨rfl, rfl⟩

/-! ## The canonical form -/

/-- Both stores are in canonical form. -/
def State.storesWf (s : State) : Prop := s.iq.mem.wf ∧ s.oq.mem.wf

theorem exec_storesWf {i : Instr} {s t : State} (hs : s.storesWf) (h : exec i s = .next t) : t.storesWf := by
  cases i with
  | unknown tag kind rid key pad => cases h; exact enqueue_wf hs.1 hs.2 .oq _
  | ready => cases h; exact enqueue_wf hs.1 hs.2 .oq _
  | errUnknown tag rid key pad => cases h; exact enqueue_wf hs.1 hs.2 .oq _
  | qWrite q r => cases h; exact enqueue_wf hs.1 hs.2 q r
  | dispatch =>
    by_cases hswitch : s.cur.kind = s.cfg.kindSwitch
    · cases (exec_dispatch_of_switch hswitch).symm.trans h; exact hs
    · by_cases hlegacy : s.cur.kind = s.cfg.kindSwitchLegacy
      · cases (exec_dispatch_of_switchLegacy hlegacy).symm.trans h; exact hs
      · cases (exec_dispatch_of_unknown hswitch hlegacy).symm.trans h; exact enqueue_wf hs.1 hs.2 .oq _
  | bootReady =>
    cases h
    split
    · exact hs
    · exact enqueue_wf hs.1 hs.2 .oq _
  | _ =>
    obtain ⟨hiq, hoq⟩ := exec_mem rfl h
    rw [State.storesWf, hiq, hoq]
    exact hs

theorem primStep_storesWf {s : State} (hs : s.storesWf) (p : Prim) : (primStep p s).storesWf := by
  cases p with
  | hwLoop idle => rw [primStep, hwLoopStep]; split <;> exact hs
  | legacyLoop rid key => rw [primStep, legacyLoopStep]; split <;> exact hs
  | reply => exact enqueue_wf hs.1 hs.2 .oq s.cur
  | fetch =>
    obtain ⟨hiq, hoq⟩ := dequeue_mem .iq s
    have hdequeue : (dequeue .iq s).storesWf := by
      rw [State.storesWf, hiq, hoq]
      exact hs
    rw [primStep, fetchStep]
    split <;> exact hdequeue
  | _ => exact hs

theorem Moved.storesWf {m : Move} {s t : State} (hs : s.storesWf) (h : Moved s m t) : t.storesWf := by
  cases h with
  | statement _ hx =>
    rename_i x k _
    cases x with
    | op i => exact exec_storesWf (s := { s with todo := k }) hs hx
    | prim p => cases hx; exact primStep_storesWf (s := { s with todo := k }) hs p
  | interrupt =>
    have hsame := serveIrq_sameController s
    rw [State.storesWf, hsame.iq, hsame.oq]
    exact hs
  | _ => exact hs

/-- Settles O58: every move keeps both stores in canonical form. -/
theorem stepKeepsStoresCanonical : Obligations.StepKeepsStoresCanonical := fun s _ hiq hoq h =>
  Moved.storesWf (s := s.consume) ⟨hiq, hoq⟩ (moved_of_step h)

/-! ## The bytes of a write, and the records held -/

/-- The queue written is the one after `Q_WRITE`, and the other is as it was (R176). -/
theorem enqueue_queue_self (q : QueueId) (r : Record) (s : State) :
    (enqueue q r s).queue q = ((s.queue q).write r).1 := by
  cases q <;> rfl

theorem enqueue_queue_other {q q' : QueueId} (hq : q' ≠ q) (r : Record) (s : State) :
    (enqueue q r s).queue q' = s.queue q' := by
  cases q with
  | iq =>
    cases q' with
    | iq => exact absurd rfl hq
    | oq => rfl
  | oq =>
    cases q' with
    | iq => rfl
    | oq => exact absurd rfl hq

/-- Settles O43: the store after the write is `MemWrite`'s, whose bytes are known. -/
theorem queueWriteChangesOnlyItsSlot : Obligations.QueueWriteChangesOnlyItsSlot := by
  intro q r s t hiq hoq hfull h
  cases (exec_qWrite q r s).symm.trans h
  have hwf : (s.queue q).mem.wf := by
    cases q
    · exact hiq
    · exact hoq
  have hmem : ((enqueue q r s).queue q).mem = memWrite (s.queue q).mem (s.queue q).head r := by
    rcases (s.queue q).write_cases r with ⟨hfull', -⟩ | ⟨-, e⟩
    · cases hfull.symm.trans hfull'
    · rw [enqueue_queue_self, e]
  refine ⟨fun k hk => ?slot, fun a ha => ?rest, fun q' hq' => enqueue_queue_other hq' r s⟩
  case slot =>
    rw [hmem, read_memWrite hwf, slotOffset, if_pos (by omega)]
    congr 1
    omega
  case rest =>
    rw [hmem, read_memWrite hwf, if_neg]
    rintro ⟨hlow, hhigh⟩
    exact ha (a - 8 * (s.queue q).head.toNat) (by omega) (by rw [slotOffset]; omega)

/-- Settles O45: the two cases of a write by the number of records held, and the read of the oldest. -/
theorem queueIsBoundedFifo : Obligations.QueueIsBoundedFifo := by
  intro q r hq
  rw [q.contents_length]
  have hlt := q.count_lt
  refine ⟨by omega, ?result, ?contents, q.read_contents⟩
  case result =>
    rcases Queue.write_contents_cases hq r with ⟨hcount, e⟩ | ⟨hcount, hok, -⟩
    · simp [e, hcount]
    · simp [hok, hcount]
  case contents =>
    rcases Queue.write_contents_cases hq r with ⟨hcount, e⟩ | ⟨hcount, -, e⟩
    · rw [if_neg (by omega), e]
    · rw [if_pos hcount, e]

end Sys2Proof.Machine
end

section
/-! SUPPORT. The next state of each remaining operation, as its rule states it. -/

namespace Sys2Proof.Machine

open Sys2Proof

/-! ## The pin, the timer and the engine -/

/-- Settles O13: the two cases of a write of the pin. -/
theorem pinWriteExtendsTrace : Obligations.PinWriteExtendsTrace := by
  intro l s
  rcases drivePin_cases l s with ⟨hl, e⟩ | ⟨hl, e⟩
  · exact ⟨fun _ => e, fun hne => absurd hl hne⟩
  · exact ⟨fun heq => absurd heq hl, fun _ => e⟩

theorem clocked_iff (s : State) : s.clocked = true ↔ s.tctl.extractLsb' 0 4 ≠ 0#4 := by
  rw [State.clocked, clockSelect, bne_iff_ne]

/-- Settles O14: a clocked tick is `countTick`, with its tests as propositions; a stopped clock changes nothing. -/
theorem tickCountsAndCompares : Obligations.TickCountsAndCompares := by
  intro s
  constructor
  · intro hclocked
    rw [exec_tick_of_clocked ((clocked_iff s).mpr hclocked), countTick]
    simp only [setFlags, beq_iff_eq, State.nextCount, State.ctc]
    rfl
  · intro hstopped
    refine exec_tick_of_not_clocked ?_
    rw [State.clocked, clockSelect, hstopped]
    rfl

/-- `ARM`'s body neither reads nor writes `GIE`, so its whole effect is the body (R11, R123). -/
theorem exec_arm (s : State) : exec .arm s = .next (armBody s) := rfl

/-- Settles O16: the body's writes, with the clear of the flags as one mask. -/
theorem armStartsFrame : Obligations.ArmStartsFrame := by
  intro s
  rw [exec_arm, armBody, clearFlags_eq_and, Config.inert]

/-- Settles O17: the handler is the body of the symbol, and each symbol's branch of it. -/
theorem primaryHandlerSendsSymbol : Obligations.PrimaryHandlerSendsSymbol := by
  intro s
  refine ⟨?symbol, rfl, rfl, ?body⟩
  case symbol => exact (exec_decodeSymbol s.buf s).symm
  case body =>
    show Host.Outcome.next (emitSymbol (s.buf.getLsbD 0) s) = _
    rw [emitSymbol_eq, Config.inert]

/-- Settles O18: the body is an inversion of the pin. -/
theorem secondaryHandlerInverts : Obligations.SecondaryHandlerInverts := by
  intro s
  show Host.Outcome.next (drivePin (!s.pin) s) = _
  rw [drivePin_not]

/-! ## The interrupt -/

theorem irqEnabled_iff (s : State) :
    s.irqEnabled = true ↔
      s.gie = true ∧ s.inh = false ∧ ((s.ifa = true ∧ s.iea = true) ∨ (s.ifb = true ∧ s.ieb = true)) := by
  simp [State.irqEnabled, State.primaryReady, State.secondaryReady, and_assoc]

theorem primaryReady_iff (s : State) : s.primaryReady = true ↔ s.ifa = true ∧ s.iea = true := by
  rw [State.primaryReady, Bool.and_eq_true]

/-- Settles O29: the two cases of one interrupt, and the entry that is not enabled. -/
theorem interruptServesOneSource : Obligations.InterruptServesOneSource := by
  intro s
  refine ⟨fun hgie hinh hifa hiea => ?primary, fun hgie hinh hnot hifb hieb => ?secondary, fun hnot => ?none⟩
  case primary =>
    rw [exec_irqEntry_of_enabled ((irqEnabled_iff s).mpr ⟨hgie, hinh, .inl ⟨hifa, hiea⟩⟩)]
    rcases serveIrq_cases s with ⟨-, e⟩ | ⟨hready, -⟩
    · rw [e, ← hgie, ← hinh, clearIfa, Config.inert]
    · cases hready.symm.trans ((primaryReady_iff s).mpr ⟨hifa, hiea⟩)
  case secondary =>
    rw [exec_irqEntry_of_enabled ((irqEnabled_iff s).mpr ⟨hgie, hinh, .inr ⟨hifb, hieb⟩⟩)]
    rcases serveIrq_cases s with ⟨hready, -⟩ | ⟨-, e⟩
    · exact absurd ((primaryReady_iff s).mp hready) hnot
    · rw [e, ← hgie, ← hinh, clearIfb]
  case none =>
    refine exec_irqEntry_of_not_enabled ?_
    rw [← Bool.not_eq_true, irqEnabled_iff]
    exact hnot

/-! ## The transmission controller -/

/-- Settles O31: the test of the path as a proposition. -/
theorem transmitSelectsPath : Obligations.TransmitSelectsPath := by
  intro rid key useHw idle s
  rw [exec, execTransmit, State.push]
  simp only [Bool.and_eq_true, List.cons_append, List.nil_append]

/-- Settles O33: the two branches of the loop's test. -/
theorem transmitHwRunsItsLoop : Obligations.TransmitHwRunsItsLoop := by
  intro rid key idle s
  refine ⟨rfl, fun hlt => ?frame, fun hge => ?release⟩
  case frame =>
    rw [primStep, hwLoopStep, if_pos hlt]
    rfl
  case release =>
    rw [primStep, hwLoopStep, if_neg (by omega)]
    rfl

theorem exec_poll_of_done {s : State} (h : s.buf = 0#24) (idle : Bool) : exec (.poll idle) s = .next s := by
  rw [exec, execPoll, State.done, h]
  rfl

theorem exec_poll_of_not_done {s : State} (h : s.buf ≠ 0#24) (idle : Bool) :
    exec (.poll idle) s = .next (s.push (pollAgain idle)) := by
  rw [exec, execPoll, State.done, beq_eq_false_iff_ne.mpr h]
  rfl

/-- Settles O34: the two branches of the test of `BUF`. -/
theorem pollReadsBuffer : Obligations.PollReadsBuffer := by
  intro s
  refine ⟨fun idle h => exec_poll_of_done h idle, fun h => ⟨?_, ?_⟩⟩ <;> rw [exec_poll_of_not_done h] <;> rfl

/-- Settles O37: the two branches of the loop's test. -/
theorem transmitLegacyRunsItsLoop : Obligations.TransmitLegacyRunsItsLoop := by
  intro rid key s
  refine ⟨rfl, rfl, fun hlt => ?frame, fun hge => ?rest⟩
  case frame =>
    rw [primStep, legacyLoopStep, if_pos hlt, State.push, List.append_assoc]
    rfl
  case rest =>
    rw [primStep, legacyLoopStep, if_neg (by omega)]
    rfl

/-! ## The host exchange -/

/-- Settles O47: each row latches its record and lays out its two statements. -/
theorem switchCommandsTransmitThenEcho : Obligations.SwitchCommandsTransmitThenEcho := fun _ _ _ _ _ =>
  ⟨rfl, rfl⟩

/-- Settles O48: the error-marked copy is offered to `OQ`. -/
theorem unknownCommandRepliesMarked : Obligations.UnknownCommandRepliesMarked := by
  intro tag kind rid key pad s
  rw [exec, execUnknown, enqueue_oq_eq, errorCopy]

/-- Settles O49: the latch, and the two records offered to `OQ`. -/
theorem dataRowsActAsChosen : Obligations.DataRowsActAsChosen := by
  intro s
  refine ⟨fun rid key => rfl, ?ready, fun tag rid key pad => ?errUnknown⟩
  case ready => rw [exec, execReady, offerReady_eq, Config.readyRecord]
  case errUnknown => rw [exec, execErrUnknown, enqueue_oq_eq]

theorem fetchStep_of_empty {s : State} (h : s.iq.head = s.iq.tail) : fetchStep s = { s with ret := .taken none } := by
  have hread : s.iq.read.2 = none := by
    rw [Queue.read, if_pos (s.iq.empty_iff.mpr h)]
  rw [fetchStep, hread]
  exact dequeue_of_empty (q := .iq) h

theorem fetchStep_of_not_empty {s : State} (h : s.iq.head ≠ s.iq.tail) :
    fetchStep s = (dequeue .iq s).push [.prim (.latch (memRead s.iq.mem s.iq.tail)), .op .dispatch] := by
  have hread : s.iq.read.2 = some (memRead s.iq.mem s.iq.tail) := by
    rw [Queue.read, if_neg (fun he => h (s.iq.empty_iff.mp he))]
  rw [fetchStep, hread]

/-- Settles O52: the two branches of the fetch. -/
theorem mainLoopServesFetchesDispatches : Obligations.MainLoopServesFetchesDispatches := by
  intro s
  refine ⟨rfl, rfl, fun h => ?empty, fun h => ?record, fun r => rfl⟩
  case empty => rw [primStep, fetchStep_of_empty h]
  case record =>
    rw [primStep, fetchStep_of_not_empty h, dequeue_of_not_empty (q := .iq) h]
    rfl

/-- Settles O53: the model's map of actions is the only one the two equations allow. -/
theorem servicePointRunsTransportActions : Obligations.ServicePointRunsTransportActions := by
  intro s task henqueue hserve
  have htask : task = TransportAction.task := by
    funext a
    cases a with
    | enqueue r => exact henqueue r
    | serve => exact hserve
  subst htask
  refine ⟨fun acts rest hx => ?_, fun hx => ?_⟩ <;>
    simp only [exec, execXportService, State.serviceActions, State.push, hx, List.tail_cons, List.tail_nil,
      List.isEmpty_cons, List.isEmpty_nil, Bool.false_eq_true, if_true, if_false]

theorem hostAccepts_eq (sent reply : Record) :
    hostAccepts sent reply = decide (reply.kind = sent.kind ∧ reply.rid = sent.rid ∧ reply.key = sent.key) := by
  rw [hostAccepts, Bool.eq_iff_iff]
  simp [and_assoc]

/-- Settles O54: the comparison as a proposition, and the branches of the exchange. -/
theorem hostVerifiesAndRetriesReadOnce : Obligations.HostVerifiesAndRetriesReadOnce := by
  intro sent reply s second
  refine ⟨?verify, rfl, rfl, rfl, ?verdict⟩
  case verify => rw [exec, execHostVerify, hostAccepts_eq]
  case verdict =>
    rw [hostVerdict, hostAccepts_eq]
    by_cases h : reply.kind = sent.kind ∧ reply.rid = sent.rid ∧ reply.key = sent.key <;> simp [h]

/-- Settles O55: the two refusals and the write of the other owner. -/
theorem otherOwnerKeepsThePremise : Obligations.OtherOwnerKeepsThePremise := by
  intro s w hchoice
  rw [step_eq, hchoice]
  refine ⟨fun hown => ?borrowed, fun hown hoff => ?enables, fun hown hoff => ?writes⟩ <;>
    simp only [ownerWrite, consume_own, hown]
  case borrowed => rfl
  case enables => rw [hoff]; rfl
  case writes => rw [hoff]; rfl

end Sys2Proof.Machine
end

section
/-! SUPPORT. Runs of a schedule fixed in advance (R224) as lists of moves, and the interval a compare value sets (R120). -/

namespace Sys2Proof.Machine

open Sys2Proof

/-! ## Lists of moves -/

/-- The moves take `s` to `t`, one after the other. -/
def Reaches : List Move → State → State → Prop
  | [], s, t => t = s
  | m :: ms, s, t => ∃ u : State, moveStep m s = .next u ∧ Reaches ms u t

theorem Reaches.refl (s : State) : Reaches [] s s := rfl

theorem Reaches.single {m : Move} {s t : State} (h : moveStep m s = .next t) : Reaches [m] s t := ⟨t, h, rfl⟩

theorem Reaches.cons {m : Move} {ms : List Move} {s u t : State} (h : moveStep m s = .next u) (hms : Reaches ms u t) :
    Reaches (m :: ms) s t := ⟨u, h, hms⟩

theorem Reaches.append {ms ms' : List Move} {s t u : State} (h : Reaches ms s t) (h' : Reaches ms' t u) :
    Reaches (ms ++ ms') s u := by
  induction ms generalizing s with
  | nil => cases h; exact h'
  | cons m ms ih =>
    obtain ⟨v, hv, hms⟩ := h
    exact ⟨v, hv, ih hms⟩

/-- No move writes the schedule. -/
theorem moveStep_schedule {m : Move} {s t : State} (h : moveStep m s = .next t) :
    t.agenda = s.agenda ∧ t.drawn = s.drawn := by
  have hsame : moveStep m s = .next (t.withSchedule s.agenda s.drawn) :=
    moveStep_withSchedule (s := s) h s.agenda s.drawn
  injection h.symm.trans hsame with e
  exact ⟨(congrArg State.agenda e).trans rfl, (congrArg State.drawn e).trans rfl⟩

theorem Reaches.schedule {ms : List Move} {s t : State} (h : Reaches ms s t) :
    t.agenda = s.agenda ∧ t.drawn = s.drawn := by
  induction ms generalizing s with
  | nil => cases h; exact ⟨rfl, rfl⟩
  | cons m ms ih =>
    obtain ⟨u, hu, hms⟩ := h
    obtain ⟨hagenda, hdrawn⟩ := moveStep_schedule hu
    obtain ⟨hagenda', hdrawn'⟩ := ih hms
    exact ⟨hagenda'.trans hagenda, hdrawn'.trans hdrawn⟩

/-- Moves are a run of the machine whose agenda begins with them. -/
theorem run_withSchedule_of_reaches {ms : List Move} {s t : State} (h : Reaches ms s t) (rest : List Move) (d : Nat) :
    run ms.length (s.withSchedule (ms ++ rest) d) = .next (t.withSchedule rest d) := by
  induction ms generalizing s with
  | nil => cases h; rfl
  | cons m ms ih =>
    obtain ⟨u, hu, hms⟩ := h
    have hstep : step (s.withSchedule (m :: ms ++ rest) d) = .next (u.withSchedule (ms ++ rest) d) :=
      moveStep_withSchedule hu (ms ++ rest) d
    rw [List.length_cons, run_succ_of_step hstep, ih hms]

theorem run_of_reaches {ms : List Move} {s t : State} (h : Reaches ms s t) :
    run ms.length (s.scheduled ms) = .next t := by
  obtain ⟨hagenda, hdrawn⟩ := h.schedule
  have hsame : t.withSchedule s.agenda s.drawn = t := by
    rw [← hagenda, ← hdrawn]
    rfl
  have hrun := run_withSchedule_of_reaches h s.agenda s.drawn
  rwa [hsame] at hrun

/-! ## Ticks alone -/

/-- Below the wrap of the counter the next count is one up (R120). -/
theorem nextCount_eq {s : State} {x : Nat} (hcnt : s.cnt = x) (hx : x + 1 < 2 ^ s.cfg.w) : s.nextCount = x + 1 := by
  rw [State.nextCount, hcnt, Nat.mod_eq_of_lt hx]

/-- What `n` ticks from a cleared counter have made of a timer whose compare value is not yet passed (R120). -/
structure State.Ticked (s : State) (n : Nat) (t : State) : Prop where
  cfg : t.cfg = s.cfg
  tctl : t.tctl = s.tctl
  cmpa : t.cmpa = s.cmpa
  cmpb : t.cmpb = s.cmpb
  ifa : t.ifa = decide (n = s.cmpa)
  cnt : t.cnt = if n = s.cmpa then 0 else n
  ifb : t.ifb = (s.ifb || decide (0 < s.cmpb ∧ s.cmpb ≤ n))

theorem State.Ticked.succ {s t : State} {n : Nat} (h : s.Ticked n t) (hctc : s.ctc = true) (hn : n < s.cmpa)
    (hcmpa : s.cmpa < 2 ^ s.cfg.w) : s.Ticked (n + 1) (countTick t) := by
  have hcnt : t.cnt = n := by rw [h.cnt, if_neg (by omega)]
  have hnext : t.nextCount = n + 1 := nextCount_eq hcnt (by rw [h.cfg]; omega)
  have hctc' : t.ctc = true := by rw [State.ctc, h.tctl]; exact hctc
  constructor
  case cfg => exact h.cfg
  case tctl => exact h.tctl
  case cmpa => exact h.cmpa
  case cmpb => exact h.cmpb
  case ifa =>
    have hclear : t.ifa = false := by rw [h.ifa]; exact decide_eq_false (by omega)
    rw [countTick_ifa, hclear, hnext, h.cmpa, Bool.false_or]
    exact beq_eq_decide _ _
  case cnt =>
    rw [countTick_cnt, hnext, h.cmpa, hctc']
    simp
  case ifb =>
    rw [countTick_ifb, h.ifb, hnext, h.cmpb, Bool.or_assoc]
    congr 1
    rw [Bool.eq_iff_iff]
    simp only [Bool.or_eq_true, decide_eq_true_eq, beq_iff_eq]
    omega

/-- Settles O15: each tick before the match counts one up, and the one at the match clears the counter. -/
theorem compareValueIsInterval : Obligations.CompareValueIsInterval := by
  intro s hclocked hctc hcnt hpos hcmpa hifa n hn
  have hticked : ∃ t : State, Reaches (tickMoves n) s t ∧ s.Ticked n t := by
    induction n with
    | zero =>
      refine ⟨s, rfl, rfl, rfl, rfl, rfl, ?_, ?_, ?_⟩
      · rw [hifa, decide_eq_false (by omega)]
      · rw [if_neg (by omega), hcnt]
      · rw [decide_eq_false (by omega), Bool.or_false]
    | succ n ih =>
      obtain ⟨t, hreach, hticked⟩ := ih (by omega)
      have hclocked' : t.clocked = true := by rw [State.clocked, hticked.tctl]; exact hclocked
      refine ⟨countTick t, ?_, hticked.succ hctc (by omega) hcmpa⟩
      rw [tickMoves, List.replicate_succ']
      exact hreach.append (.single (exec_tick_of_clocked hclocked'))
  obtain ⟨t, hreach, hticked⟩ := hticked
  have hrun := run_of_reaches hreach
  rw [show (tickMoves n).length = n from List.length_replicate] at hrun
  exact ⟨t, hrun, hticked.ifa, hticked.cnt, hticked.ifb⟩

end Sys2Proof.Machine
end

section
/-! SUPPORT. The pulse train (spec/41_pulse_engine.md section 5): the interval between two primary events, what ticks and
prompt interrupts make of it, and the pulses of a frame one after the other. -/

namespace Sys2Proof.Machine

open Sys2Proof

/-! ## One interval -/

/-- The interval from one primary event to the next (R127): what the engine holds at its begin. -/
structure Pulse where
  cfg : Config
  es : EngineState
  /-- the buffer -/
  word : TxWord
  /-- the ticks to the next primary event -/
  len : Nat
  /-- the ticks to the secondary event, inert where there is none -/
  half : Nat
  /-- the level at the begin -/
  level : Bool
  /-- the closed segments at the begin, newest first -/
  closed : List Segment
  /-- the ticks and the nanoseconds the segment at the begin already has -/
  ticks : Nat
  ns : Nat

/-- The compare values are those the parameters allow (R7): positive, below the inert value, and a secondary event comes
inside the interval or not at all. -/
structure Pulse.Ok (p : Pulse) : Prop where
  len_pos : 0 < p.len
  len_lt : p.len < p.cfg.inert
  half_pos : 0 < p.half
  half_lt_or : p.half < p.len ∨ p.half = p.cfg.inert

/-- The counter and the primary flag `x` ticks into the interval: the match sets the flag and clears the counter. -/
def Pulse.counts (p : Pulse) (x : Nat) (s : State) : Prop :=
  (x < p.len ∧ s.cnt = x ∧ s.ifa = false) ∨ (x = p.len ∧ s.cnt = 0 ∧ s.ifa = true)

/-- The pin is as at the begin: the secondary event is not there yet, or pending. -/
def Pulse.beforeHalf (p : Pulse) (x : Nat) (s : State) : Prop :=
  x ≤ p.half ∧ s.ifb = decide (x = p.half) ∧ s.pin = p.level ∧ s.trace = p.closed ∧ s.segTicks = p.ticks + x ∧
    s.segNs = p.ns

/-- The secondary event has been served, and has inverted the pin. -/
def Pulse.afterHalf (p : Pulse) (x : Nat) (s : State) : Prop :=
  p.half ≤ x ∧ s.ifb = false ∧ s.pin = (!p.level) ∧
    s.trace = ⟨p.level, p.ticks + p.half, p.ns⟩ :: p.closed ∧ s.segTicks = x - p.half ∧ s.segNs = 0

/-- The state is `x` ticks into the interval. -/
structure Pulse.At (p : Pulse) (x : Nat) (s : State) : Prop where
  cfg : s.cfg = p.cfg
  es : s.es = p.es
  buf : s.buf = p.word
  tien : s.tien = 0x03#8
  tctl : s.tctl = s.cfg.cfgTctl
  gie : s.gie = true
  inh : s.inh = false
  cmpa : s.cmpa = p.len
  cmpb : s.cmpb = p.half
  counts : p.counts x s
  pin : p.beforeHalf x s ∨ p.afterHalf x s

/-- The segments the interval closes by its end, newest first. -/
def Pulse.segments (p : Pulse) : List Segment :=
  if p.half < p.len then [⟨!p.level, p.len - p.half, 0⟩, ⟨p.level, p.ticks + p.half, p.ns⟩]
  else [⟨p.level, p.ticks + p.len, p.ns⟩]

/-- The interval after the primary event at the end of this one (R124). -/
def Pulse.next (p : Pulse) : Pulse where
  cfg := p.cfg
  es := p.es
  word := p.word >>> 1
  len := if p.word.getLsbD 0 then p.cfg.tFull else 2 * p.cfg.tHalf
  half := if p.word.getLsbD 0 then p.cfg.inert else p.cfg.tHalf
  level := if p.half < p.len then p.level else !p.level
  closed := p.segments ++ p.closed
  ticks := 0
  ns := 0

theorem Pulse.Ok.next {p : Pulse} (hp : p.Ok) : p.next.Ok := by
  have hinert : 0 < p.cfg.inert := (Nat.zero_le _).trans_lt hp.len_lt
  have htFull : 0 < p.cfg.tFull := (Nat.zero_le _).trans_lt p.cfg.tHalf_lt_tFull
  have htHalf := p.cfg.tHalf_pos
  constructor <;> rw [Pulse.next] <;> dsimp only <;> cases p.word.getLsbD 0
  case len_pos.false => simpa using htHalf
  case len_pos.true => simpa using htFull
  case len_lt.false => simpa [Config.inert] using p.cfg.tBit_lt_inert
  case len_lt.true => simpa [Config.inert] using p.cfg.tFull_lt_inert
  case half_pos.false => simpa using htHalf
  case half_pos.true => simpa using hinert
  case half_lt_or.false => left; simp only [Bool.false_eq_true, if_false]; omega
  case half_lt_or.true => right; rfl

/-- Before its end the interval's ticks are the counter's, and the primary flag is clear. -/
theorem Pulse.At.counts_of_lt {p : Pulse} {x : Nat} {s : State} (h : p.At x s) (hx : x < p.len) :
    s.cnt = x ∧ s.ifa = false := by
  rcases h.counts with ⟨-, hcounts⟩ | ⟨heq, -⟩
  · exact hcounts
  · exact absurd heq hx.ne

theorem Pulse.At.beforeHalf_of_lt {p : Pulse} {x : Nat} {s : State} (h : p.At x s) (hx : x < p.half) :
    p.beforeHalf x s := by
  rcases h.pin with hbefore | ⟨hle, -⟩
  · exact hbefore
  · exact absurd hle (Nat.not_le.mpr hx)

/-- A tick that no interrupt waits for. -/
theorem Pulse.At.tick {p : Pulse} {x : Nat} {s : State} (h : p.At x s) (hp : p.Ok) (hprompt : s.irqEnabled = false) :
    x < p.len ∧ exec .tick s = .next (countTick s) ∧ p.At (x + 1) (countTick s) := by
  have hnot : ¬((s.ifa = true ∧ s.iea = true) ∨ (s.ifb = true ∧ s.ieb = true)) := fun hready => by
    rw [(irqEnabled_iff s).mpr ⟨h.gie, h.inh, hready⟩] at hprompt
    cases hprompt
  have hiea : s.iea = true := by rw [State.iea, h.tien]; rfl
  have hieb : s.ieb = true := by rw [State.ieb, h.tien]; rfl
  have hifa : s.ifa = false := by simpa [hiea] using fun hifa => hnot (.inl ⟨hifa, hiea⟩)
  have hifb : s.ifb = false := by simpa [hieb] using fun hifb => hnot (.inr ⟨hifb, hieb⟩)
  obtain ⟨hx, hcnt⟩ : x < p.len ∧ s.cnt = x := by
    rcases h.counts with ⟨hx, hcnt, -⟩ | ⟨-, -, hset⟩
    · exact ⟨hx, hcnt⟩
    · cases hifa.symm.trans hset
  have hnext : s.nextCount = x + 1 := by
    refine nextCount_eq hcnt ?_
    have := hp.len_lt
    have := inert_lt p.cfg
    rw [h.cfg]
    omega
  have hctc : s.ctc = true := by rw [State.ctc, h.tctl]; exact s.cfg.cfgTctl_ctc
  refine ⟨hx, exec_tick_of_clocked (clocked_of_cfgTctl h.tctl),
    ⟨h.cfg, h.es, h.buf, h.tien, h.tctl, h.gie, h.inh, h.cmpa, h.cmpb, ?counts, ?pin⟩⟩
  case counts =>
    rw [Pulse.counts, countTick_cnt, countTick_ifa, hnext, h.cmpa, hctc, hifa]
    rcases Nat.lt_or_eq_of_le (Nat.succ_le_of_lt hx) with hlt | heq
    · left
      simp [show x + 1 ≠ p.len by omega]
      omega
    · right
      simp [show x + 1 = p.len from heq]
  case pin =>
    rcases h.pin with ⟨hle, hb, hpin, htrace, hticks, hns⟩ | ⟨hle, hb, hpin, htrace, hticks, hns⟩
    · left
      have hne : x ≠ p.half := by simpa [hifb] using hb
      refine ⟨by omega, ?_, hpin, htrace, ?_, hns⟩
      · rw [countTick_ifb, hifb, hnext, h.cmpb, Bool.false_or]
        exact beq_eq_decide _ _
      · rw [countTick_segTicks, hticks]
        omega
    · right
      refine ⟨by omega, ?_, hpin, htrace, ?_, hns⟩
      · rw [countTick_ifb, hifb, hnext, h.cmpb, Bool.false_or]
        exact beq_false_of_ne (by omega)
      · rw [countTick_segTicks, hticks]
        omega

/-- The interrupt at the end of the interval serves the primary source: the next interval begins. -/
theorem Pulse.At.primary {p : Pulse} {s : State} (h : p.At p.len s) (hp : p.Ok) :
    exec .irqEntry s = .next (serveIrq s) ∧ p.next.At 0 (serveIrq s) := by
  have hiea : s.iea = true := by rw [State.iea, h.tien]; rfl
  obtain ⟨hcnt, hifa⟩ : s.cnt = 0 ∧ s.ifa = true := by
    rcases h.counts with ⟨hlt, -⟩ | ⟨-, hcnt, hifa⟩
    · exact absurd hlt (Nat.lt_irrefl _)
    · exact ⟨hcnt, hifa⟩
  refine ⟨exec_irqEntry_of_enabled ((irqEnabled_iff s).mpr ⟨h.gie, h.inh, .inl ⟨hifa, hiea⟩⟩), ?_⟩
  have hpins : s.ifb = false ∧ (!s.pin) = p.next.level ∧
      ⟨s.pin, s.segTicks, s.segNs⟩ :: s.trace = p.next.closed := by
    rw [Pulse.next, Pulse.segments]
    have hlen := hp.len_lt
    rcases h.pin with ⟨hle, hb, hpin, htrace, hticks, hns⟩ | ⟨hle, hb, hpin, htrace, hticks, hns⟩
    · have hhalf : ¬ p.half < p.len := by omega
      have hne : p.len ≠ p.half := by
        rcases hp.half_lt_or with h' | h' <;> omega
      simp [hhalf, hpin, hticks, hns, htrace, hb, hne]
    · have hhalf : p.half < p.len := by
        rcases hp.half_lt_or with h' | h' <;> omega
      simp [hhalf, hpin, hticks, hns, htrace, hb]
  obtain ⟨hifb, hlevel, hclosed⟩ := hpins
  rcases serveIrq_cases s with ⟨-, e⟩ | ⟨hready, -⟩
  · rw [e]
    refine ⟨h.cfg, h.es, ?_, h.tien, h.tctl, rfl, rfl, ?_, ?_, .inl ⟨hp.next.len_pos, hcnt, ?_⟩,
      .inl ⟨Nat.zero_le _, ?_, hlevel, hclosed, rfl, rfl⟩⟩
    · rw [h.buf]; rfl
    · rw [h.buf, h.cfg]; rfl
    · rw [h.buf, h.cfg]; rfl
    · exact (clearIfa_bits s.tifr).1
    · rw [decide_eq_false hp.next.half_pos.ne]
      exact (clearIfa_bits s.tifr).2.trans hifb
  · cases hready.symm.trans ((primaryReady_iff s).mpr ⟨hifa, hiea⟩)

/-- An interrupt inside the interval serves the secondary source where it is pending; then none is. -/
theorem Pulse.At.secondary {p : Pulse} {x : Nat} {s : State} (h : p.At x s) (hx : x < p.len) :
    ∃ t : State, exec .irqEntry s = .next t ∧ s.SameController t ∧ p.At x t ∧ t.irqEnabled = false := by
  have hieb : s.ieb = true := by rw [State.ieb, h.tien]; rfl
  obtain ⟨hcnt, hifa⟩ := h.counts_of_lt hx
  have hprimary : ¬(s.ifa = true ∧ s.iea = true) := by simp [hifa]
  cases hifb : s.ifb
  · have hoff : s.irqEnabled = false := by
      rw [← Bool.not_eq_true, irqEnabled_iff]
      simp [hifa, hifb]
    exact ⟨s, exec_irqEntry_of_not_enabled hoff, .refl s, h, hoff⟩
  · obtain ⟨rfl, hpin, htrace, hticks, hns⟩ :
        x = p.half ∧ s.pin = p.level ∧ s.trace = p.closed ∧ s.segTicks = p.ticks + x ∧ s.segNs = p.ns := by
      rcases h.pin with ⟨-, hb, hrest⟩ | ⟨-, hb, -⟩
      · exact ⟨by simpa [hifb] using hb, hrest⟩
      · cases hifb.symm.trans hb
    refine ⟨serveIrq s, exec_irqEntry_of_enabled ((irqEnabled_iff s).mpr ⟨h.gie, h.inh, .inr ⟨hifb, hieb⟩⟩),
      serveIrq_sameController s, ?_⟩
    rcases serveIrq_cases s with ⟨hready, -⟩ | ⟨-, e⟩
    · exact absurd ((primaryReady_iff s).mp hready) hprimary
    · have hclear : (serveIrq s).ifa = false ∧ (serveIrq s).ifb = false := by
        rw [e]
        exact ⟨(clearIfb_bits s.tifr).1.trans hifa, (clearIfb_bits s.tifr).2⟩
      refine ⟨?_, ?_⟩
      · rw [e] at hclear ⊢
        refine ⟨h.cfg, h.es, h.buf, h.tien, h.tctl, rfl, rfl, h.cmpa, h.cmpb, .inl ⟨hx, hcnt, hclear.1⟩,
          .inr ⟨Nat.le_refl _, hclear.2, ?_, ?_, ?_, rfl⟩⟩
        · rw [hpin]
        · rw [hpin, hticks, hns, htrace]
        · exact (Nat.sub_self _).symm
      · rw [← Bool.not_eq_true, irqEnabled_iff]
        simp [hclear]

/-! ## The intervals one after the other -/

/-- The interval after `k` primary events. -/
def Pulse.nth (p : Pulse) : Nat → Pulse
  | 0 => p
  | k + 1 => (p.nth k).next

/-- The ticks up to its begin. -/
def Pulse.elapsed (p : Pulse) : Nat → Nat
  | 0 => 0
  | k + 1 => p.elapsed k + (p.nth k).len

theorem Pulse.Ok.nth {p : Pulse} (hp : p.Ok) (k : Nat) : (p.nth k).Ok := by
  induction k with
  | zero => exact hp
  | succ k ih => exact ih.next

theorem Pulse.elapsed_mono (p : Pulse) {j k : Nat} (h : j ≤ k) : p.elapsed j ≤ p.elapsed k := by
  induction k, h using Nat.le_induction with
  | base => exact Nat.le_refl _
  | succ k _ ih => exact ih.trans (Nat.le_add_right _ _)

/-- A number of ticks falls into one interval at one place. -/
theorem Pulse.elapsed_inj {p : Pulse} {j k x y : Nat} (hx : x < (p.nth j).len) (hy : y < (p.nth k).len)
    (h : p.elapsed j + x = p.elapsed k + y) : j = k ∧ x = y := by
  have hbefore {i l u v : Nat} (hu : u < (p.nth i).len) (hil : i < l) : p.elapsed i + u < p.elapsed l + v := by
    have hnext : p.elapsed i + (p.nth i).len ≤ p.elapsed l := p.elapsed_mono hil
    omega
  rcases Nat.lt_trichotomy j k with hlt | rfl | hlt
  · exact absurd h (hbefore hx hlt).ne
  · exact ⟨rfl, by omega⟩
  · exact absurd h.symm (hbefore hy hlt).ne

theorem Pulse.nth_cfg (p : Pulse) (k : Nat) : (p.nth k).cfg = p.cfg := by
  induction k with
  | zero => rfl
  | succ k ih => exact ih

theorem Pulse.nth_es (p : Pulse) (k : Nat) : (p.nth k).es = p.es := by
  induction k with
  | zero => rfl
  | succ k ih => exact ih

/-- Each primary event shifts the buffer by one (R124). -/
theorem Pulse.nth_word (p : Pulse) (k : Nat) : (p.nth k).word = p.word >>> k := by
  induction k with
  | zero => exact (BitVec.ushiftRight_zero p.word).symm
  | succ k ih =>
    show (p.nth k).word >>> 1 = _
    rw [ih, ← BitVec.shiftRight_add]

/-! ## Prompt ticks with no step of MAIN -/

/-- The state is in the interval, and no interrupt waits. -/
def Pulse.Settled (p : Pulse) (x : Nat) (s : State) : Prop := p.At x s ∧ s.irqEnabled = false

/-- At the begin of an interval no interrupt waits. -/
theorem Pulse.At.settled_begin {p : Pulse} {s : State} (h : p.At 0 s) (hp : p.Ok) : p.Settled 0 s := by
  refine ⟨h, ?_⟩
  obtain ⟨-, hifa⟩ := h.counts_of_lt hp.len_pos
  obtain ⟨-, hb, -⟩ := h.beforeHalf_of_lt hp.half_pos
  have hifb : s.ifb = false := by rw [hb, decide_eq_false hp.half_pos.ne]
  rw [← Bool.not_eq_true, irqEnabled_iff]
  simp [hifa, hifb]

/-- A tick and its interrupts: one tick farther in the interval, or at the begin of the next. -/
theorem Pulse.Settled.promptTick {p : Pulse} {x : Nat} {s : State} (h : p.Settled x s) (hp : p.Ok) :
    ∃ t : State, Reaches promptTick s t ∧ s.SameController t ∧
      ((x + 1 < p.len ∧ p.Settled (x + 1) t) ∨ (x + 1 = p.len ∧ p.next.Settled 0 t)) := by
  obtain ⟨hat, hoff⟩ := h
  obtain ⟨hx, htick, hat'⟩ := hat.tick hp hoff
  have hsame := countTick_sameController s
  rcases Nat.lt_or_eq_of_le (Nat.succ_le_of_lt hx) with hlt | heq
  · obtain ⟨t, hirq, hsame', hat'', hoff'⟩ := hat'.secondary hlt
    exact ⟨t, .cons htick (.cons hirq (.single (exec_irqEntry_of_not_enabled hoff'))), hsame.trans hsame',
      .inl ⟨hlt, hat'', hoff'⟩⟩
  · rw [show x + 1 = p.len from heq] at hat'
    obtain ⟨hirq, hnext⟩ := hat'.primary hp
    have hsettled := hnext.settled_begin hp.next
    exact ⟨_, .cons htick (.cons hirq (.single (exec_irqEntry_of_not_enabled hsettled.2))),
      hsame.trans (serveIrq_sameController _), .inr ⟨heq, hsettled⟩⟩

theorem promptMoves_succ (n : Nat) : promptMoves (n + 1) = promptMoves n ++ promptTick := by
  rw [promptMoves, List.replicate_succ', List.flatten_append, List.flatten_singleton, ← promptMoves]

theorem promptMoves_length (n : Nat) : (promptMoves n).length = 3 * n := by
  simp [promptMoves, promptTick, Nat.mul_comm]

/-- `n` prompt ticks from the begin of an interval end in the interval that many ticks fall into. -/
theorem Pulse.Settled.promptMoves {p : Pulse} {s : State} (h : p.Settled 0 s) (hp : p.Ok) (n : Nat) :
    ∃ (t : State) (k x : Nat), Reaches (promptMoves n) s t ∧ s.SameController t ∧ (p.nth k).Settled x t ∧
      x < (p.nth k).len ∧ p.elapsed k + x = n := by
  induction n with
  | zero => exact ⟨s, 0, 0, rfl, .refl s, h, hp.len_pos, rfl⟩
  | succ n ih =>
    obtain ⟨t, k, x, hreach, hsame, hsettled, -, hn⟩ := ih
    obtain ⟨u, hreach', hsame', hu⟩ := hsettled.promptTick (hp.nth k)
    rw [promptMoves_succ]
    rcases hu with ⟨hx, hu⟩ | ⟨hx, hu⟩
    · exact ⟨u, k, x + 1, hreach.append hreach', hsame.trans hsame', hu, hx, by omega⟩
    · refine ⟨u, k + 1, 0, hreach.append hreach', hsame.trans hsame', hu, (hp.nth (k + 1)).len_pos, ?_⟩
      rw [Pulse.elapsed, ← hn, ← hx, Nat.add_zero, Nat.add_assoc]

/-- The ticks to a place in an interval lead to that place. -/
theorem Pulse.Settled.promptMoves_to {p : Pulse} {s : State} (h : p.Settled 0 s) (hp : p.Ok) {k x : Nat}
    (hx : x < (p.nth k).len) :
    ∃ t : State, Reaches (Machine.promptMoves (p.elapsed k + x)) s t ∧ s.SameController t ∧ (p.nth k).At x t := by
  obtain ⟨t, j, y, hreach, hsame, hsettled, hy, hn⟩ := h.promptMoves hp (p.elapsed k + x)
  obtain ⟨rfl, rfl⟩ := Pulse.elapsed_inj hy hx hn
  exact ⟨t, hreach, hsame, hsettled.1⟩

/-! ## The tail -/

/-- The interval a frame's terminator event begins, and every later one a full pulse begins (R128). -/
def tailPulse (s : State) : Pulse :=
  ⟨s.cfg, s.es, s.buf, s.cfg.tFull, s.cfg.inert, s.pin, s.trace, s.segTicks, s.segNs⟩

theorem tailPulse_ok (s : State) : (tailPulse s).Ok where
  len_pos := (Nat.zero_le _).trans_lt s.cfg.tHalf_lt_tFull
  len_lt := s.cfg.tFull_lt_inert
  half_pos := (Nat.zero_le _).trans_lt s.cfg.tFull_lt_inert
  half_lt_or := .inr rfl

/-- Settles O26: fewer than `T_FULL` ticks stay in the interval; at `T_FULL` the next one has begun, on the empty buffer. -/
theorem tailEndsInExtraEvent : Obligations.TailEndsInExtraEvent := by
  intro s hbuf hcnt hcmpa hcmpb htien htctl hifa hifb hgie hinh d hd
  have hok := tailPulse_ok s
  have hbegin : (tailPulse s).At 0 s :=
    ⟨rfl, rfl, rfl, htien, htctl, hgie, hinh, hcmpa, hcmpb, .inl ⟨hok.len_pos, hcnt, hifa⟩,
      .inl ⟨Nat.zero_le _, by rw [hifb, decide_eq_false hok.half_pos.ne], rfl, rfl, rfl, rfl⟩⟩
  have hsettled := hbegin.settled_begin hok
  have hnohalf : ¬ (tailPulse s).half < (tailPulse s).len := hok.len_lt.le.not_gt
  rcases Nat.lt_or_eq_of_le hd with hlt | rfl
  · obtain ⟨t, hreach, -, hat⟩ := hsettled.promptMoves_to hok (k := 0) (x := d) hlt
    rw [Pulse.elapsed, Nat.zero_add] at hreach
    have hrun := run_of_reaches hreach
    rw [promptMoves_length] at hrun
    refine ⟨t, hrun, hat.buf.trans hbuf, fun _ => ?_, fun heq => absurd heq hlt.ne⟩
    obtain ⟨hcnt', -⟩ := hat.counts_of_lt hlt
    obtain ⟨-, -, hpin, htrace, hticks, -⟩ := hat.beforeHalf_of_lt (hlt.trans hok.len_lt)
    exact ⟨hpin, hcnt', hticks, htrace, hat.cmpa⟩
  · obtain ⟨t, hreach, -, hat⟩ := hsettled.promptMoves_to hok (k := 1) (x := 0) hok.next.len_pos
    rw [Pulse.elapsed, Pulse.elapsed, Nat.zero_add, Nat.add_zero] at hreach
    have hrun := run_of_reaches hreach
    rw [promptMoves_length] at hrun
    have hbit : ¬ s.buf.getLsbD 0 = true := by rw [hbuf]; decide
    have hclosed : ((tailPulse s).nth 1).closed = ⟨s.pin, s.segTicks + s.cfg.tFull, s.segNs⟩ :: s.trace := by
      show (tailPulse s).segments ++ s.trace = _
      rw [Pulse.segments, if_neg hnohalf]
      rfl
    have hlevel : ((tailPulse s).nth 1).level = !s.pin := if_neg hnohalf
    have hempty : ((tailPulse s).nth 1).word = 0#24 := by
      show s.buf >>> 1 = 0#24
      rw [hbuf]
      rfl
    refine ⟨t, hrun, hat.buf.trans hempty, fun hlt => absurd hlt (Nat.lt_irrefl _), fun _ => ?_⟩
    obtain ⟨hcnt', -⟩ := hat.counts_of_lt hok.next.len_pos
    obtain ⟨-, -, hpin, htrace, -⟩ := hat.beforeHalf_of_lt hok.next.half_pos
    exact ⟨hpin.trans hlevel, hcnt', hat.cmpa.trans (if_neg hbit), hat.cmpb.trans (if_neg hbit), htrace.trans hclosed⟩

end Sys2Proof.Machine
end

section
/-! SUPPORT. The ideal frame (spec/41_pulse_engine.md R127 to R133): segments and the bits they read back to, the pulses of an
armed frame, and every execution under `ISR_PROMPT` in which MAIN waits for it. -/

namespace Sys2Proof.Machine

open Sys2Proof

/-! ## Segments and bits -/

/-- The level after the segments of these bits: a 1 inverts it, a 0 twice (R95). -/
def levelAfter (l : Bool) : List Bool → Bool
  | [] => l
  | true :: bs => levelAfter (!l) bs
  | false :: bs => levelAfter l bs

theorem bitSegments_append (full half : Duration) (l : Bool) (bs bs' : List Bool) :
    bitSegments full half l (bs ++ bs') = bitSegments full half l bs ++ bitSegments full half (levelAfter l bs) bs' := by
  induction bs generalizing l with
  | nil => rfl
  | cons b bs ih =>
    cases b
    · rw [List.cons_append, bitSegments, bitSegments, levelAfter, ih]
      rfl
    · rw [List.cons_append, bitSegments, bitSegments, levelAfter, ih]
      rfl

theorem levelAfter_append (l : Bool) (bs bs' : List Bool) :
    levelAfter l (bs ++ bs') = levelAfter (levelAfter l bs) bs' := by
  induction bs generalizing l with
  | nil => rfl
  | cons b bs ih => cases b <;> exact ih _

theorem invertTimes_succ (n : Nat) (l : Bool) : invertTimes (n + 1) l = !(invertTimes n l) := by
  rcases Nat.mod_two_eq_zero_or_one n with h | h <;> simp [invertTimes, Nat.add_mod, h]

theorem invertTimes_not (n : Nat) (l : Bool) : invertTimes n (!l) = !(invertTimes n l) := by
  rcases Nat.mod_two_eq_zero_or_one n with h | h <;> simp [invertTimes, h]

/-- Each bit inverts the level once, and a 0 once more (R128). -/
theorem levelAfter_eq_invertTimes (l : Bool) (bs : List Bool) :
    levelAfter l bs = invertTimes (bs.length + zeros bs) l := by
  induction bs generalizing l with
  | nil => rfl
  | cons b bs ih =>
    cases b
    · have hz : zeros (false :: bs) = zeros bs + 1 := List.count_cons_self
      rw [levelAfter, ih, hz, List.length_cons, show bs.length + 1 + (zeros bs + 1) = bs.length + zeros bs + 1 + 1 by omega,
        invertTimes_succ, invertTimes_succ, Bool.not_not]
    · have hz : zeros (true :: bs) = zeros bs := List.count_cons_of_ne (by decide)
      rw [levelAfter, ih, hz, List.length_cons, show bs.length + 1 + zeros bs = bs.length + zeros bs + 1 by omega,
        invertTimes_succ, invertTimes_not]

theorem readSegments_full (full half : Duration) (l : Bool) (gs : List Segment) :
    readSegments full half (full.segment l :: gs) = (readSegments full half gs).map (true :: ·) := by
  cases gs <;> simp [readSegments, Duration.segment]

theorem readSegments_half {full half : Duration} (hne : full ≠ half) (l l' : Bool) (gs : List Segment) :
    readSegments full half (half.segment l :: half.segment l' :: gs) =
      (readSegments full half gs).map (false :: ·) := by
  have hhalf : ¬(half.ticks = full.ticks ∧ half.ns = full.ns) := by
    rintro ⟨hticks, hns⟩
    cases full
    cases half
    cases hticks
    cases hns
    exact hne rfl
  simp [readSegments, Duration.segment, hhalf]

/-- Settles O27: by the bits, a segment of the full width at a time or a pair of the half width. -/
theorem segmentsReadBackToBits : Obligations.SegmentsReadBackToBits := by
  intro full half l bs hne
  induction bs generalizing l with
  | nil => rfl
  | cons b bs ih =>
    cases b
    · rw [bitSegments, readSegments_half hne, ih]
      rfl
    · rw [bitSegments, readSegments_full, ih]
      rfl

/-! ## The bits of a word in on-wire order -/

/-- The bits of a buffer in the order the engine consumes them (R95). -/
def bitsOf (w : TxWord) (k : Nat) : List Bool := (List.range k).map w.getLsbD

theorem bitsOf_succ (w : TxWord) (k : Nat) : bitsOf w (k + 1) = bitsOf w k ++ [w.getLsbD k] := by
  rw [bitsOf, List.range_succ, List.map_append, List.map_singleton, ← bitsOf]

/-- The word holds the command in on-wire order (R112 (c)). -/
theorem bitsOf_encodeWord (rid : RemoteId) (key : Byte) : bitsOf (encodeWord rid key) 23 = wireBits rid key := by
  refine List.map_congr_left fun i hi => ?_
  have hi := List.mem_range.mp hi
  rw [wireBit]
  split
  · rw [getLsbD_encodeWord_rid (by omega)]
    congr 1
    omega
  · obtain ⟨j, rfl⟩ : ∃ j, i = 16 + j := ⟨i - 16, by omega⟩
    rw [getLsbD_encodeWord_key (by omega)]
    congr 1
    omega

theorem wireBits_length (rid : RemoteId) (key : Byte) : (wireBits rid key).length = 23 := by
  rw [wireBits, List.length_map, List.length_range]

/-- The bits as R133 names them. -/
theorem wireBits_eq (rid : RemoteId) (key : Byte) :
    wireBits rid key =
      (List.range 16).map (fun i => rid.getLsbD (15 - i)) ++ (List.range 7).map (fun j => key.getLsbD (6 - j)) := rfl

/-- The level of the tail is the one after the start segment and the 23 bits (R128). -/
theorem tailLevel_eq (c : Config) (rid : RemoteId) (key : Byte) :
    levelAfter (!c.pinInit) (wireBits rid key) = tailLevel c rid key := by
  rw [levelAfter_eq_invertTimes, wireBits_length, invertTimes_not, ← invertTimes_succ, tailLevel]
  congr 1
  omega

theorem frameTicks_snoc (c : Config) (bs : List Bool) (b : Bool) :
    frameTicks c (bs ++ [b]) = frameTicks c bs + if b then c.tFull else 2 * c.tHalf := by
  cases b <;> simp [frameTicks, ones, zeros, List.count_append, Nat.add_mul, Nat.add_assoc, Nat.add_comm,
    Nat.add_left_comm]

/-! ## The pulses of a frame -/

/-- The start interval of a frame (R127): `T_START` ticks to the first primary event, and no secondary one. -/
def startPulse (a : State) (w : TxWord) : Pulse :=
  ⟨a.cfg, .running, w, a.cfg.tStart, a.cfg.inert, a.cfg.pinInit, a.trace, a.segTicks, a.segNs⟩

theorem startPulse_ok (a : State) (w : TxWord) : (startPulse a w).Ok where
  len_pos := a.cfg.tStart_pos
  len_lt := a.cfg.tStart_lt_inert
  half_pos := (Nat.zero_le _).trans_lt a.cfg.tFull_lt_inert
  half_lt_or := .inr rfl

/-- `ARM` begins the start interval (R123). -/
theorem startPulse_at_armBody {s : State} (hgie : s.gie = true) (hinh : s.inh = false) :
    (startPulse (armBody s) s.encw).At 0 (armBody s) := by
  obtain ⟨hifa, hifb⟩ := clearFlags_bits s.tifr
  have hok := startPulse_ok (armBody s) s.encw
  exact ⟨rfl, rfl, rfl, rfl, rfl, hgie, hinh, rfl, rfl, .inl ⟨hok.len_pos, rfl, hifa⟩,
    .inl ⟨Nat.zero_le _, by rw [decide_eq_false hok.half_pos.ne]; exact hifb, rfl, rfl, rfl, rfl⟩⟩

/-- A bit's interval closes the segments of the bit, and the next one begins at the level the bit leaves. -/
theorem Pulse.segments_of_bit {p : Pulse} {b : Bool} (hlen : p.len = if b then p.cfg.tFull else 2 * p.cfg.tHalf)
    (hhalf : p.half = if b then p.cfg.inert else p.cfg.tHalf) (hticks : p.ticks = 0) (hns : p.ns = 0) :
    p.segments = (bitSegments (hwFull p.cfg) (hwHalf p.cfg) p.level [b]).reverse ∧
      p.next.level = levelAfter p.level [b] := by
  have hpos := p.cfg.tHalf_pos
  have hfull : p.cfg.tFull < p.cfg.inert := p.cfg.tFull_lt_inert
  rw [Pulse.next, Pulse.segments, hlen, hhalf, hticks, hns]
  cases b
  · have hlt : p.cfg.tHalf < 2 * p.cfg.tHalf := by omega
    have hsub : 2 * p.cfg.tHalf - p.cfg.tHalf = p.cfg.tHalf := by omega
    simp [hlt, hsub, bitSegments, Duration.segment, hwHalf, levelAfter]
  · have hnot : ¬ p.cfg.inert < p.cfg.tFull := by omega
    simp [hnot, bitSegments, Duration.segment, hwFull, levelAfter]

section

variable (a : State) (w : TxWord)

/-- The interval after `k + 1` primary events is that of bit `k` of the word (R124). -/
theorem startPulse_nth_compare (k : Nat) :
    ((startPulse a w).nth (k + 1)).len = (if w.getLsbD k then a.cfg.tFull else 2 * a.cfg.tHalf) ∧
      ((startPulse a w).nth (k + 1)).half = (if w.getLsbD k then a.cfg.inert else a.cfg.tHalf) := by
  have hbit : ((startPulse a w).nth k).word.getLsbD 0 = w.getLsbD k := by
    rw [Pulse.nth_word, BitVec.getLsbD_ushiftRight, Nat.add_zero]
    rfl
  have hcfg : ((startPulse a w).nth k).cfg = a.cfg := Pulse.nth_cfg _ k
  rw [Pulse.nth, Pulse.next]
  dsimp only
  rw [hbit, hcfg]
  exact ⟨rfl, rfl⟩

/-- The segment the start interval closes. -/
def startSegment : Segment := ⟨a.cfg.pinInit, a.segTicks + a.cfg.tStart, a.segNs⟩

/-- The pin when bit `k`'s interval begins: the start segment and the segments of the bits before it are closed. -/
theorem startPulse_nth_pin (k : Nat) :
    ((startPulse a w).nth (k + 1)).level = levelAfter (!a.cfg.pinInit) (bitsOf w k) ∧
      ((startPulse a w).nth (k + 1)).closed =
        (bitSegments (hwFull a.cfg) (hwHalf a.cfg) (!a.cfg.pinInit) (bitsOf w k)).reverse ++
          startSegment a :: a.trace := by
  induction k with
  | zero =>
    have hnot : ¬ (startPulse a w).half < (startPulse a w).len := (startPulse_ok a w).len_lt.le.not_gt
    refine ⟨if_neg hnot, ?_⟩
    show (startPulse a w).segments ++ a.trace = _
    rw [Pulse.segments, if_neg hnot]
    rfl
  | succ k ih =>
    obtain ⟨hlevel, hclosed⟩ := ih
    obtain ⟨hlen, hhalf⟩ := startPulse_nth_compare a w k
    have hcfg : ((startPulse a w).nth (k + 1)).cfg = a.cfg := Pulse.nth_cfg _ (k + 1)
    rw [← hcfg] at hlen hhalf
    obtain ⟨hsegments, hnext⟩ := Pulse.segments_of_bit hlen hhalf rfl rfl
    rw [hcfg] at hsegments
    constructor
    · rw [Pulse.nth, hnext, hlevel, bitsOf_succ, levelAfter_append]
    · show ((startPulse a w).nth (k + 1)).segments ++ ((startPulse a w).nth (k + 1)).closed = _
      rw [hsegments, hclosed, hlevel, bitsOf_succ, bitSegments_append, List.reverse_append, List.append_assoc]

/-- The ticks to the begin of bit `k`'s interval (R132). -/
theorem startPulse_elapsed (k : Nat) : (startPulse a w).elapsed (k + 1) = frameTicks a.cfg (bitsOf w k) := by
  induction k with
  | zero =>
    show 0 + a.cfg.tStart = _
    simp [frameTicks, bitsOf, ones, zeros]
  | succ k ih => rw [Pulse.elapsed, ih, (startPulse_nth_compare a w k).1, bitsOf_succ, frameTicks_snoc]

end

/-- After the 24th primary event the frame has ended (R128). -/
theorem endsFrame_of_at {a t : State} {rid : RemoteId} {key : Byte}
    (h : ((startPulse a (encodeWord rid key)).nth 24).At 0 t) : State.endsFrame a t rid key := by
  have hok := (startPulse_ok a (encodeWord rid key)).nth 24
  have hcfg : t.cfg = a.cfg := h.cfg.trans (Pulse.nth_cfg _ 24)
  obtain ⟨hlen, hhalf⟩ := startPulse_nth_compare a (encodeWord rid key) 23
  rw [getLsbD_encodeWord_terminator] at hlen hhalf
  obtain ⟨hlevel, hclosed⟩ := startPulse_nth_pin a (encodeWord rid key) 23
  rw [bitsOf_encodeWord, tailLevel_eq] at hlevel
  rw [bitsOf_encodeWord] at hclosed
  obtain ⟨hcnt, hifa⟩ := h.counts_of_lt hok.len_pos
  obtain ⟨-, hifb, hpin, htrace, hticks, hns⟩ := h.beforeHalf_of_lt hok.half_pos
  refine ⟨?buf, hcnt, h.cmpa.trans hlen, h.cmpb.trans hhalf, hifa, ?ifb, hpin.trans hlevel, ?trace,
    h.es.trans (Pulse.nth_es _ 24), h.tien, ?tctl, h.gie, h.inh⟩
  case buf => rw [h.buf, Pulse.nth_word, BitVec.ushiftRight_eq_zero (Nat.le_refl 24)]
  case ifb => rw [hifb, decide_eq_false hok.half_pos.ne]
  case tctl => rw [h.tctl, hcfg]
  case trace =>
    rw [State.pinTrace, State.present, htrace, hclosed, hpin, hlevel, hticks, hns]
    simp [startSegment, Pulse.nth, Pulse.next]

/-- The pin trace of such a state reads back (R133). -/
theorem readsBack_of_at {a t : State} {rid : RemoteId} {key : Byte}
    (h : ((startPulse a (encodeWord rid key)).nth 24).At 0 t) : State.readsBack a t rid key := by
  have hok := (startPulse_ok a (encodeWord rid key)).nth 24
  obtain ⟨-, hclosed⟩ := startPulse_nth_pin a (encodeWord rid key) 23
  rw [bitsOf_encodeWord] at hclosed
  obtain ⟨-, -, -, htrace, -⟩ := h.beforeHalf_of_lt hok.half_pos
  have hne : hwFull a.cfg ≠ hwHalf a.cfg := fun heq =>
    a.cfg.tHalf_lt_tFull.ne' (congrArg Duration.ticks heq)
  refine ⟨_, startSegment a, htrace.trans hclosed, rfl, ?_⟩
  rw [segmentsReadBackToBits _ _ _ _ hne, wireBits_eq]

end Sys2Proof.Machine
end

section
/-! SUPPORT. The ideal frame in every execution under `ISR_PROMPT` (R236): MAIN waits in `POLL` and writes no register of the
engine, so the pulses follow each other as the ticks do. -/

namespace Sys2Proof.Machine

open Sys2Proof

/-! ## MAIN waits for the frame -/

/-- The pin and its trace are as before. -/
structure State.SamePin (s t : State) : Prop where
  pin : t.pin = s.pin
  trace : t.trace = s.trace
  segTicks : t.segTicks = s.segTicks
  segNs : t.segNs = s.segNs

/-- What MAIN may run between an `ARM` and the end of its `POLL` (R152, R153). -/
def Task.quiet : Task → Bool
  | .prim .repInc => true
  | .prim (.phase _) => true
  | .op .xportService => true
  | .op (.qWrite _ _) => true
  | .op (.qRead _) => true
  | _ => false

/-- MAIN holds the timer and comes to `POLL` by such statements. -/
structure State.Waits (s : State) (idle : Bool) (k : List Task) : Prop where
  own : s.own = true
  todo : ∃ ts : List Task, s.todo = ts ++ .op (.poll idle) :: k ∧ ∀ x ∈ ts, x.quiet = true

theorem State.waiting.waits {s : State} (h : s.waiting) : ∃ (idle : Bool) (k : List Task), s.Waits idle k := by
  obtain ⟨hown, idle, k, htodo⟩ := h
  exact ⟨idle, k, hown, [.prim .repInc, .prim (.phase .wait)], htodo, by decide⟩

theorem State.Waits.of_sameController {s t : State} {idle : Bool} {k : List Task} (h : s.Waits idle k)
    (hsame : s.SameController t) : t.Waits idle k := by
  obtain ⟨hown, ts, htodo, hquiet⟩ := h
  exact ⟨hsame.own.trans hown, ts, hsame.todo.trans htodo, hquiet⟩

/-- Such a statement writes no register of the engine and not the pin, and lays out only such statements. -/
theorem runTask_quiet {x : Task} {s t : State} (hx : x.quiet = true) (h : runTask x s = .next t) :
    s.SameEngine t ∧ s.SamePin t ∧ ∃ ts : List Task, t.todo = ts ++ s.todo ∧ ∀ y ∈ ts, y.quiet = true := by
  cases x with
  | prim p =>
    cases h
    cases p with
    | repInc => exact ⟨by constructor <;> rfl, by constructor <;> rfl, [], rfl, by simp⟩
    | phase q => exact ⟨by constructor <;> rfl, by constructor <;> rfl, [], rfl, by simp⟩
    | _ => cases hx
  | op i =>
    cases i with
    | xportService =>
      refine ⟨exec_sameEngine (i := .xportService) rfl h, ?_⟩
      cases h
      refine ⟨by constructor <;> rfl, _, rfl, fun y hy => ?_⟩
      obtain ⟨a, -, rfl⟩ := List.mem_map.mp hy
      cases a <;> rfl
    | qWrite q r =>
      refine ⟨exec_sameEngine (i := .qWrite q r) rfl h, ?_⟩
      cases h
      exact ⟨by constructor <;> rfl, [], rfl, by simp⟩
    | qRead q =>
      refine ⟨exec_sameEngine (i := .qRead q) rfl h, ?_⟩
      cases h
      exact ⟨by constructor <;> rfl, [], rfl, by simp⟩
    | _ => cases hx

/-- While the buffer is not empty a statement of MAIN writes no register of the engine and not the pin, and MAIN waits on. -/
theorem State.Waits.statement {x : Task} {s t : State} {idle : Bool} {k k' : List Task} (hwaits : s.Waits idle k)
    (hbuf : s.buf ≠ 0#24) (htodo : s.todo = x :: k') (h : runTask x { s with todo := k' } = .next t) :
    s.SameEngine t ∧ s.SamePin t ∧ t.Waits idle k := by
  obtain ⟨hown, ts, hts, hquiet⟩ := hwaits
  cases ts with
  | nil =>
    cases htodo.symm.trans hts
    cases (exec_poll_of_not_done (s := { s with todo := k }) hbuf idle).symm.trans h
    refine ⟨.of_todo (.push _ _), by constructor <;> rfl, hown, if idle then [.op .xportService] else [], ?_, ?_⟩
    · cases idle <;> rfl
    · cases idle <;> decide
  | cons y ts =>
    cases htodo.symm.trans hts
    obtain ⟨hsame, hpin, ts', hts', hquiet'⟩ := runTask_quiet (hquiet x List.mem_cons_self) h
    refine ⟨hsame.of_todo, ⟨hpin.pin, hpin.trace, hpin.segTicks, hpin.segNs⟩, hsame.own.trans hown, ts' ++ ts, ?_, ?_⟩
    · rw [hts', List.append_assoc]
      rfl
    · intro y hy
      rcases List.mem_append.mp hy with hy | hy
      · exact hquiet' y hy
      · exact hquiet y (List.mem_cons_of_mem x hy)

/-- A place in an interval is a matter of the engine's registers and the pin. -/
theorem Pulse.At.of_same {p : Pulse} {x : Nat} {s t : State} (h : p.At x s) (hsame : s.SameEngine t)
    (hpin : s.SamePin t) : p.At x t := by
  have hifa : t.ifa = s.ifa := congrArg (·.getLsbD 0) hsame.tifr
  have hifb : t.ifb = s.ifb := congrArg (·.getLsbD 1) hsame.tifr
  refine ⟨hsame.cfg.trans h.cfg, hsame.es.trans h.es, hsame.buf.trans h.buf, hsame.tien.trans h.tien, ?_,
    hsame.gie.trans h.gie, hsame.inh.trans h.inh, hsame.cmpa.trans h.cmpa, hsame.cmpb.trans h.cmpb, ?_, ?_⟩
  · rw [hsame.tctl, hsame.cfg]
    exact h.tctl
  · rw [Pulse.counts, hsame.cnt, hifa]
    exact h.counts
  · rw [Pulse.beforeHalf, Pulse.afterHalf, hifb, hpin.pin, hpin.trace, hpin.segTicks, hpin.segNs]
    exact h.pin

/-! ## Executions under `ISR_PROMPT` -/

/-- One move while MAIN waits: a place in the interval, one tick farther for a tick; or, at its end, the begin of the
next. -/
theorem Pulse.At.moved {p : Pulse} {x : Nat} {s t : State} {m : Move} {idle : Bool} {k : List Task} (h : p.At x s)
    (hp : p.Ok) (hwaits : s.Waits idle k) (hbuf : s.buf ≠ 0#24)
    (hprompt : m = .agent .tmr → s.irqEnabled = false) (hmoved : Moved s m t) :
    t.Waits idle k ∧
      (p.At (x + if m == .agent .tmr then 1 else 0) t ∨ (m = .agent .irq ∧ x = p.len ∧ p.next.At 0 t)) := by
  cases hmoved with
  | rest hnil =>
    obtain ⟨ts, hts, -⟩ := hwaits.todo
    simp [hnil] at hts
  | statement htodo hx =>
    obtain ⟨hsame, hpin, hwaits'⟩ := hwaits.statement hbuf htodo hx
    exact ⟨hwaits', .inl (h.of_same hsame hpin)⟩
  | interrupt henabled =>
    refine ⟨hwaits.of_sameController (serveIrq_sameController s), ?_⟩
    rcases h.counts with ⟨hlt, -⟩ | ⟨rfl, -⟩
    · obtain ⟨u, hu, -, hat, -⟩ := h.secondary hlt
      cases (exec_irqEntry_of_enabled henabled).symm.trans hu
      exact .inl hat
    · exact .inr ⟨rfl, rfl, (h.primary hp).2⟩
  | noInterrupt => exact ⟨hwaits, .inl h⟩
  | tick =>
    exact ⟨hwaits.of_sameController (countTick_sameController s), .inl (h.tick hp (hprompt rfl)).2.2⟩
  | noTick hstopped => cases hstopped.symm.trans (clocked_of_cfgTctl h.tctl)
  | owner hown => cases hown.symm.trans hwaits.own

theorem tickCount_succ (m : Nat → Move) (n : Nat) :
    tickCount m (n + 1) = tickCount m n + if m n == .agent .tmr then 1 else 0 := by
  rw [tickCount, List.range_succ, List.countP_append, List.countP_singleton, ← tickCount]

theorem tickCount_mono (m : Nat → Move) {i n : Nat} (h : i ≤ n) : tickCount m i ≤ tickCount m n := by
  induction n, h using Nat.le_induction with
  | base => exact Nat.le_refl _
  | succ n _ ih =>
    rw [tickCount_succ]
    exact ih.trans (Nat.le_add_right _ _)

section

variable {m : Nat → Move} {e : Nat → State} {n : Nat} {idle : Bool} {k : List Task}

/-- While the buffer is not empty the state is in the interval the ticks fall into. -/
theorem at_of_path {p : Pulse} (hp : p.Ok) (hat : p.At 0 (e 0)) (hwaits : (e 0).Waits idle k) (hpath : Path m e n)
    (hprompt : IsrPrompt m e n) (hbuf : ∀ i < n, (e i).buf ≠ 0#24) :
    (e n).Waits idle k ∧ ∃ j x : Nat, (p.nth j).At x (e n) ∧ p.elapsed j + x = tickCount m n := by
  induction n with
  | zero => exact ⟨hwaits, 0, 0, hat, rfl⟩
  | succ n ih =>
    obtain ⟨hwaits', j, x, hat', hticks⟩ :=
      ih (fun i hi => hpath i (by omega)) (fun i hi => hprompt i (by omega)) (fun i hi => hbuf i (by omega))
    obtain ⟨hwaits'', hnext⟩ := hat'.moved (hp.nth j) hwaits' (hbuf n n.lt_succ_self) (hprompt n n.lt_succ_self)
      (moved_of_moveStep (hpath n n.lt_succ_self))
    refine ⟨hwaits'', ?_⟩
    rw [tickCount_succ, ← hticks]
    rcases hnext with hsame | ⟨hirq, hx, hnext⟩
    · exact ⟨j, _, hsame, (Nat.add_assoc _ _ _).symm⟩
    · exact ⟨j + 1, 0, hnext, by rw [hirq, hx]; rfl⟩

/-- When the buffer first is empty, the 24th primary event has just been served, `t_24` ticks after the `ARM`. -/
theorem last_event_of_path {rid : RemoteId} {key : Byte} (hat : (startPulse (e 0) (encodeWord rid key)).At 0 (e 0))
    (hwaits : (e 0).Waits idle k) (hpath : Path m e n) (hprompt : IsrPrompt m e n)
    (hbuf : ∀ i < n, (e i).buf ≠ 0#24) (hempty : (e n).buf = 0#24) :
    ((startPulse (e 0) (encodeWord rid key)).nth 24).At 0 (e n) ∧
      tickCount m n = frameTicks (e 0).cfg (wireBits rid key) := by
  have hp := startPulse_ok (e 0) (encodeWord rid key)
  have hword {j x : Nat} {s : State} (h : ((startPulse (e 0) (encodeWord rid key)).nth j).At x s) :
      s.buf = encodeWord rid key >>> j := h.buf.trans (Pulse.nth_word _ j)
  cases n with
  | zero =>
    have hzero : encodeWord rid key >>> 0 = 0#24 := (hword (j := 0) hat).symm.trans hempty
    exact absurd hzero (txWord_ushiftRight_ne_zero (Nat.zero_le 23) rid _)
  | succ n =>
    obtain ⟨hwaits', j, x, hat', hticks⟩ := at_of_path (n := n) hp hat hwaits (fun i hi => hpath i (by omega))
      (fun i hi => hprompt i (by omega)) (fun i hi => hbuf i (by omega))
    have hbuf' := hbuf n n.lt_succ_self
    obtain ⟨-, hsame | ⟨hirq, rfl, hnext⟩⟩ := hat'.moved (hp.nth j) hwaits' hbuf' (hprompt n n.lt_succ_self)
      (moved_of_moveStep (hpath n n.lt_succ_self))
    · exact absurd ((hword hat').trans ((hword hsame).symm.trans hempty)) hbuf'
    · have hj : j = 23 := by
        have hlt : j < 24 := by
          by_contra hge
          exact hbuf' ((hword hat').trans (BitVec.ushiftRight_eq_zero (by omega)))
        have hge : ¬ j + 1 ≤ 23 := fun hle =>
          txWord_ushiftRight_ne_zero hle rid _ ((hword (j := j + 1) hnext).symm.trans hempty)
        omega
      subst hj
      refine ⟨hnext, ?_⟩
      rw [tickCount_succ, ← hticks, hirq, ← bitsOf_encodeWord, ← startPulse_elapsed]
      rfl

end

/-! ## The statements -/

/-- What `ARM` answers, as the begin of the frame of its word. -/
theorem startPulse_of_arm {s a : State} {rid : RemoteId} {key : Byte} (hword : s.encw = encodeWord rid key)
    (hgie : s.gie = true) (hinh : s.inh = false) (harm : exec .arm s = .next a) :
    a.cfg = s.cfg ∧ (startPulse a (encodeWord rid key)).At 0 a := by
  cases (exec_arm s).symm.trans harm
  exact ⟨rfl, hword ▸ startPulse_at_armBody hgie hinh⟩

/-- `t_24` prompt ticks with no step of MAIN end a frame (R132). -/
theorem promptMoves_last_event {a : State} {rid : RemoteId} {key : Byte}
    (hat : (startPulse a (encodeWord rid key)).At 0 a) :
    ∃ t : State, Reaches (promptMoves (frameTicks a.cfg (wireBits rid key))) a t ∧ a.SameController t ∧
      ((startPulse a (encodeWord rid key)).nth 24).At 0 t := by
  have hp := startPulse_ok a (encodeWord rid key)
  obtain ⟨t, hreach, hsame, hend⟩ := (hat.settled_begin hp).promptMoves_to hp (hp.nth 24).len_pos
  rw [startPulse_elapsed, bitsOf_encodeWord, Nat.add_zero] at hreach
  exact ⟨t, hreach, hsame, hend⟩

/-- Settles O24: the 24th primary event, in any such execution and after the prompt ticks. -/
theorem idealFrameOnPin : Obligations.IdealFrameOnPin := by
  intro s a rid key hword hgie hinh harm
  obtain ⟨hcfg, hat⟩ := startPulse_of_arm hword hgie hinh harm
  rw [← hcfg]
  constructor
  · rintro hwaiting m e n rfl hpath hprompt hbuf hempty
    obtain ⟨idle, k, hwaits⟩ := hwaiting.waits
    obtain ⟨hend, hticks⟩ := last_event_of_path hat hwaits hpath hprompt hbuf hempty
    exact ⟨hticks, endsFrame_of_at hend⟩
  · obtain ⟨t, hreach, hsame, hend⟩ := promptMoves_last_event hat
    have hrun := run_of_reaches hreach
    rw [promptMoves_length] at hrun
    exact ⟨t, hrun, endsFrame_of_at hend, hsame.agenda, hsame.todo⟩

/-- Settles O25: the first empty buffer comes with `t_24` ticks, and fewer prompt ticks end in an earlier interval. -/
theorem bufferHoldsUntilLastEvent : Obligations.BufferHoldsUntilLastEvent := by
  intro s a rid key hword hgie hinh harm
  obtain ⟨hcfg, hat⟩ := startPulse_of_arm hword hgie hinh harm
  rw [← hcfg]
  constructor
  · rintro hwaiting m e n rfl hpath hprompt hlt hempty
    obtain ⟨idle, k, hwaits⟩ := hwaiting.waits
    have hexists : ∃ i, (e i).buf = 0#24 := ⟨n, hempty⟩
    have hle : Nat.find hexists ≤ n := Nat.find_le hempty
    obtain ⟨-, hticks⟩ := last_event_of_path hat hwaits (fun i hi => hpath i (by omega))
      (fun i hi => hprompt i (by omega)) (fun i hi => Nat.find_min hexists hi) (Nat.find_spec hexists)
    have hmono := tickCount_mono m hle
    omega
  · intro n hn
    have hp := startPulse_ok a (encodeWord rid key)
    obtain ⟨t, j, x, hreach, -, hsettled, -, hticks⟩ := (hat.settled_begin hp).promptMoves hp n
    have hrun := run_of_reaches hreach
    rw [promptMoves_length] at hrun
    refine ⟨t, hrun, ?_⟩
    have hj : j ≤ 23 := by
      by_contra hge
      have hmono := (startPulse a (encodeWord rid key)).elapsed_mono (show 24 ≤ j by omega)
      rw [startPulse_elapsed, bitsOf_encodeWord] at hmono
      omega
    rw [hsettled.1.buf, Pulse.nth_word]
    exact txWord_ushiftRight_ne_zero hj rid _

/-- Settles O28: the trace at the 24th primary event reads back. -/
theorem frameReadsBackToCommand : Obligations.FrameReadsBackToCommand := by
  intro s a rid key hword hgie hinh harm
  obtain ⟨-, hat⟩ := startPulse_of_arm hword hgie hinh harm
  constructor
  · rintro hwaiting m e n rfl hpath hprompt hbuf hempty
    obtain ⟨idle, k, hwaits⟩ := hwaiting.waits
    exact readsBack_of_at (last_event_of_path hat hwaits hpath hprompt hbuf hempty).1
  · obtain ⟨t, hreach, -, hend⟩ := promptMoves_last_event hat
    have hrun := run_of_reaches hreach
    rw [promptMoves_length] at hrun
    obtain ⟨hempty, -⟩ := endsFrame_of_at hend
    exact ⟨t, _, hrun, hempty, readsBack_of_at hend⟩

end Sys2Proof.Machine
end

section
/-! SUPPORT. The pin trace as a list that every write of the pin and every delay extends (R13), and the legacy path (R160,
R193), which MAIN walks alone. -/

namespace Sys2Proof.Machine

open Sys2Proof

/-! ## The pin trace, segment by segment -/

/-- The pin trace, newest segment first: the present one, then the closed ones. -/
def State.pinStack (s : State) : List Segment := s.present :: s.trace

/-- A segment put on the trace: it extends the newest one where the levels are equal (R13). -/
def pushSegment (gs : List Segment) (g : Segment) : List Segment :=
  match gs with
  | [] => [g]
  | h :: hs => if h.level = g.level then ⟨h.level, h.ticks + g.ticks, h.ns + g.ns⟩ :: hs else g :: h :: hs

theorem pushSegment_of_eq {g h : Segment} (heq : h.level = g.level) (hs : List Segment) :
    pushSegment (h :: hs) g = ⟨h.level, h.ticks + g.ticks, h.ns + g.ns⟩ :: hs := if_pos heq

theorem pushSegment_of_ne {g h : Segment} (hne : h.level ≠ g.level) (hs : List Segment) :
    pushSegment (h :: hs) g = g :: h :: hs := if_neg hne

theorem joinSegments_cons (g : Segment) (gs : List Segment) :
    joinSegments (g :: gs) =
      match joinSegments gs with
      | [] => [g]
      | h :: hs => if g.level = h.level then ⟨g.level, g.ticks + h.ticks, g.ns + h.ns⟩ :: hs else g :: h :: hs := rfl

/-- Joining keeps the level of the first segment. -/
theorem joinSegments_cons_level (g : Segment) (gs : List Segment) :
    ∃ (h : Segment) (hs : List Segment), joinSegments (g :: gs) = h :: hs ∧ h.level = g.level := by
  rw [joinSegments_cons]
  cases joinSegments gs with
  | nil => exact ⟨g, [], rfl, rfl⟩
  | cons h hs =>
    by_cases heq : g.level = h.level
    · exact ⟨_, hs, if_pos heq, rfl⟩
    · exact ⟨g, h :: hs, if_neg heq, rfl⟩

theorem joinSegments_of_ne {g h : Segment} (hne : g.level ≠ h.level) (gs : List Segment) :
    joinSegments (g :: h :: gs) = g :: joinSegments (h :: gs) := by
  obtain ⟨k, ks, e, hlevel⟩ := joinSegments_cons_level h gs
  rw [joinSegments_cons, e]
  exact if_neg (hlevel ▸ hne)

/-- Two first segments at one level may be joined before the rest. -/
theorem joinSegments_of_eq {g h : Segment} (heq : g.level = h.level) (gs : List Segment) :
    joinSegments (g :: h :: gs) = joinSegments (⟨g.level, g.ticks + h.ticks, g.ns + h.ns⟩ :: gs) := by
  rw [joinSegments_cons, joinSegments_cons h, joinSegments_cons ⟨_, _, _⟩]
  cases joinSegments gs with
  | nil => simp [heq]
  | cons k ks => by_cases hk : h.level = k.level <;> simp [heq, hk, Nat.add_assoc]

/-- Segments put on a trace one by one are the join of them all (R13, R156). -/
theorem foldl_pushSegment (g : Segment) (gs tr : List Segment) :
    gs.foldl pushSegment (g :: tr) = (joinSegments (g :: gs)).reverse ++ tr := by
  induction gs generalizing g tr with
  | nil => rfl
  | cons h gs ih =>
    rw [List.foldl_cons]
    by_cases heq : g.level = h.level
    · rw [pushSegment_of_eq heq, ih, joinSegments_of_eq heq]
    · rw [pushSegment_of_ne heq, ih, joinSegments_of_ne heq, List.reverse_cons, List.append_assoc]
      rfl

/-- The pin trace after segments were put on it. -/
theorem pinTrace_of_pinStack {s t : State} {gs : List Segment} (h : t.pinStack = gs.foldl pushSegment s.pinStack) :
    t.pinTrace = s.trace.reverse ++ joinSegments (s.present :: gs) := by
  have hreverse : t.pinTrace = t.pinStack.reverse := (List.reverse_cons ..).symm
  rw [hreverse, h, State.pinStack, foldl_pushSegment, List.reverse_append, List.reverse_reverse]

/-- A write of the pin puts a segment of no length on the trace. -/
theorem pinStack_drivePin (l : Bool) (s : State) : (drivePin l s).pinStack = pushSegment s.pinStack ⟨l, 0, 0⟩ := by
  rcases drivePin_cases l s with ⟨rfl, e⟩ | ⟨hne, e⟩
  · rw [e]
    exact (pushSegment_of_eq (g := ⟨s.pin, 0, 0⟩) (h := s.present) rfl s.trace).symm
  · rw [e]
    exact (pushSegment_of_ne (g := ⟨l, 0, 0⟩) (h := s.present) (fun h => hne h.symm) s.trace).symm

/-- A write of the pin and then a delay put a segment of that length on it. -/
theorem pinStack_delayStep_drivePin (l : Bool) (ns : Nat) (s : State) :
    (delayStep ns (drivePin l s)).pinStack = pushSegment s.pinStack ⟨l, 0, ns⟩ := by
  rcases drivePin_cases l s with ⟨rfl, e⟩ | ⟨hne, e⟩
  · rw [e]
    exact (pushSegment_of_eq (g := ⟨s.pin, 0, ns⟩) (h := s.present) rfl s.trace).symm
  · rw [e, State.pinStack, State.pinStack, pushSegment_of_ne (fun h => hne h.symm)]
    simp [delayStep, State.present]

/-! ## Steps of MAIN alone -/

/-- MAIN alone takes `s` to `t`. -/
def ReachesByMain (s t : State) : Prop := ∃ n : Nat, Reaches (mainMoves n) s t

theorem ReachesByMain.refl (s : State) : ReachesByMain s s := ⟨0, rfl⟩

theorem ReachesByMain.trans {s t u : State} (h : ReachesByMain s t) (h' : ReachesByMain t u) : ReachesByMain s u := by
  obtain ⟨n, hn⟩ := h
  obtain ⟨n', hn'⟩ := h'
  refine ⟨n + n', ?_⟩
  rw [mainMoves, List.replicate_add]
  exact hn.append hn'

theorem moveStep_main {s : State} {x : Task} {k : List Task} (htodo : s.todo = x :: k) :
    moveStep (.agent .main) s = runTask x { s with todo := k } := by
  simp only [moveStep, mainStep, htodo]

/-- One step of MAIN, and then more. -/
theorem ReachesByMain.step {s t u : State} {x : Task} {k : List Task} (htodo : s.todo = x :: k)
    (h : runTask x { s with todo := k } = .next t) (hrest : ReachesByMain t u) : ReachesByMain s u := by
  obtain ⟨n, hn⟩ := hrest
  exact ⟨n + 1, t, (moveStep_main htodo).trans h, hn⟩

theorem run_of_reachesByMain {s t : State} (h : ReachesByMain s t) :
    ∃ n : Nat, run n (s.scheduled (mainMoves n)) = .next t ∧ t.agenda = s.agenda := by
  obtain ⟨n, hn⟩ := h
  have hrun := run_of_reaches hn
  rw [show (mainMoves n).length = n from List.length_replicate] at hrun
  exact ⟨n, hrun, hn.schedule.1⟩

/-! ## The pin written by MAIN -/

theorem State.SameEngine.trans {s t u : State} (h : s.SameEngine t) (h' : t.SameEngine u) : s.SameEngine u where
  cfg := h'.cfg.trans h.cfg
  buf := h'.buf.trans h.buf
  es := h'.es.trans h.es
  own := h'.own.trans h.own
  snap := h'.snap.trans h.snap
  cnt := h'.cnt.trans h.cnt
  tctl := h'.tctl.trans h.tctl
  tien := h'.tien.trans h.tien
  tifr := h'.tifr.trans h.tifr
  cmpa := h'.cmpa.trans h.cmpa
  cmpb := h'.cmpb.trans h.cmpb
  cmpc := h'.cmpc.trans h.cmpc
  gie := h'.gie.trans h.gie
  inh := h'.inh.trans h.inh

theorem State.SameEngine.timerRegs {s t : State} (h : s.SameEngine t) : t.timerRegs = s.timerRegs := by
  rw [State.timerRegs, State.timerRegs, h.tctl, h.tien, h.cmpa, h.cmpb, h.cmpc]

/-- The segments `gs` were put on the pin trace, and of all else only MAIN's continuation and `REP` may have changed. -/
structure State.Painted (s t : State) (gs : List Segment) : Prop where
  stack : t.pinStack = gs.foldl pushSegment s.pinStack
  engine : s.SameEngine t
  encw : t.encw = s.encw
  ph : t.ph = s.ph
  hwsel : t.hwsel = s.hwsel
  cur : t.cur = s.cur
  iq : t.iq = s.iq
  oq : t.oq = s.oq

theorem State.Painted.refl (s : State) : s.Painted s [] := ⟨rfl, .refl s, rfl, rfl, rfl, rfl, rfl, rfl⟩

theorem State.Painted.trans {s t u : State} {gs gs' : List Segment} (h : s.Painted t gs) (h' : t.Painted u gs') :
    s.Painted u (gs ++ gs') where
  stack := by rw [List.foldl_append, ← h.stack, h'.stack]
  engine := h.engine.trans h'.engine
  encw := h'.encw.trans h.encw
  ph := h'.ph.trans h.ph
  hwsel := h'.hwsel.trans h.hwsel
  cur := h'.cur.trans h.cur
  iq := h'.iq.trans h.iq
  oq := h'.oq.trans h.oq

theorem painted_todo_rep (s : State) (k : List Task) (r : BitVec 8) : s.Painted { s with todo := k, rep := r } [] :=
  ⟨rfl, by constructor <;> rfl, rfl, rfl, rfl, rfl, rfl, rfl⟩

theorem painted_drivePin (l : Bool) (s : State) : s.Painted (drivePin l s) [⟨l, 0, 0⟩] :=
  ⟨pinStack_drivePin l s, by constructor <;> rfl, rfl, rfl, rfl, rfl, rfl, rfl⟩

/-- A write of the pin and a delay, MAIN's next two statements. -/
theorem painted_by_drive_delay {s : State} {p : Prim} {l : Bool} {ns : Nat} {k : List Task}
    (htodo : s.todo = .prim p :: .prim (.delay ns) :: k)
    (hp : primStep p { s with todo := .prim (.delay ns) :: k } = drivePin l { s with todo := .prim (.delay ns) :: k }) :
    ∃ t : State, ReachesByMain s t ∧ s.Painted t [⟨l, 0, ns⟩] ∧ t.todo = k ∧ t.rep = s.rep ∧ t.pin = l ∧
      t.cfg = s.cfg := by
  refine ⟨delayStep ns (drivePin l { s with todo := k }), ?_, ?_, rfl, rfl, rfl, rfl⟩
  · have hdrive : runTask (.prim p) { s with todo := .prim (.delay ns) :: k } =
        .next (drivePin l { s with todo := .prim (.delay ns) :: k }) := congrArg Host.Outcome.next hp
    exact .step htodo hdrive (.step rfl rfl (.refl _))
  · exact ⟨pinStack_delayStep_drivePin l ns { s with todo := k }, by constructor <;> rfl, rfl, rfl, rfl, rfl, rfl, rfl⟩

/-- The statements of the bits of a legacy frame put the bits' segments on the pin (R160, R161). -/
theorem painted_by_bits (bs : List Bool) {s : State} {k : List Task}
    (htodo : s.todo = bs.flatMap (legacyBitTasks s.cfg) ++ k) :
    ∃ t : State, ReachesByMain s t ∧
      s.Painted t (bitSegments (legacyFull s.cfg) (legacyHalf s.cfg) (!s.pin) bs) ∧ t.todo = k ∧ t.rep = s.rep := by
  induction bs generalizing s with
  | nil => exact ⟨s, .refl s, .refl s, htodo, rfl⟩
  | cons b bs ih =>
    cases b
    · obtain ⟨t, hreach, hpaint, ht, hrep, hpin, hcfg⟩ := painted_by_drive_delay (l := !s.pin) htodo rfl
      obtain ⟨u, hreach', hpaint', hu, hrep', hpin', hcfg'⟩ := painted_by_drive_delay (l := !t.pin) ht rfl
      have hcfg'' := hcfg'.trans hcfg
      rw [← hcfg''] at hu
      obtain ⟨v, hreach'', hpaint'', hv, hrep''⟩ := ih hu
      refine ⟨v, hreach.trans (hreach'.trans hreach''), ?_, hv, hrep''.trans (hrep'.trans hrep)⟩
      have hall := hpaint.trans (hpaint'.trans hpaint'')
      rw [hpin', hpin, Bool.not_not, hcfg''] at hall
      rw [bitSegments, Bool.not_not]
      exact hall
    · obtain ⟨t, hreach, hpaint, ht, hrep, hpin, hcfg⟩ := painted_by_drive_delay (l := !s.pin) htodo rfl
      rw [← hcfg] at ht
      obtain ⟨u, hreach', hpaint', hu, hrep'⟩ := ih ht
      refine ⟨u, hreach.trans hreach', ?_, hu, hrep'.trans hrep⟩
      have hall := hpaint.trans hpaint'
      rwa [hpin, hcfg] at hall

/-- One legacy frame, from the loop's test back to it (R160). -/
theorem painted_by_legacy_frame {s : State} {rid : RemoteId} {key : Byte} {k : List Task}
    (htodo : s.todo = .prim (.legacyLoop rid key) :: k) (hrep : s.rep.toNat < s.cfg.nRepeatLegacy) :
    ∃ t : State, ReachesByMain s t ∧ s.Painted t (legacyFrameSegments s.cfg rid key) ∧ t.todo = s.todo ∧
      t.rep = s.rep + 1#8 := by
  have hlay : runTask (.prim (.legacyLoop rid key)) { s with todo := k } =
      .next (State.push { s with todo := k } (legacyFrameTasks s.cfg rid key ++ [.prim (.legacyLoop rid key)])) :=
    congrArg Host.Outcome.next (if_pos hrep)
  obtain ⟨t, hreach, hpaint, ht, hrept, hpin, hcfg⟩ := painted_by_drive_delay (l := s.cfg.pinInit)
    (s := State.push { s with todo := k } (legacyFrameTasks s.cfg rid key ++ [.prim (.legacyLoop rid key)])) rfl rfl
  have hbits : t.todo = (wireBits rid key).flatMap (legacyBitTasks t.cfg) ++ .prim .repInc :: s.todo := by
    rw [ht, hcfg, htodo]
    simp
  obtain ⟨u, hreach', hpaint', hu, hrepu⟩ := painted_by_bits _ hbits
  refine ⟨{ u with todo := s.todo, rep := u.rep + 1#8 }, .step htodo hlay (hreach.trans (hreach'.trans
    (.step hu rfl (.refl _)))), ?painted, rfl, ?rep⟩
  case painted =>
    have hall := (painted_todo_rep s _ s.rep).trans
      (hpaint.trans (hpaint'.trans (painted_todo_rep u s.todo (u.rep + 1#8))))
    rw [hpin, hcfg, List.append_nil] at hall
    exact hall
  case rep =>
    show u.rep + 1#8 = _
    rw [hrepu, hrept]
    rfl

/-- `n` legacy frames, from the loop's test back to it. -/
theorem painted_by_legacy_frames (n : Nat) {s : State} {rid : RemoteId} {key : Byte} {k : List Task}
    (htodo : s.todo = .prim (.legacyLoop rid key) :: k) (hrep : s.rep.toNat + n = s.cfg.nRepeatLegacy) :
    ∃ t : State, ReachesByMain s t ∧ s.Painted t (List.replicate n (legacyFrameSegments s.cfg rid key)).flatten ∧
      t.todo = s.todo ∧ t.rep.toNat = s.cfg.nRepeatLegacy := by
  induction n generalizing s with
  | zero => exact ⟨s, .refl s, .refl s, rfl, hrep⟩
  | succ n ih =>
    obtain ⟨t, hreach, hpaint, ht, hrept⟩ := painted_by_legacy_frame htodo (by omega)
    have hle := s.cfg.nRepeatLegacy_le
    have hcount : t.rep.toNat = s.rep.toNat + 1 := by
      rw [hrept, BitVec.toNat_add]
      exact Nat.mod_eq_of_lt (by simp; omega)
    have hcfg := hpaint.engine.cfg
    obtain ⟨u, hreach', hpaint', hu, hrepu⟩ := ih (ht.trans htodo) (by rw [hcfg]; omega)
    rw [hcfg] at hpaint' hrepu
    rw [List.replicate_succ, List.flatten_cons]
    exact ⟨u, hreach.trans hreach', hpaint.trans hpaint', hu.trans ht, hrepu⟩

/-- Settles O38: one frame of the loop. -/
theorem legacyFrameOnPin : Obligations.LegacyFrameOnPin := by
  intro s rid key k htodo hrep
  obtain ⟨t, hreach, hpaint, ht, hrept⟩ := painted_by_legacy_frame htodo hrep
  obtain ⟨n, hrun, -⟩ := run_of_reachesByMain hreach
  have hengine := hpaint.engine
  exact ⟨n, t, hrun, ht.trans htodo, hrept, pinTrace_of_pinStack hpaint.stack, hengine.timerRegs, hengine.cnt,
    hengine.tifr, hengine.buf, hpaint.encw, hengine.snap, hengine.es, hengine.own, hpaint.cur, hpaint.iq, hpaint.oq⟩

/-- `TRANSMIT_LEGACY` as MAIN's next statement: its frames and the rest level (R160). -/
theorem painted_by_transmitLegacy {s : State} {rid : RemoteId} {key : Byte} {k : List Task}
    (htodo : s.todo = .op (.transmitLegacy rid key) :: k) :
    ∃ t : State, ReachesByMain s t ∧ State.Painted { s with ph := .legacy } t (legacyCommandSegments s.cfg rid key) ∧
      t.todo = k ∧ t.rep.toNat = s.cfg.nRepeatLegacy ∧ t.pin = s.cfg.pinRest := by
  obtain ⟨t, hreach, hpaint, ht, hrep⟩ := painted_by_legacy_frames s.cfg.nRepeatLegacy
    (s := { s with ph := .legacy, rep := 0#8, todo := .prim (.legacyLoop rid key) :: k }) rfl (Nat.zero_add _)
  have hcfg : t.cfg = s.cfg := hpaint.engine.cfg
  have hlay : runTask (.prim (.legacyLoop rid key)) { t with todo := k } =
      .next (State.push { t with todo := k } [.prim .driveRest]) := by
    refine congrArg Host.Outcome.next (if_neg ?_)
    show ¬ t.rep.toNat < t.cfg.nRepeatLegacy
    rw [hrep, hcfg]
    exact Nat.lt_irrefl _
  refine ⟨drivePin s.cfg.pinRest { t with todo := k }, ?_, ?_, rfl, hrep, rfl⟩
  · refine .step htodo rfl (.step rfl rfl (hreach.trans (.step ht hlay (.step rfl ?_ (.refl _)))))
    rw [← hcfg]
    rfl
  · have hall := (painted_todo_rep { s with ph := .legacy } _ 0#8).trans (hpaint.trans
      ((painted_todo_rep t k t.rep).trans (painted_drivePin s.cfg.pinRest _)))
    exact hall

/-- `TRANSMIT` where the hardware path is not asked for or not available (R150). -/
theorem exec_transmit_legacy {s : State} {useHw : Bool} (h : (useHw && s.cfg.hwTimerAvailable) = false)
    (rid : RemoteId) (key : Byte) (idle : Bool) :
    exec (.transmit rid key useHw idle) s =
      .next (State.push { s with hwsel := useHw } [.op (.transmitLegacy rid key), .prim (.phase .idle)]) := by
  rw [exec, execTransmit, h]
  rfl

/-- `TRANSMIT` where it is asked for and available (R150). -/
theorem exec_transmit_hw {s : State} (h : s.cfg.hwTimerAvailable = true) (rid : RemoteId) (key : Byte) (idle : Bool) :
    exec (.transmit rid key true idle) s =
      .next (State.push { s with hwsel := true } [.op (.transmitHw rid key idle), .prim (.phase .idle)]) := by
  rw [exec, execTransmit, h]
  rfl

/-- The start of a command on the legacy path, up to `TRANSMIT_LEGACY` (R150, R192, R193). -/
theorem reaches_transmitLegacy {s : State} {i : Instr} {r : Record} {k : List Task} (htodo : s.todo = .op i :: k)
    (hi : (i = .switchLegacy r.tag r.rid r.key r.pad ∧ r.kind = s.cfg.kindSwitchLegacy) ∨
      (i = .switch r.tag r.rid r.key r.pad ∧ r.kind = s.cfg.kindSwitch ∧ s.cfg.hwTimerAvailable = false)) :
    ReachesByMain s
      { s with
        cur := r
        hwsel := decide (r.kind = s.cfg.kindSwitch)
        todo := .op (.transmitLegacy r.rid r.key) :: .prim (.phase .idle) :: .prim .reply :: k } := by
  obtain ⟨tag, kind, rid, key, pad⟩ := r
  rcases hi with ⟨rfl, hkind⟩ | ⟨rfl, hkind, hnone⟩ <;> cases hkind
  · rw [decide_eq_false s.cfg.switch_ne_legacy.symm]
    exact .step htodo rfl (.step rfl rfl (.refl _))
  · rw [decide_eq_true rfl]
    exact .step htodo rfl (.step rfl (exec_transmit_legacy (by exact hnone) rid key true) (.refl _))

/-- Settles O40: the two commands come to `TRANSMIT_LEGACY`; its frames and the rest level follow, then the echo. -/
theorem switchLegacyCommandCompletes : Obligations.SwitchLegacyCommandCompletes := by
  intro s i r k htodo hi
  have hstart := reaches_transmitLegacy htodo hi
  obtain ⟨t, hreach, hpaint, ht, hrep, hpin⟩ := painted_by_transmitLegacy
    (s := { s with
      cur := r
      hwsel := decide (r.kind = s.cfg.kindSwitch)
      todo := .op (.transmitLegacy r.rid r.key) :: .prim (.phase .idle) :: .prim .reply :: k }) rfl
  have hecho : ReachesByMain t (enqueue .oq t.cur { t with todo := k, ph := .idle }) :=
    .step ht rfl (.step rfl rfl (.refl _))
  obtain ⟨n, hrun, hagenda⟩ := run_of_reachesByMain (hstart.trans (hreach.trans hecho))
  obtain ⟨hstack, hengine, hencw, -, hhwsel, hcur, hiq, hoq⟩ := hpaint
  have hreply : (t.oq.write t.cur).1 = (s.oq.write r).1 := by rw [hoq, hcur]
  exact ⟨n, _, hrun, pinTrace_of_pinStack (s := s) hstack, rfl, hagenda, rfl, hhwsel, hcur, hrep, hpin,
    hengine.timerRegs, hengine.cnt, hengine.tifr, hengine.buf, hencw, hengine.snap, hengine.es, hengine.own, hiq,
    hreply, hengine.cfg⟩

end Sys2Proof.Machine
end

section
/-! SUPPORT. A switch command on the hardware-timed path (R192, R152, R156): MAIN's statements up to an `ARM`, the prompt ticks
of a frame and of its tail, and MAIN's statements after them, once for each frame. -/

namespace Sys2Proof.Machine

open Sys2Proof

/-! ## Schedules -/

/-- Some schedule takes `s` to `t`. -/
def Leads (s t : State) : Prop := ∃ ms : List Move, Reaches ms s t

theorem Leads.refl (s : State) : Leads s s := ⟨[], rfl⟩

theorem Leads.trans {s t u : State} (h : Leads s t) (h' : Leads t u) : Leads s u := by
  obtain ⟨ms, hms⟩ := h
  obtain ⟨ms', hms'⟩ := h'
  exact ⟨ms ++ ms', hms.append hms'⟩

theorem ReachesByMain.leads {s t : State} (h : ReachesByMain s t) : Leads s t := by
  obtain ⟨n, hn⟩ := h
  exact ⟨_, hn⟩

/-! ## A frame and its tail on the pin -/

/-- Segments that alternate in level are put on the trace as they are: those of a frame's bits and the tail after them. -/
theorem foldl_pushSegment_bitSegments (full half : Duration) (bs : List Bool) {l : Bool} {g : Segment}
    (hlevel : g.level = !l) (d : Nat) (tr : List Segment) :
    (bitSegments full half l bs ++ [(⟨levelAfter l bs, d, 0⟩ : Segment)]).foldl pushSegment (g :: tr) =
      (⟨levelAfter l bs, d, 0⟩ : Segment) :: (bitSegments full half l bs).reverse ++ g :: tr := by
  have hne : g.level ≠ l := by rw [hlevel]; exact Bool.not_ne_self l
  induction bs generalizing l g tr with
  | nil => exact pushSegment_of_ne (g := ⟨l, d, 0⟩) hne tr
  | cons b bs ih =>
    cases b
    · rw [bitSegments, List.cons_append, List.cons_append, List.foldl_cons, List.foldl_cons,
        pushSegment_of_ne (show g.level ≠ (half.segment l).level from hne),
        pushSegment_of_ne (show (half.segment l).level ≠ (half.segment (!l)).level from (Bool.not_ne_self l).symm)]
      have h := ih (l := l) (g := half.segment (!l)) rfl (half.segment l :: g :: tr) (Bool.not_ne_self l)
      rw [levelAfter, h]
      simp
    · rw [bitSegments, List.cons_append, List.foldl_cons,
        pushSegment_of_ne (show g.level ≠ (full.segment l).level from hne)]
      have h := ih (l := !l) (g := full.segment l) (Bool.not_not l).symm (g :: tr) (Bool.not_ne_self l).symm
      rw [levelAfter, h]
      simp

/-- The segments of a clean frame with its tail (R156). -/
def tailedFrame (c : Config) (rid : RemoteId) (key : Byte) (d : Nat) : List Segment :=
  frameSegments c rid key ++ [⟨tailLevel c rid key, d, 0⟩]

/-- `ARM` drives the pin to `PIN_INIT`; the ticks of the start segment then extend the trace as one segment would. -/
theorem pushSegment_start (s : State) :
    pushSegment s.pinStack ⟨s.cfg.pinInit, s.cfg.tStart, 0⟩ = startSegment (armBody s) :: (armBody s).trace := by
  show _ = (⟨s.cfg.pinInit, (drivePin s.cfg.pinInit s).segTicks + s.cfg.tStart, (drivePin s.cfg.pinInit s).segNs⟩ :
    Segment) :: (drivePin s.cfg.pinInit s).trace
  rcases drivePin_cases s.cfg.pinInit s with ⟨heq, e⟩ | ⟨hne, e⟩
  · rw [e, State.pinStack, pushSegment_of_eq heq.symm, heq]
    rfl
  · rw [e, State.pinStack, pushSegment_of_ne hne.symm, Nat.zero_add]
    rfl

/-- `d` ticks into the tail the frame is on the pin. -/
theorem pinStack_of_tail {s t : State} {rid : RemoteId} {key : Byte} {d : Nat} (hd : d < s.cfg.tFull)
    (h : ((startPulse (armBody s) (encodeWord rid key)).nth 24).At d t) :
    t.pinStack = (tailedFrame s.cfg rid key d).foldl pushSegment s.pinStack := by
  have hcfg : (armBody s).cfg = s.cfg := rfl
  obtain ⟨-, hhalf⟩ := startPulse_nth_compare (armBody s) (encodeWord rid key) 23
  rw [getLsbD_encodeWord_terminator, if_pos rfl, hcfg] at hhalf
  obtain ⟨hlevel, hclosed⟩ := startPulse_nth_pin (armBody s) (encodeWord rid key) 23
  rw [bitsOf_encodeWord, tailLevel_eq, hcfg] at hlevel
  rw [bitsOf_encodeWord, hcfg] at hclosed
  have hlt : d < s.cfg.inert := hd.trans s.cfg.tFull_lt_inert
  obtain ⟨-, -, hpin, htrace, hticks, hns⟩ := h.beforeHalf_of_lt (hhalf ▸ hlt)
  have hticks' : t.segTicks = d := hticks.trans (Nat.zero_add d)
  have hfold := foldl_pushSegment_bitSegments (hwFull s.cfg) (hwHalf s.cfg) (wireBits rid key) (l := !s.cfg.pinInit)
    (g := startSegment (armBody s)) (Bool.not_not _).symm d (armBody s).trace
  rw [tailLevel_eq] at hfold
  rw [tailedFrame, frameSegments, List.cons_append, List.foldl_cons, pushSegment_start, hfold, State.pinStack,
    State.present, hpin.trans hlevel, hticks', hns, htrace.trans hclosed]
  rfl

/-! ## One frame -/

/-- The segments `gs` were put on the pin trace, and of all else only the engine, the timer, `REP` and `PH` may have
changed. -/
structure State.Sent (s t : State) (gs : List Segment) : Prop where
  stack : t.pinStack = gs.foldl pushSegment s.pinStack
  cfg : t.cfg = s.cfg
  todo : t.todo = s.todo
  encw : t.encw = s.encw
  own : t.own = s.own
  snap : t.snap = s.snap
  gie : t.gie = s.gie
  inh : t.inh = s.inh
  hwsel : t.hwsel = s.hwsel
  cur : t.cur = s.cur
  iq : t.iq = s.iq
  oq : t.oq = s.oq

theorem State.Sent.refl (s : State) : s.Sent s [] := by constructor <;> rfl

theorem State.Sent.trans {s t u : State} {gs gs' : List Segment} (h : s.Sent t gs) (h' : t.Sent u gs') :
    s.Sent u (gs ++ gs') where
  stack := by rw [List.foldl_append, ← h.stack, h'.stack]
  cfg := h'.cfg.trans h.cfg
  todo := h'.todo.trans h.todo
  encw := h'.encw.trans h.encw
  own := h'.own.trans h.own
  snap := h'.snap.trans h.snap
  gie := h'.gie.trans h.gie
  inh := h'.inh.trans h.inh
  hwsel := h'.hwsel.trans h.hwsel
  cur := h'.cur.trans h.cur
  iq := h'.iq.trans h.iq
  oq := h'.oq.trans h.oq

/-- MAIN at its `POLL` after an `ARM` of `s`, before the first tick (R152). -/
def polling (s : State) (k : List Task) : State :=
  { armBody s with
    rep := s.rep + 1#8
    ph := .wait
    todo := .op (.poll true) :: .prim (.phase .stop) :: .op .stop :: .prim (.hwLoop true) :: k }

theorem reaches_polling {s : State} {k : List Task} (htodo : s.todo = .prim (.hwLoop true) :: k)
    (hrep : s.rep.toNat < s.cfg.nRepeat) : ReachesByMain s (polling s k) := by
  have hlay : runTask (.prim (.hwLoop true)) { s with todo := k } =
      .next (State.push { s with todo := k } (hwFrameTasks true)) := congrArg Host.Outcome.next (if_pos hrep)
  exact .step htodo hlay (.step rfl rfl (.step rfl rfl (.step rfl rfl (.step rfl rfl (.refl _)))))

/-- The start interval has begun there. -/
theorem startPulse_at_polling {s : State} (hgie : s.gie = true) (hinh : s.inh = false) (k : List Task) :
    (startPulse (armBody s) s.encw).At 0 (polling s k) :=
  (startPulse_at_armBody hgie hinh).of_same (by constructor <;> rfl) (by constructor <;> rfl)

/-- MAIN from its `POLL`, on an empty buffer, to the loop's test (R152). -/
theorem reaches_loop_test {u : State} {k : List Task} (hbuf : u.buf = 0#24)
    (htodo : u.todo = .op (.poll true) :: .prim (.phase .stop) :: .op .stop :: .prim (.hwLoop true) :: k) :
    ReachesByMain u (stopBody { u with ph := .stop, todo := .prim (.hwLoop true) :: k }) :=
  .step htodo (exec_poll_of_done (by exact hbuf) true) (.step rfl rfl (.step rfl (exec_stop _) (.refl _)))

/-- One frame with a clean tail of `d` ticks, from the loop's test back to it (R152, R156). -/
theorem leads_by_frame {s : State} {rid : RemoteId} {key : Byte} {k : List Task} {d : Nat}
    (htodo : s.todo = .prim (.hwLoop true) :: k) (hrep : s.rep.toNat < s.cfg.nRepeat)
    (hword : s.encw = encodeWord rid key) (hgie : s.gie = true) (hinh : s.inh = false) (hd : d < s.cfg.tFull) :
    ∃ t : State, Leads s t ∧ s.Sent t (tailedFrame s.cfg rid key d) ∧ t.rep = s.rep + 1#8 ∧ t.buf = 0#24 ∧
      t.cnt = d := by
  have hp := startPulse_ok (armBody s) (encodeWord rid key)
  have hbegin := startPulse_at_polling hgie hinh k
  rw [hword] at hbegin
  obtain ⟨hlen, -⟩ := startPulse_nth_compare (armBody s) (encodeWord rid key) 23
  rw [getLsbD_encodeWord_terminator] at hlen
  have hd' : d < ((startPulse (armBody s) (encodeWord rid key)).nth 24).len := hlen ▸ hd
  obtain ⟨u, hreach, hsame, hat⟩ := (hbegin.settled_begin hp).promptMoves_to hp hd'
  have hbuf : u.buf = 0#24 := by
    rw [hat.buf, Pulse.nth_word, BitVec.ushiftRight_eq_zero (Nat.le_refl 24)]
  refine ⟨_, (reaches_polling htodo hrep).leads.trans (.trans ⟨_, hreach⟩ (reaches_loop_test hbuf hsame.todo).leads),
    ?_, hsame.rep, rfl, (hat.counts_of_lt hd').1⟩
  have hstack : u.pinStack = (tailedFrame s.cfg rid key d).foldl pushSegment s.pinStack := pinStack_of_tail hd hat
  exact ⟨hstack, hsame.cfg, htodo.symm, hsame.encw, hsame.own, hsame.snap, hat.gie.trans hgie.symm,
    hat.inh.trans hinh.symm, hsame.hwsel, hsame.cur, hsame.iq, hsame.oq⟩

/-! ## The command -/

/-- The frames of a command with these tails, from the loop's first test to its last. -/
theorem leads_by_frames (tails : List Nat) {s : State} {rid : RemoteId} {key : Byte} {k : List Task}
    (htodo : s.todo = .prim (.hwLoop true) :: k) (hrep : s.rep.toNat + tails.length = s.cfg.nRepeat)
    (hword : s.encw = encodeWord rid key) (hgie : s.gie = true) (hinh : s.inh = false)
    (htails : ∀ d ∈ tails, d < s.cfg.tFull) :
    ∃ t : State, Leads s t ∧ s.Sent t (tails.flatMap (tailedFrame s.cfg rid key)) ∧ t.rep.toNat = s.cfg.nRepeat ∧
      (tails ≠ [] ∨ s.buf = 0#24 → t.buf = 0#24) ∧ t.cnt = tails.getLastD s.cnt := by
  induction tails generalizing s with
  | nil => exact ⟨s, .refl s, .refl s, hrep, fun h => h.resolve_left (fun hne => hne rfl), rfl⟩
  | cons d tails ih =>
    rw [List.length_cons] at hrep
    obtain ⟨t, hlead, hsent, hrept, hbuf, hcnt⟩ :=
      leads_by_frame htodo (by omega) hword hgie hinh (htails d List.mem_cons_self)
    have hle := s.cfg.nRepeat_le
    have hcount : t.rep.toNat = s.rep.toNat + 1 := by
      rw [hrept, BitVec.toNat_add]
      exact Nat.mod_eq_of_lt (by simp; omega)
    have hcfg := hsent.cfg
    obtain ⟨u, hlead', hsent', hrepu, hbuf', hcnt'⟩ := ih (hsent.todo.trans htodo) (by rw [hcfg]; omega)
      (hsent.encw.trans hword) (hsent.gie.trans hgie) (hsent.inh.trans hinh)
      (fun x hx => hcfg ▸ htails x (List.mem_cons_of_mem d hx))
    rw [hcfg] at hsent' hrepu
    refine ⟨u, hlead.trans hlead', ?_, hrepu, fun _ => hbuf' (.inr hbuf), ?_⟩
    · rw [List.flatMap_cons]
      exact hsent.trans hsent'
    · rw [hcnt', hcnt, List.getLastD_cons]

/-- `TRANSMIT_HW` from its start to its loop's first test (R152). -/
theorem reaches_hwLoop {s : State} {rid : RemoteId} {key : Byte} {k : List Task}
    (htodo : s.todo = .op (.transmitHw rid key true) :: k) :
    ReachesByMain s
      { s with
        encw := encodeWord rid key
        ph := .acq
        snap := s.timerRegs
        own := true
        rep := 0#8
        todo := .prim (.hwLoop true) :: k } :=
  .step htodo rfl (.step rfl rfl (.step rfl (exec_acquire _) (.step rfl rfl (.refl _))))

/-- The loop's first test of a switch command, with the timer taken (R152, R192). -/
def commandLoop (s : State) (r : Record) (k : List Task) : State :=
  { s with
    cur := r
    hwsel := true
    encw := encodeWord r.rid r.key
    ph := .acq
    snap := s.timerRegs
    own := true
    rep := 0#8
    todo := .prim (.hwLoop true) :: .prim (.phase .idle) :: .prim .reply :: k }

theorem reaches_commandLoop {s : State} {tag : Byte} {rid : RemoteId} {key : Byte} {pad : BitVec 24} {k : List Task}
    (htodo : s.todo = .op (.switch tag rid key pad) :: k) (havail : s.cfg.hwTimerAvailable = true) :
    ReachesByMain s (commandLoop s ⟨tag, s.cfg.kindSwitch, rid, key, pad⟩ k) := by
  have hstart : ReachesByMain s
      { s with
        cur := ⟨tag, s.cfg.kindSwitch, rid, key, pad⟩
        hwsel := true
        todo := .op (.transmitHw rid key true) :: .prim (.phase .idle) :: .prim .reply :: k } :=
    .step htodo rfl (.step rfl (exec_transmit_hw (by exact havail) rid key true) (.refl _))
  exact hstart.trans (reaches_hwLoop rfl)

/-- The end of a command: the pin at rest, the timer given back, the record offered (R152, R158, R192). -/
def commandEnd (t : State) (k : List Task) : State :=
  enqueue .oq t.cur
    { releaseBody (drivePin t.cfg.pinRest { t with ph := .rel, todo := [] }) with ph := .idle, todo := k }

theorem reaches_commandEnd {t : State} {k : List Task}
    (htodo : t.todo = .prim (.hwLoop true) :: .prim (.phase .idle) :: .prim .reply :: k)
    (hrep : t.rep.toNat = t.cfg.nRepeat) : ReachesByMain t (commandEnd t k) := by
  have hlay : runTask (.prim (.hwLoop true)) { t with todo := .prim (.phase .idle) :: .prim .reply :: k } =
      .next (State.push { t with todo := .prim (.phase .idle) :: .prim .reply :: k }
        [.prim (.phase .rel), .op .release]) :=
    congrArg Host.Outcome.next (if_neg (by rw [show State.rep _ = t.rep from rfl, hrep]; exact Nat.lt_irrefl _))
  exact .step htodo hlay (.step rfl rfl (.step rfl rfl (.step rfl rfl (.step rfl rfl (.step rfl rfl (.refl _))))))

theorem commandEnd_pinStack (t : State) (k : List Task) :
    (commandEnd t k).pinStack = pushSegment t.pinStack ⟨t.cfg.pinRest, 0, 0⟩ :=
  pinStack_drivePin t.cfg.pinRest { t with ph := .rel, todo := [] }

/-- Settles O39: MAIN to the loop, the frames with their tails, and MAIN to the end. -/
theorem switchCommandCompletes : Obligations.SwitchCommandCompletes := by
  intro s tag rid key pad k tails htodo havail hgie hinh hlength htails
  obtain ⟨t, hlead, hsent, hrep, hbuf, hcnt⟩ := leads_by_frames tails (rid := rid) (key := key)
    (s := commandLoop s ⟨tag, s.cfg.kindSwitch, rid, key, pad⟩ k) rfl ((Nat.zero_add _).trans hlength) rfl hgie hinh
    htails
  obtain ⟨hstack, hcfg, ht, hencw, -, hsnap, hgie', hinh', hhwsel, hcur, hiq, hoq⟩ := hsent
  have hcfg' : t.cfg = s.cfg := hcfg
  have hend := reaches_commandEnd (k := k) ht (hrep.trans (by rw [hcfg']; rfl))
  obtain ⟨ms, hms⟩ := ((reaches_commandLoop htodo havail).leads.trans hlead).trans hend.leads
  have hne : tails ≠ [] := by
    rintro rfl
    have hpos := s.cfg.nRepeat_pos
    rw [← hlength] at hpos
    cases hpos
  have htrace : (commandEnd t k).pinStack = (commandSegments s.cfg rid key tails).foldl pushSegment s.pinStack := by
    rw [commandEnd_pinStack, hstack, hcfg', commandSegments, List.foldl_append]
    rfl
  have hlast : some (commandEnd t k).cnt = tails.getLast? := by
    rw [show (commandEnd t k).cnt = t.cnt from rfl, hcnt]
    cases tails with
    | nil => exact absurd rfl hne
    | cons d tails => rw [List.getLast?_cons, List.getLastD_cons, List.getLastD_eq_getLast?]
  have hreply : (t.oq.write t.cur).1 = (s.oq.write ⟨tag, s.cfg.kindSwitch, rid, key, pad⟩).1 := by rw [hoq, hcur]; rfl
  have hregs : (commandEnd t k).timerRegs = s.timerRegs := hsnap
  obtain ⟨hifa, hifb⟩ := clearFlags_bits t.tifr
  have hpin : (commandEnd t k).pin = s.cfg.pinRest := congrArg Config.pinRest hcfg'
  exact ⟨ms, _, run_of_reaches hms, pinTrace_of_pinStack htrace, hlast, rfl, hms.schedule.1, rfl, hhwsel, hencw, hcur,
    hrep, hbuf (.inl hne), hpin, rfl, rfl, hsnap, hregs, hifa, hifb, hgie'.trans hgie, hinh'.trans hinh, hiq, hreply,
    hcfg'⟩

end Sys2Proof.Machine
end
